-- ==== Sys2Proof/Word.lean ====
section
/-! DEFINITION. The word types of MSZIP-CORE (00_scope R11): bytes of the streams, 16-bit fields and 32-bit registers. -/

namespace Sys2Proof

/-- A byte of the input stream, the output stream or the history window. -/
abbrev Byte := BitVec 8

/-- A 16-bit field: the signature, LEN, NLEN, a reader command word and a reader result (20_memory R68, 30_encoding R95). -/
abbrev Half := BitVec 16

/-- A register of the register block (10_state R21). -/
abbrev Word := BitVec 32

end Sys2Proof
end

