-- ==== Sys2Proof/Config.lean ====
section
/-! DEFINITION. What the platform fixes and what the spec leaves free: constants with no body, so no proof can see them. -/

namespace Sys2Proof

/-- REG_BASE, the base address of the register block, left to the platform (00_scope R9, D33). DESIGN CHOICE (log 5): the spec
gives REG_BASE, bus addresses and offsets no width, and the model takes each as a 32-bit word. -/
opaque Config.regBase : Word

/-- The offset in the register block of a bus address (10_state R21): what the model's register accesses carry, a 32-bit
word by the same choice (log 5). -/
def Config.offsetOf (address : Word) : Word := address - Config.regBase

/-- The value drawn by the k-th register read made while BUSY = 1 (10_state R32, 93 I1; log 6). -/
opaque Config.busyRead : Nat → Word

end Sys2Proof
end

