-- ==== Sys2Proof/Syntax.lean ====
section
/-! DEFINITION. The tokens and commands MSZIP-CORE executes: one constructor per row of spec/opcode_table.json.
A constructor's arguments are what the row's own bits say; the raw fields and extra bits that follow a token are operands
its meaning reads from the stream, as the spec's pseudocode does. -/

namespace Sys2Proof

/-- The three table registers T_CL, T_LL and T_D (10_state R40). -/
inductive TableSel where
  | cl
  | ll
  | d
  deriving DecidableEq, Repr

/-- The formats of 30_encoding. The phase of the engine selects the format of the next token; no bit of the token does. -/
inductive Format where
  /-- R81: two raw bytes as a little-endian 16-bit value. -/
  | sig
  /-- R82: three header bits. -/
  | blkHdr
  /-- R83: the stored block body; the format itself is the instruction. -/
  | stored
  /-- R84: the dynamic header; the format itself is the instruction. -/
  | dynHdr
  /-- R87: a code-length symbol. -/
  | clSymbol
  /-- R88: a literal/length symbol. -/
  | llSymbol
  /-- R89: a distance symbol. -/
  | dSymbol
  /-- R95: a reader command word. -/
  | readerCmd
  /-- BUILD and DECODE: no stream encoding. -/
  | internal
  deriving DecidableEq, Repr

inductive Instr where
  /-- SIG, R200. -/
  | sig
  /-- BTYPE_STORED, R154, with the header's BFINAL bit. -/
  | btypeStored (bfinal : Bool)
  /-- BTYPE_FIXED, R170. -/
  | btypeFixed (bfinal : Bool)
  /-- BTYPE_DYNAMIC, R160. -/
  | btypeDynamic (bfinal : Bool)
  /-- BTYPE_RESERVED, R152. -/
  | btypeReserved (bfinal : Bool)
  /-- STORED_HDR, R156. -/
  | storedHdr
  /-- DYN_HDR, R160 to R162. -/
  | dynHdr
  /-- CL_LIT, R164: code-length symbols 0..15. -/
  | clLit (v : BitVec 4)
  /-- CL_REP, R165: code-length symbol 16. -/
  | clRep
  /-- CL_Z3, R166: code-length symbol 17. -/
  | clZ3
  /-- CL_Z11, R167: code-length symbol 18. -/
  | clZ11
  /-- LIT, R172: literal/length symbols 0..255. -/
  | lit (b : Byte)
  /-- EOB, R173: literal/length symbol 256. -/
  | eob
  /-- LEN257, R300. -/
  | len257
  /-- LEN258, R301. -/
  | len258
  /-- LEN259, R302. -/
  | len259
  /-- LEN260, R303. -/
  | len260
  /-- LEN261, R304. -/
  | len261
  /-- LEN262, R305. -/
  | len262
  /-- LEN263, R306. -/
  | len263
  /-- LEN264, R307. -/
  | len264
  /-- LEN265, R308. -/
  | len265
  /-- LEN266, R309. -/
  | len266
  /-- LEN267, R310. -/
  | len267
  /-- LEN268, R311. -/
  | len268
  /-- LEN269, R312. -/
  | len269
  /-- LEN270, R313. -/
  | len270
  /-- LEN271, R314. -/
  | len271
  /-- LEN272, R315. -/
  | len272
  /-- LEN273, R316. -/
  | len273
  /-- LEN274, R317. -/
  | len274
  /-- LEN275, R318. -/
  | len275
  /-- LEN276, R319. -/
  | len276
  /-- LEN277, R320. -/
  | len277
  /-- LEN278, R321. -/
  | len278
  /-- LEN279, R322. -/
  | len279
  /-- LEN280, R323. -/
  | len280
  /-- LEN281, R324. -/
  | len281
  /-- LEN282, R325. -/
  | len282
  /-- LEN283, R326. -/
  | len283
  /-- LEN284, R327. -/
  | len284
  /-- LEN285, R328. -/
  | len285
  /-- LL_RESERVED, R174: symbol 286 (false) or 287 (true). -/
  | llReserved (odd : Bool)
  /-- DIST0, R330. -/
  | dist0
  /-- DIST1, R331. -/
  | dist1
  /-- DIST2, R332. -/
  | dist2
  /-- DIST3, R333. -/
  | dist3
  /-- DIST4, R334. -/
  | dist4
  /-- DIST5, R335. -/
  | dist5
  /-- DIST6, R336. -/
  | dist6
  /-- DIST7, R337. -/
  | dist7
  /-- DIST8, R338. -/
  | dist8
  /-- DIST9, R339. -/
  | dist9
  /-- DIST10, R340. -/
  | dist10
  /-- DIST11, R341. -/
  | dist11
  /-- DIST12, R342. -/
  | dist12
  /-- DIST13, R343. -/
  | dist13
  /-- DIST14, R344. -/
  | dist14
  /-- DIST15, R345. -/
  | dist15
  /-- DIST16, R346. -/
  | dist16
  /-- DIST17, R347. -/
  | dist17
  /-- DIST18, R348. -/
  | dist18
  /-- DIST19, R349. -/
  | dist19
  /-- DIST20, R350. -/
  | dist20
  /-- DIST21, R351. -/
  | dist21
  /-- DIST22, R352. -/
  | dist22
  /-- DIST23, R353. -/
  | dist23
  /-- DIST24, R354. -/
  | dist24
  /-- DIST25, R355. -/
  | dist25
  /-- DIST26, R356. -/
  | dist26
  /-- DIST27, R357. -/
  | dist27
  /-- DIST28, R358. -/
  | dist28
  /-- DIST29, R359. -/
  | dist29
  /-- D_RESERVED, R185: symbol 30 (false) or 31 (true). -/
  | dReserved (odd : Bool)
  /-- READ_BIT_LSB, R112. -/
  | readBitLsb
  /-- READ_BIT_MSB, R113. -/
  | readBitMsb
  /-- READ_BITS_LSB, R114, with the command word's N. -/
  | readBitsLsb (n : BitVec 5)
  /-- READ_BITS_MSB, R115, with the command word's N. -/
  | readBitsMsb (n : BitVec 5)
  /-- READ_RAW_BYTE, R116. -/
  | readRawByte
  /-- ALIGN, R118. -/
  | align
  /-- BUILD, R131: build the selected table from a code-length array. -/
  | buildTable (t : TableSel) (lens : List (BitVec 4))
  /-- DECODE, R136: decode one symbol against the selected table. -/
  | decodeSymbol (t : TableSel)
  deriving DecidableEq, Repr

end Sys2Proof
end

