-- ==== Sys2Proof/Machine/State.lean ====
section
/-! DEFINITION. The state of MSZIP-CORE as plain data (10_state), grouped by the sub-block that owns it, the state after
reset (70_reset_and_hazards R250), and the reasons a step can stop. -/

namespace Sys2Proof.Machine

/-- The bit order a byte is opened in (00_scope R17). -/
inductive BitOrder where
  | lsb
  | msb
  deriving DecidableEq, Repr

/-- PHASE (10_state R22). `matchDist` is the point inside MATCH (42 R175) between the length symbol and the distance symbol;
the spec gives it no code of its own and the model shows it as PAYLOAD (log 11). -/
inductive Phase where
  | idle
  | sig
  | blkHdr
  | storedHdr
  | storedCopy
  | dynHdr
  | dynLens
  | payload
  | matchDist
  | matchCopy
  | done
  | error
  deriving DecidableEq, Repr

/-- The error kinds of 60_exceptions R220, in code order 1 to 10. -/
inductive ErrKind where
  | unexpectedEndOfInput
  | invalidBlockType
  | invalidHuffmanTable
  | invalidBackReference
  | signatureMismatch
  | degenerateStoredBlock
  | invalidSymbol
  | bitOrderMix
  | misalignedRawRead
  | badReaderCommand
  deriving DecidableEq, Repr

/-- How a reader command completes (30_encoding R95, 60_exceptions R227). -/
inductive Completion where
  /-- The 16-bit result. -/
  | value (v : Half)
  /-- The error the command raised. -/
  | error (e : ErrKind)
  deriving DecidableEq, Repr

/-- The width of a register access; only a word is allowed (10_state R21). -/
inductive AccessWidth where
  | byte
  | half
  | word
  deriving DecidableEq, Repr

/-- One move of the schedule of host and engine (60_exceptions R234; log 3). -/
inductive Turn where
  /-- The engine takes one step. -/
  | engine
  /-- The host binds INPUT. -/
  | bind (bytes : List Byte)
  /-- The host answers `n` more FetchBytes. -/
  | answer (n : Nat)
  /-- The host issues a reader command word (R95). -/
  | command (w : Half)
  /-- The host writes the register block at `offset`. -/
  | write (offset : Word) (width : AccessWidth) (v : Word)
  /-- The host reads the register block at `offset`. -/
  | read (offset : Word) (width : AccessWidth)
  /-- Hardware reset. -/
  | reset
  deriving DecidableEq, Repr

/-- A triple (code, length, symbol) of a canonical Huffman table (41_huffman R131). -/
structure Entry where
  code : Nat
  len : Nat
  sym : Nat
  deriving DecidableEq, Repr

/-- A built table: its triples in increasing symbol order (10_state R40, 41_huffman R131; log 19). -/
abbrev Table := List Entry

/-- The BitReader with its input port (10_state R28, R33, R34; 20_memory R60). -/
structure Reader where
  /-- INPUT (20_memory R60): what START took from the host's binding (70 R252), none before there is one (log 17). -/
  input : Option (List Byte)
  /-- How many FetchBytes of this sequence the host has answered, the answer "end of input" included (R62; log 4). -/
  granted : Nat
  /-- How many bytes of INPUT were fetched; IN_POS is its low 32 bits (log 2). -/
  pos : Nat
  curByte : Byte
  ccount : BitVec 3
  corder : BitOrder
  deriving DecidableEq, Repr

/-- The output port and the history window (10_state R29, R30, R36; 20_memory R64, R66). -/
structure Window where
  out : List Byte
  outTotal : Word
  frameOut : Word
  hist : List Host.Cell
  hwp : BitVec 15
  histValid : BitVec 16
  deriving DecidableEq, Repr

/-- The block decoder's registers, code-length arrays and tables (10_state R35, R37, R39, R40). -/
structure Block where
  bfinal : Bool
  btype : BitVec 2
  mlen : BitVec 9
  mdist : BitVec 16
  mrem : BitVec 9
  slen : Half
  snlen : Half
  srem : Half
  hlit : BitVec 9
  hdist : BitVec 6
  hclen : BitVec 5
  clLens : Vector (BitVec 3) 19
  lens : Vector (BitVec 4) 320
  li : BitVec 9
  /-- The symbol the last DECODE returned (41_huffman R136; log 9). -/
  sym : BitVec 9
  tCl : Option Table
  tLl : Option Table
  tD : Option Table
  deriving DecidableEq, Repr

/-- The frame sequencer's latches and the stored part of the register block (10_state R22, R24 to R27, R38). -/
structure Sequencer where
  phase : Phase
  cfgStrict : Bool
  strict : Bool
  nlenMismatch : Bool
  err : Option ErrKind
  frames : Word
  anyFrame : Bool
  deriving DecidableEq, Repr

/-- The world outside the core, as the model holds it (60_exceptions R234; logs 3, 4, 6, 7, 8). -/
structure Port where
  /-- The moves still to come; where it is empty the engine moves. -/
  turns : List Turn
  /-- The byte sequence the host has bound, which the next START makes INPUT (70 R252). -/
  bound : Option (List Byte)
  /-- The reader command issued and not yet completed. -/
  cmd : Option Half
  /-- How the last reader command completed. -/
  result : Option Completion
  /-- The engine stands in a FetchByte the host has not answered (R62, R233). -/
  waiting : Bool
  /-- What the last register read returned. -/
  rdata : Word
  /-- How many free draws were used. -/
  draws : Nat
  deriving DecidableEq, Repr

/-- The whole machine. -/
structure State where
  reader : Reader
  window : Window
  block : Block
  seq : Sequencer
  port : Port
  deriving DecidableEq, Repr

/-- The reasons the machine stops with a model fault: steps the rules never take (70_reset_and_hazards R255, 93 I4, I5). All safe. -/
inductive Fault where
  /-- A decode against an absent table (10_state R40, I4). Raised by DECODE and by the engine's symbol decodes. Safe. -/
  | absentTable
  /-- HistRead(d) with d = 0 or d > hist_valid (20_memory R67, I5). Raised by the match copy. Safe. -/
  | histRange
  /-- HistRead of a history byte that no Emit has written. Raised by the match copy. Safe. -/
  | histUnwritten
  /-- A code-length symbol above 18 from T_CL, which is built over 19 symbols only (R87). Raised by the engine's decode. Safe. -/
  | noSuchClSymbol
  /-- An access to lens outside its 320 entries (10_state R39). Raised by the code-length tokens. Safe. -/
  | lensRange
  deriving DecidableEq, Repr

/-- The reasons a step is refused. All safe. -/
inductive Refusal where
  /-- An instruction with no meaning yet; no arm of exec answers it. Safe. -/
  | notModelled (mnemonic : String)
  /-- A register access that is not an aligned 32-bit word (10_state R21, I12). Raised by the host's register turns. Safe. -/
  | busAccess
  /-- A binding of INPUT while a sequence that has its INPUT runs (20_memory R63, I10). Raised by the host's bind turn. Safe. -/
  | inputRebind
  /-- A reader command issued while another is pending (log 14). Raised by the host's command turn. Safe. -/
  | commandPending
  deriving DecidableEq, Repr

/-- The reader after reset (R250): nothing bound, nothing fetched, an empty carry. -/
def Reader.reset : Reader where
  input := none
  granted := 0
  pos := 0
  curByte := 0
  ccount := 0
  corder := .lsb

/-- The output port and window after reset (R250). The core keeps no record of bytes emitted earlier (log 20). -/
def Window.reset : Window where
  out := []
  outTotal := 0
  frameOut := 0
  hist := []
  hwp := 0
  histValid := 0

/-- The block decoder after reset (R250). -/
def Block.reset : Block where
  bfinal := false
  btype := 0
  mlen := 0
  mdist := 0
  mrem := 0
  slen := 0
  snlen := 0
  srem := 0
  hlit := 0
  hdist := 0
  hclen := 0
  clLens := Vector.replicate 19 0
  lens := Vector.replicate 320 0
  li := 0
  sym := 0
  tCl := none
  tLl := none
  tD := none

/-- The sequencer after reset (R250). -/
def Sequencer.reset : Sequencer where
  phase := .idle
  cfgStrict := false
  strict := false
  nlenMismatch := false
  err := none
  frames := 0
  anyFrame := false

/-- The host port before the host has moved (logs 3, 4, 7, 8): INPUT is not bound (R250). -/
def Port.reset : Port where
  turns := []
  bound := none
  cmd := none
  result := none
  waiting := false
  rdata := 0
  draws := 0

/-- The machine right after reset (70_reset_and_hazards R250). -/
def State.reset : State where
  reader := Reader.reset
  window := Window.reset
  block := Block.reset
  seq := Sequencer.reset
  port := Port.reset

end Sys2Proof.Machine
end

