-- ==== Sys2Proof/Machine/Memory.lean ====
section
/-! DEFINITION. The history memory (10_state R36, 20_memory R66): a list of cells in one canonical form, addresses strictly
rising and below 32768. A byte no Emit has written has no value (log 12). -/

namespace Sys2Proof.Machine

/-- The addresses of the history: a 15-bit index (R36). -/
def histSize : Nat := 32768

/-- Every address of the list is above `low`, below the history's size, and the addresses strictly rise. -/
def risingAbove : Nat → List Host.Cell → Bool
  | _, [] => true
  | low, (a, _) :: rest => decide (low ≤ a) && decide (a < histSize) && risingAbove (a + 1) rest

/-- The canonical form of the history. -/
def memoryWf (m : List Host.Cell) : Bool := risingAbove 0 m

/-- The byte at an address, none where nothing was written. -/
def memoryRead : List Host.Cell → Nat → Option Byte
  | [], _ => none
  | (a, b) :: rest, k => if k = a then some b else if k < a then none else memoryRead rest k

/-- The list with the byte at an address replaced or entered in its place. -/
def memoryWrite : List Host.Cell → Nat → Byte → List Host.Cell
  | [], k, v => [(k, v)]
  | (a, b) :: rest, k, v =>
    if k = a then (a, v) :: rest
    else if k < a then (k, v) :: (a, b) :: rest
    else (a, b) :: memoryWrite rest k v

end Sys2Proof.Machine
end

