-- ==== Sys2Proof/Machine/Ops.lean ====
section
/-! DEFINITION. The named operations every meaning is written over: the reader primitives (40_bitreader), the output port and
history window (20_memory), error entry (60_exceptions), the end of a block and of a frame, START and reset. -/

namespace Sys2Proof.Machine

/-- What an operation answers: a value and the state after it, a raise with the state at the raise (60 R223), a wait in an
unanswered FetchByte (20 R62), or a model fault. -/
inductive Res (σ α : Type) where
  | ok (a : α) (s : σ)
  | raise (e : ErrKind) (s : σ)
  | wait
  | fault (f : Fault)
  deriving DecidableEq, Repr

/-- Do `k` after `r`, unless `r` did not answer a value. -/
def Res.bind {σ α β : Type} (r : Res σ α) (k : α → σ → Res σ β) : Res σ β :=
  match r with
  | .ok a s => k a s
  | .raise e s => .raise e s
  | .wait => .wait
  | .fault f => .fault f

/-- Read the same answer with the state mapped, as when a sub-block's operation acts inside the whole machine. -/
def Res.mapState {σ τ α : Type} (f : σ → τ) (r : Res σ α) : Res τ α :=
  match r with
  | .ok a s => .ok a (f s)
  | .raise e s => .raise e (f s)
  | .wait => .wait
  | .fault x => .fault x

/-! ## The reader -/

/-- FetchByte (20_memory R60): the next byte of INPUT, or none for EXHAUSTED; it waits while the host has not answered (R62). -/
def Reader.fetchByte (r : Reader) : Res Reader (Option Byte) :=
  match r.input with
  | none => .wait
  | some bytes =>
    if r.granted ≤ r.pos then .wait
    else
      match bytes[r.pos]? with
      | some b => .ok (some b) { r with pos := r.pos + 1 }
      | none => .ok none r

/-- The next of the `k` undelivered bits of a byte opened in order `o` (40_bitreader R111). -/
def bitOf (o : BitOrder) (b : Byte) (k : Nat) : Bool :=
  match o with
  | .lsb => b.getLsbD (8 - k)
  | .msb => b.getLsbD (k - 1)

/-- TakeBit (40_bitreader R111). -/
def Reader.takeBit (o : BitOrder) (r : Reader) : Res Reader Bool :=
  if r.ccount = 0 then
    r.fetchByte.bind fun fetched r1 =>
      match fetched with
      | none => .raise .unexpectedEndOfInput r1
      | some b => .ok (bitOf o b 8) { r1 with curByte := b, corder := o, ccount := 7 }
  else if r.corder ≠ o then .raise .bitOrderMix r
  else .ok (bitOf o r.curByte r.ccount.toNat) { r with ccount := r.ccount - 1 }

/-- One bit as a 16-bit value. -/
def bitValue (b : Bool) : Half := (BitVec.ofBool b).setWidth 16

/-- The loop of ReadBitsLSB (40_bitreader R114): `k` bits still to take, the next one goes to bit `i`. -/
def Reader.takeBitsLsb : (k i : Nat) → Half → Reader → Res Reader Half
  | 0, _, v, r => .ok v r
  | k + 1, i, v, r => (r.takeBit .lsb).bind fun b r1 => Reader.takeBitsLsb k (i + 1) (v ||| (bitValue b <<< i)) r1

/-- The loop of ReadBitsMSB (40_bitreader R115): `k` bits still to take, each shifted in from below. -/
def Reader.takeBitsMsb : (k : Nat) → Half → Reader → Res Reader Half
  | 0, v, r => .ok v r
  | k + 1, v, r => (r.takeBit .msb).bind fun b r1 => Reader.takeBitsMsb k ((v <<< 1) ||| bitValue b) r1

/-- ReadBitsLSB(n) (40_bitreader R114, R119). -/
def Reader.readBitsLsb (n : Nat) (r : Reader) : Res Reader Half :=
  if 16 < n then .raise .badReaderCommand r else Reader.takeBitsLsb n 0 0 r

/-- ReadBitsMSB(n) (40_bitreader R115, R119). -/
def Reader.readBitsMsb (n : Nat) (r : Reader) : Res Reader Half :=
  if 16 < n then .raise .badReaderCommand r else Reader.takeBitsMsb n 0 r

/-- ReadRawByte (40_bitreader R116). -/
def Reader.readRawByte (r : Reader) : Res Reader Byte :=
  if r.ccount ≠ 0 then .raise .misalignedRawRead r
  else
    r.fetchByte.bind fun fetched r1 =>
      match fetched with
      | none => .raise .unexpectedEndOfInput r1
      | some b => .ok b r1

/-- AlignToByte (40_bitreader R118). -/
def Reader.alignToByte (r : Reader) : Reader := { r with ccount := 0 }

/-- An operation of the reader inside the whole machine: nothing but the reader changes. -/
def State.withReader {α : Type} (s : State) (r : Res Reader α) : Res State α :=
  r.mapState fun reader => { s with reader := reader }

/-! ## The output port and the history window -/

/-- Emit(b) (20_memory R64). -/
def Window.emit (b : Byte) (w : Window) : Window where
  out := w.out ++ [b]
  outTotal := w.outTotal + 1
  frameOut := w.frameOut + 1
  hist := memoryWrite w.hist w.hwp.toNat b
  hwp := w.hwp + 1
  histValid := if w.histValid.toNat < histSize then w.histValid + 1 else BitVec.ofNat 16 histSize

/-- HistRead(d) (20_memory R67): the byte d positions behind the write index, modulo 32768. A model fault where the rules
never issue it (93 I5) or no Emit has written the byte. -/
def Window.histRead (d : BitVec 16) (w : Window) : Except Fault Byte :=
  if d = 0 ∨ w.histValid < d then .error .histRange
  else
    match memoryRead w.hist (w.hwp - d.setWidth 15).toNat with
    | some b => .ok b
    | none => .error .histUnwritten

/-- Emit inside the whole machine. -/
def State.emit (b : Byte) (s : State) : State := { s with window := s.window.emit b }

/-! ## Errors, waits and completions -/

/-- Error entry (60_exceptions R222): ERRCODE and PHASE, nothing else. -/
def State.raise (e : ErrKind) (s : State) : State :=
  { s with seq := { s.seq with err := some e, phase := .error } }

/-- The engine stands in a FetchByte nobody has answered (20_memory R62): nothing else changes. -/
def State.wait (s : State) : State := { s with port := { s.port with waiting := true } }

/-- What an engine operation begun at `s0` makes of the machine: a raise is error entry, a wait leaves `s0` waiting. -/
def Res.settle (r : Res State Unit) (s0 : State) : Host.Outcome State Fault Refusal :=
  match r with
  | .ok _ s => .next s
  | .raise e s => .next (s.raise e)
  | .wait => .next s0.wait
  | .fault f => .fault f

/-- A reader command ends with a completion and is no longer pending (30_encoding R95, 60_exceptions R227; log 8). DESIGN CHOICE
(log 8): a completion with an error is the end of that command only. A further command may be issued with no START or reset in
between, and runs on the reader as the failed one left it; 40_bitreader R110(e) calls reader errors terminal, R227 lets the failed
command complete, and no rule says whether a command may follow. -/
def State.complete (c : Completion) (s : State) : State :=
  { s with port := { s.port with cmd := none, result := some c } }

/-- What a reader command begun at `s0` makes of the machine: PHASE and ERRCODE are the engine's and stay (R227). DESIGN CHOICE
(log 8): a raise leaves the reader at the raise, and the next command runs there. DESIGN CHOICE (log 4): a command that waits in a FetchByte, in any phase, leaves `s0` as it was. So with PHASE IDLE, DONE or ERROR BUSY stays 0,
as R25 computes it from PHASE, though R62 says BUSY = 1 of a wait; and IN_POS and CURSOR read their values before the command,
bytes it had already fetched undone. -/
def Res.settleCommand (r : Res State Half) (s0 : State) : Host.Outcome State Fault Refusal :=
  match r with
  | .ok v s => .next (s.complete (.value v))
  | .raise e s => .next (s.complete (.error e))
  | .wait => .next s0.wait
  | .fault f => .fault f

/-! ## Phases, tables, the end of a block and of a frame -/

/-- goto PHASE (00_scope R12). -/
def State.goto (p : Phase) (s : State) : State := { s with seq := { s.seq with phase := p } }

/-- The table register selected (10_state R40). -/
def Block.table (t : TableSel) (b : Block) : Option Table :=
  match t with
  | .cl => b.tCl
  | .ll => b.tLl
  | .d => b.tD

/-- Write the table register selected. -/
def Block.setTable (t : TableSel) (x : Option Table) (b : Block) : Block :=
  match t with
  | .cl => { b with tCl := x }
  | .ll => { b with tLl := x }
  | .d => { b with tD := x }

/-- FRAME_END (43_mszip_frame R204). -/
def State.frameEnd (s : State) : State :=
  { s with seq := { s.seq with frames := s.seq.frames + 1, anyFrame := true, phase := .sig } }

/-- END_OF_BLOCK (42_deflate_block R153): the tables become absent; the frame ends or the next header follows. -/
def State.endOfBlock (s : State) : State :=
  let s1 := { s with block := { s.block with tCl := none, tLl := none, tD := none } }
  if s.block.bfinal then s1.frameEnd else s1.goto .blkHdr

/-- SIG_MISMATCH (43_mszip_frame R201): DONE after at least one frame, else SignatureMismatch. -/
def State.sigMismatch (s : State) : State :=
  if s.seq.anyFrame then s.goto .done else s.raise .signatureMismatch

/-! ## START and reset -/

/-- BUSY (10_state R25). -/
def Phase.busy : Phase → Bool
  | .idle => false
  | .done => false
  | .error => false
  | .sig => true
  | .blkHdr => true
  | .storedHdr => true
  | .storedCopy => true
  | .dynHdr => true
  | .dynLens => true
  | .payload => true
  | .matchDist => true
  | .matchCopy => true

/-- What START does once accepted (70_reset_and_hazards R252). INPUT becomes what the host has bound; the answers to its
FetchBytes are counted anew (logs 4, 17). The registers R252 does not name keep their values. -/
def State.start (s : State) : State :=
  { s with
    reader := { input := s.port.bound, granted := 0, pos := 0, curByte := 0, ccount := 0, corder := .lsb }
    window := { s.window with out := [], outTotal := 0, frameOut := 0, hwp := 0, histValid := 0 }
    block := { s.block with tCl := none, tLl := none, tD := none }
    seq := { s.seq with
      phase := .sig, strict := s.seq.cfgStrict, nlenMismatch := false, err := none, frames := 0, anyFrame := false } }

/-- Hardware reset and SRST (70_reset_and_hazards R250, R251): every piece of the core's state at its reset value. What
belongs to the world outside the core stays: the coming moves, the last read's data, the count of draws (log 20). -/
def State.resetCore (s : State) : State :=
  { State.reset with
    port := { Port.reset with turns := s.port.turns, rdata := s.port.rdata, draws := s.port.draws } }

end Sys2Proof.Machine
end

