-- ==== Sys2Proof/Machine/Flags.lean ====
section
/-! DEFINITION. The status flags and codes of MSZIP-CORE (10_state R25, R26, R41; 60_exceptions R220) and the one check that
writes a flag besides error entry (42_deflate_block R157). The hardware has no arithmetic flags. -/

namespace Sys2Proof.Machine

/-- The code of a phase (10_state R22). -/
def Phase.code : Phase → BitVec 4
  | .idle => 0
  | .sig => 1
  | .blkHdr => 2
  | .storedHdr => 3
  | .storedCopy => 4
  | .dynHdr => 5
  | .dynLens => 6
  | .payload => 7
  | .matchDist => 7
  | .matchCopy => 8
  | .done => 9
  | .error => 10

/-- The ERRCODE of an error kind (60_exceptions R220). -/
def ErrKind.code : ErrKind → BitVec 4
  | .unexpectedEndOfInput => 1
  | .invalidBlockType => 2
  | .invalidHuffmanTable => 3
  | .invalidBackReference => 4
  | .signatureMismatch => 5
  | .degenerateStoredBlock => 6
  | .invalidSymbol => 7
  | .bitOrderMix => 8
  | .misalignedRawRead => 9
  | .badReaderCommand => 10

/-- BUSY of the machine (10_state R25). -/
def State.busy (s : State) : Bool := s.seq.phase.busy

/-- The ERRCODE register (10_state R26): bits 3:0 the code, 0 where there is no error. -/
def State.errcodeWord (s : State) : Word :=
  match s.seq.err with
  | none => 0
  | some e => e.code.setWidth 32

/-- A flag as a word. -/
def flagWord (b : Bool) : Word := (BitVec.ofBool b).setWidth 32

/-- The STATUS register (10_state R25): BUSY, DONE, ERR, NLEN_MISMATCH in bits 0 to 3, PHASE in bits 11:8. -/
def State.statusWord (s : State) : Word :=
  flagWord s.busy ||| (flagWord (s.seq.phase == .done) <<< 1) ||| (flagWord (s.seq.phase == .error) <<< 2) |||
    (flagWord s.seq.nlenMismatch <<< 3) ||| (s.seq.phase.code.setWidth 32 <<< 8)

/-- The CURSOR register (10_state R31): ccount in bits 2:0, corder in bit 3, cur_byte in bits 15:8. -/
def State.cursorWord (s : State) : Word :=
  s.reader.ccount.setWidth 32 ||| (flagWord (s.reader.corder == .msb) <<< 3) ||| (s.reader.curByte.setWidth 32 <<< 8)

/-- The IN_POS register (10_state R28): the bytes fetched, modulo 2^32 (log 2). -/
def State.inPosWord (s : State) : Word := BitVec.ofNat 32 s.reader.pos

/-- NLEN is not the ones' complement of LEN (30_encoding R97, 42_deflate_block R157). -/
def nlenDiffers (slen snlen : Half) : Bool := snlen != ~~~slen

/-- The optional NLEN check (42_deflate_block R157): sticky, and only with strict = 1. -/
def Sequencer.checkNlen (slen snlen : Half) (q : Sequencer) : Sequencer :=
  if q.strict && nlenDiffers slen snlen then { q with nlenMismatch := true } else q

end Sys2Proof.Machine
end

