-- ==== Sys2Proof/Machine/Operands.lean ====
section
/-! DEFINITION. The operand forms of the tokens: extra bits added to a base (30_encoding R93), raw little-endian 16-bit fields
(R68, R83), the permuted code-length fields (R86) and the run of equal code lengths (42_deflate_block R168). -/

namespace Sys2Proof.Machine

/-- Two bytes as a 16-bit value, the first byte low (20_memory R68). -/
def littleEndian (b0 b1 : Byte) : Half := b1 ++ b0

/-- base + ReadBitsLSB(e) (30_encoding R93). -/
def State.readExtra (base e : Nat) (s : State) : Res State Nat :=
  (s.withReader (s.reader.readBitsLsb e)).bind fun v s1 => .ok (base + v.toNat) s1

/-- A 16-bit field as two raw bytes (42_deflate_block R156). -/
def Reader.readRawHalf (r : Reader) : Res Reader Half :=
  r.readRawByte.bind fun b0 r1 => r1.readRawByte.bind fun b1 r2 => .ok (littleEndian b0 b1) r2

/-- The signature's two bytes by FetchByte, none where the input is exhausted first (43_mszip_frame R200). -/
def Reader.readSignature (r : Reader) : Res Reader (Option Half) :=
  r.alignToByte.fetchByte.bind fun f0 r1 =>
    match f0 with
    | none => .ok none r1
    | some b0 =>
      r1.fetchByte.bind fun f1 r2 =>
        match f1 with
        | none => .ok none r2
        | some b1 => .ok (some (littleEndian b0 b1)) r2

/-- ORDER, the permutation of the code-length code lengths (30_encoding R86). -/
def clOrder : List (Fin 19) := [16, 17, 18, 0, 8, 7, 9, 6, 10, 5, 11, 4, 12, 3, 13, 2, 14, 1, 15]

/-- The 3-bit code-length fields (42_deflate_block R161), one for each index of the list, each written as it is read. -/
def State.readClLens : List (Fin 19) → State → Res State Unit
  | [], s => .ok () s
  | i :: rest, s =>
    (s.withReader (s.reader.readBitsLsb 3)).bind fun v s1 =>
      State.readClLens rest { s1 with block := { s1.block with clLens := s1.block.clLens.set i.val (v.setWidth 3) } }

/-- `r` entries of lens from `at0` on set to `v`; the caller has checked that they lie inside. -/
def fillLens (v : BitVec 4) : (r at0 : Nat) → Vector (BitVec 4) 320 → Vector (BitVec 4) 320
  | 0, _, lens => lens
  | r + 1, at0, lens => fillLens v r (at0 + 1) (lens.setIfInBounds at0 v)

/-- `r` entries of value `v` entered at li, li moved past them. Outside the 320 entries is a model fault (10_state R39). -/
def State.appendLens (v : BitVec 4) (r : Nat) (s : State) : Res State Unit :=
  if 320 < s.block.li.toNat + r then .fault .lensRange
  else
    .ok ()
      { s with
        block := { s.block with
          lens := fillLens v r s.block.li.toNat s.block.lens
          li := BitVec.ofNat 9 (s.block.li.toNat + r) } }

/-- The number of entries the dynamic header announces (42_deflate_block R163). -/
def Block.lensTotal (b : Block) : Nat := b.hlit.toNat + b.hdist.toNat

/-- RunFill(v, r) (42_deflate_block R168). -/
def State.runFill (v : BitVec 4) (r : Nat) (s : State) : Res State Unit :=
  if s.block.lensTotal < s.block.li.toNat + r then .raise .invalidHuffmanTable s else s.appendLens v r

end Sys2Proof.Machine
end

