-- ==== Sys2Proof/Machine/Huffman.lean ====
section
/-! DEFINITION. The CanonicalHuffmanTable (41_huffman): the build with its over-subscription check and the symbol decode. -/

namespace Sys2Proof.Machine

/-- bl_count[L] (41_huffman R131); bl_count[0] is taken as 0. -/
def lengthCount (lens : List (BitVec 4)) (len : Nat) : Nat :=
  if len = 0 then 0 else lens.countP fun l => l.toNat == len

/-- CheckOversubscribed over the lengths listed, from a given `left` (41_huffman R133): false where it raises. -/
def leftStaysNonneg (lens : List (BitVec 4)) : List Nat → Int → Bool
  | [], _ => true
  | len :: rest, left =>
    let left1 := 2 * left - lengthCount lens len
    if left1 < 0 then false else leftStaysNonneg lens rest left1

/-- The lengths are over-subscribed (41_huffman R133). -/
def oversubscribed (lens : List (BitVec 4)) : Bool := !leftStaysNonneg lens (List.range' 1 15) 1

/-- next_code over the lengths listed, from the code before them (41_huffman R131). -/
def nextCodesFrom (lens : List (BitVec 4)) : List Nat → Nat → List Nat
  | [], _ => []
  | len :: rest, code =>
    let code1 := (code + lengthCount lens (len - 1)) <<< 1
    code1 :: nextCodesFrom lens rest code1

/-- next_code[0..15]; entry 0 is never used (41_huffman R131). -/
def nextCodes (lens : List (BitVec 4)) : List Nat := 0 :: nextCodesFrom lens (List.range' 1 15) 0

/-- The assignment loop of Build from symbol `sym` on (41_huffman R131). -/
def assignCodes : List (BitVec 4) → (sym : Nat) → (next : List Nat) → Table
  | [], _, _ => []
  | l :: rest, sym, next =>
    if l = 0 then assignCodes rest (sym + 1) next
    else
      let code := next.getD l.toNat 0
      { code := code, len := l.toNat, sym := sym } :: assignCodes rest (sym + 1) (next.set l.toNat (code + 1))

/-- Build (41_huffman R131, R133 to R135): none where the lengths are over-subscribed. -/
def build (lens : List (BitVec 4)) : Option Table :=
  if oversubscribed lens then none else some (assignCodes lens 0 (nextCodes lens))

/-- The symbol whose code is the `k` bits `c`, if there is one (41_huffman R136). -/
def leafAt (t : Table) (c k : Nat) : Option Nat := (t.find? fun e => e.len == k && e.code == c).map Entry.sym

/-- Some code of the table continues the `k` bits `c` (41_huffman R136). -/
def continues (t : Table) (c k : Nat) : Bool := t.any fun e => decide (k < e.len) && (e.code >>> (e.len - k) == c)

/-- The longest code of the table. -/
def longestCode (t : Table) : Nat := t.foldl (fun m e => max m e.len) 0

/-- The loop of Decode (41_huffman R136) with `c`, the `k` bits read so far. The fuel is the longest code and one more, at
which no code continues, so it does not run out. -/
def Reader.decodeLoop (t : Table) : (fuel c k : Nat) → Reader → Res Reader Nat
  | 0, _, _, r => .raise .invalidHuffmanTable r
  | fuel + 1, c, k, r =>
    match leafAt t c k with
    | some sym => .ok sym r
    | none =>
      if continues t c k then
        (r.takeBit .lsb).bind fun b r1 => Reader.decodeLoop t fuel (2 * c + b.toNat) (k + 1) r1
      else .raise .invalidHuffmanTable r

/-- Decode(T) (41_huffman R136, R137). -/
def Reader.decodeSymbol (t : Table) (r : Reader) : Res Reader Nat := r.decodeLoop t (longestCode t + 1) 0 0

/-- Decode against a table register, the symbol left in `sym` (log 9). An absent table is a model fault (10_state R40, I4). -/
def State.decodeInto (t : TableSel) (s : State) : Res State Unit :=
  match s.block.table t with
  | none => .fault .absentTable
  | some table =>
    (s.withReader (s.reader.decodeSymbol table)).bind fun sym s1 =>
      .ok () { s1 with block := { s1.block with sym := BitVec.ofNat 9 sym } }

/-- T <- Build(lens) (41_huffman R131); over-subscribed lengths raise and leave the register absent (R133). -/
def State.buildInto (t : TableSel) (lens : List (BitVec 4)) (s : State) : Res State Unit :=
  match build lens with
  | some table => .ok () { s with block := s.block.setTable t (some table) }
  | none => .raise .invalidHuffmanTable { s with block := s.block.setTable t none }

/-- FIXED_LL (30_encoding R91, 42_deflate_block R170; log 18). -/
def fixedLlLens : List (BitVec 4) :=
  List.replicate 144 8 ++ List.replicate 112 9 ++ List.replicate 24 7 ++ List.replicate 8 8

/-- FIXED_D (30_encoding R92, 42_deflate_block R170). -/
def fixedDLens : List (BitVec 4) := List.replicate 32 5

/-- The code-length array of T_CL, its 3-bit entries widened (42_deflate_block R162). -/
def Block.clArray (b : Block) : List (BitVec 4) := b.clLens.toList.map fun l => l.setWidth 4

/-- lens[0 .. hlit-1] (42_deflate_block R169). -/
def Block.llArray (b : Block) : List (BitVec 4) := b.lens.toList.take b.hlit.toNat

/-- lens[hlit .. hlit+hdist-1] (42_deflate_block R169). -/
def Block.dArray (b : Block) : List (BitVec 4) := (b.lens.toList.drop b.hlit.toNat).take b.hdist.toNat

/-- Build T_LL, then T_D, then go to PAYLOAD (42_deflate_block R169, R170). -/
def State.buildPayloadTables (ll d : List (BitVec 4)) (s : State) : Res State Unit :=
  (s.buildInto .ll ll).bind fun _ s1 => (s1.buildInto .d d).bind fun _ s2 => .ok () (s2.goto .payload)

end Sys2Proof.Machine
end

