-- ==== Sys2Proof/Machine/CodeLengths.lean ====
section
/-! DEFINITION. The meanings of the code-length symbols (42_deflate_block R163 to R168). -/

namespace Sys2Proof.Machine

/-- CL_LIT (42_deflate_block R164). -/
def execClLit (v : BitVec 4) (s : State) : Host.Outcome State Fault Refusal := (s.appendLens v 1).settle s

/-- RunFill(lens[li-1], r) (42_deflate_block R165). -/
def State.repeatPrevious (r : Nat) (s : State) : Res State Unit :=
  match s.block.lens[s.block.li.toNat - 1]? with
  | some v => s.runFill v r
  | none => .fault .lensRange

/-- CL_REP (42_deflate_block R165): with no previous entry InvalidHuffmanTable, before its extra bits are read. -/
def execClRep (s : State) : Host.Outcome State Fault Refusal :=
  (if s.block.li = 0 then .raise .invalidHuffmanTable s
    else (s.readExtra 3 2).bind fun r s1 => s1.repeatPrevious r).settle s

/-- CL_Z3 (42_deflate_block R166). -/
def execClZ3 (s : State) : Host.Outcome State Fault Refusal :=
  ((s.readExtra 3 3).bind fun r s1 => s1.runFill 0 r).settle s

/-- CL_Z11 (42_deflate_block R167). -/
def execClZ11 (s : State) : Host.Outcome State Fault Refusal :=
  ((s.readExtra 11 7).bind fun r s1 => s1.runFill 0 r).settle s

end Sys2Proof.Machine
end

