-- ==== Sys2Proof/Machine/Distances.lean ====
section
/-! DEFINITION. The meanings of the distance symbols 0 to 31 (42_deflate_block R175, R182, R183, R185; 44_match_code_tables
R330 to R359; log 18): one shared operation with the symbol's base and count of extra bits. -/

namespace Sys2Proof.Machine

/-- The distance check and the start of the copy (42_deflate_block R175, R183). -/
def State.startMatchCopy (s : State) : Res State Unit :=
  if s.window.histValid < s.block.mdist then .raise .invalidBackReference s
  else .ok () ({ s with block := { s.block with mrem := s.block.mlen } }.goto .matchCopy)

/-- The distance half of MATCH (42_deflate_block R175, R182): mdist <- base + extra bits, the check, the copy. -/
def State.matchDistance (base e : Nat) (s : State) : Res State Unit :=
  (s.readExtra base e).bind fun dist s1 =>
    State.startMatchCopy { s1 with block := { s1.block with mdist := BitVec.ofNat 16 dist } }

/-- DIST0 (44_match_code_tables R330). -/
def execDist0 (s : State) : Host.Outcome State Fault Refusal := (s.matchDistance 1 0).settle s

/-- DIST1 (44_match_code_tables R331). -/
def execDist1 (s : State) : Host.Outcome State Fault Refusal := (s.matchDistance 2 0).settle s

/-- DIST2 (44_match_code_tables R332). -/
def execDist2 (s : State) : Host.Outcome State Fault Refusal := (s.matchDistance 3 0).settle s

/-- DIST3 (44_match_code_tables R333). -/
def execDist3 (s : State) : Host.Outcome State Fault Refusal := (s.matchDistance 4 0).settle s

/-- DIST4 (44_match_code_tables R334). -/
def execDist4 (s : State) : Host.Outcome State Fault Refusal := (s.matchDistance 5 1).settle s

/-- DIST5 (44_match_code_tables R335). -/
def execDist5 (s : State) : Host.Outcome State Fault Refusal := (s.matchDistance 7 1).settle s

/-- DIST6 (44_match_code_tables R336). -/
def execDist6 (s : State) : Host.Outcome State Fault Refusal := (s.matchDistance 9 2).settle s

/-- DIST7 (44_match_code_tables R337). -/
def execDist7 (s : State) : Host.Outcome State Fault Refusal := (s.matchDistance 13 2).settle s

/-- DIST8 (44_match_code_tables R338). -/
def execDist8 (s : State) : Host.Outcome State Fault Refusal := (s.matchDistance 17 3).settle s

/-- DIST9 (44_match_code_tables R339). -/
def execDist9 (s : State) : Host.Outcome State Fault Refusal := (s.matchDistance 25 3).settle s

/-- DIST10 (44_match_code_tables R340). -/
def execDist10 (s : State) : Host.Outcome State Fault Refusal := (s.matchDistance 33 4).settle s

/-- DIST11 (44_match_code_tables R341). -/
def execDist11 (s : State) : Host.Outcome State Fault Refusal := (s.matchDistance 49 4).settle s

/-- DIST12 (44_match_code_tables R342). -/
def execDist12 (s : State) : Host.Outcome State Fault Refusal := (s.matchDistance 65 5).settle s

/-- DIST13 (44_match_code_tables R343). -/
def execDist13 (s : State) : Host.Outcome State Fault Refusal := (s.matchDistance 97 5).settle s

/-- DIST14 (44_match_code_tables R344). -/
def execDist14 (s : State) : Host.Outcome State Fault Refusal := (s.matchDistance 129 6).settle s

/-- DIST15 (44_match_code_tables R345). -/
def execDist15 (s : State) : Host.Outcome State Fault Refusal := (s.matchDistance 193 6).settle s

/-- DIST16 (44_match_code_tables R346). -/
def execDist16 (s : State) : Host.Outcome State Fault Refusal := (s.matchDistance 257 7).settle s

/-- DIST17 (44_match_code_tables R347). -/
def execDist17 (s : State) : Host.Outcome State Fault Refusal := (s.matchDistance 385 7).settle s

/-- DIST18 (44_match_code_tables R348). -/
def execDist18 (s : State) : Host.Outcome State Fault Refusal := (s.matchDistance 513 8).settle s

/-- DIST19 (44_match_code_tables R349). -/
def execDist19 (s : State) : Host.Outcome State Fault Refusal := (s.matchDistance 769 8).settle s

/-- DIST20 (44_match_code_tables R350). -/
def execDist20 (s : State) : Host.Outcome State Fault Refusal := (s.matchDistance 1025 9).settle s

/-- DIST21 (44_match_code_tables R351). -/
def execDist21 (s : State) : Host.Outcome State Fault Refusal := (s.matchDistance 1537 9).settle s

/-- DIST22 (44_match_code_tables R352). -/
def execDist22 (s : State) : Host.Outcome State Fault Refusal := (s.matchDistance 2049 10).settle s

/-- DIST23 (44_match_code_tables R353). -/
def execDist23 (s : State) : Host.Outcome State Fault Refusal := (s.matchDistance 3073 10).settle s

/-- DIST24 (44_match_code_tables R354). -/
def execDist24 (s : State) : Host.Outcome State Fault Refusal := (s.matchDistance 4097 11).settle s

/-- DIST25 (44_match_code_tables R355). -/
def execDist25 (s : State) : Host.Outcome State Fault Refusal := (s.matchDistance 6145 11).settle s

/-- DIST26 (44_match_code_tables R356). -/
def execDist26 (s : State) : Host.Outcome State Fault Refusal := (s.matchDistance 8193 12).settle s

/-- DIST27 (44_match_code_tables R357). -/
def execDist27 (s : State) : Host.Outcome State Fault Refusal := (s.matchDistance 12289 12).settle s

/-- DIST28 (44_match_code_tables R358). -/
def execDist28 (s : State) : Host.Outcome State Fault Refusal := (s.matchDistance 16385 13).settle s

/-- DIST29 (44_match_code_tables R359). -/
def execDist29 (s : State) : Host.Outcome State Fault Refusal := (s.matchDistance 24577 13).settle s

/-- D_RESERVED (42_deflate_block R185): InvalidSymbol, whichever of 30 and 31 it is. -/
def execDReserved (_odd : Bool) (s : State) : Host.Outcome State Fault Refusal := .next (s.raise .invalidSymbol)

end Sys2Proof.Machine
end

