-- ==== Sys2Proof/Machine/Headers.lean ====
section
/-! DEFINITION. The meanings of the signature, the four block types, the stored header and the dynamic header
(43_mszip_frame R200, R202; 42_deflate_block R150 to R162, R170). -/

namespace Sys2Proof.Machine

/-- SIG: the two bytes are the signature, so FRAME_START (43_mszip_frame R200, R202). The two reads are the fetch's. -/
def execSig (s : State) : Host.Outcome State Fault Refusal :=
  .next ({ s with window := { s.window with frameOut := 0 } }.goto .blkHdr)

/-- The header latches (42_deflate_block R150). -/
def State.latchHeader (bfinal : Bool) (btype : BitVec 2) (s : State) : State :=
  { s with block := { s.block with bfinal := bfinal, btype := btype } }

/-- BTYPE_STORED (42_deflate_block R150, R151): to STORED_HDR (R154). -/
def execBtypeStored (bfinal : Bool) (s : State) : Host.Outcome State Fault Refusal :=
  .next ((s.latchHeader bfinal 0).goto .storedHdr)

/-- BTYPE_FIXED (42_deflate_block R150, R151, R170): build both fixed tables, to PAYLOAD. -/
def execBtypeFixed (bfinal : Bool) (s : State) : Host.Outcome State Fault Refusal :=
  ((s.latchHeader bfinal 1).buildPayloadTables fixedLlLens fixedDLens).settle s

/-- BTYPE_DYNAMIC (42_deflate_block R150, R151): to DYN_HDR (R160). -/
def execBtypeDynamic (bfinal : Bool) (s : State) : Host.Outcome State Fault Refusal :=
  .next ((s.latchHeader bfinal 2).goto .dynHdr)

/-- BTYPE_RESERVED (42_deflate_block R150, R152): InvalidBlockType. -/
def execBtypeReserved (bfinal : Bool) (s : State) : Host.Outcome State Fault Refusal :=
  .next ((s.latchHeader bfinal 3).raise .invalidBlockType)

/-- slen <- two raw bytes (42_deflate_block R156). -/
def State.readSlen (s : State) : Res State Unit :=
  (s.withReader s.reader.readRawHalf).bind fun len s1 => .ok () { s1 with block := { s1.block with slen := len } }

/-- snlen <- two raw bytes (42_deflate_block R156). -/
def State.readSnlen (s : State) : Res State Unit :=
  (s.withReader s.reader.readRawHalf).bind fun nlen s1 => .ok () { s1 with block := { s1.block with snlen := nlen } }

/-- The checks after the stored header, and the start of the copy (42_deflate_block R154, R157, R158). -/
def State.startStoredCopy (s : State) : Res State Unit :=
  if s.block.slen = 0 ∧ s.block.snlen = 0 then .raise .degenerateStoredBlock s
  else
    .ok ()
      { s with
        block := { s.block with srem := s.block.slen }
        seq := { s.seq.checkNlen s.block.slen s.block.snlen with phase := .storedCopy } }

/-- STORED_HDR (42_deflate_block R154 to R158): align, LEN, NLEN, the checks. The copy is R159's, one byte a step. -/
def execStoredHdr (s : State) : Host.Outcome State Fault Refusal :=
  ((s.withReader (.ok () s.reader.alignToByte)).bind fun _ s1 =>
    s1.readSlen.bind fun _ s2 => s2.readSnlen.bind fun _ s3 => s3.startStoredCopy).settle s

/-- The three counts with their biases (42_deflate_block R160, 30_encoding R85). -/
def State.readCounts (s : State) : Res State Unit :=
  (s.readExtra 257 5).bind fun hlit s1 =>
    ({ s1 with block := { s1.block with hlit := BitVec.ofNat 9 hlit } }.readExtra 1 5).bind fun hdist s2 =>
      ({ s2 with block := { s2.block with hdist := BitVec.ofNat 6 hdist } }.readExtra 4 4).bind fun hclen s3 =>
        .ok () { s3 with block := { s3.block with hclen := BitVec.ofNat 5 hclen } }

/-- The code-length code lengths, all 0 first (42_deflate_block R161). -/
def State.readClArray (s : State) : Res State Unit :=
  State.readClLens (clOrder.take s.block.hclen.toNat)
    { s with block := { s.block with clLens := Vector.replicate 19 0 } }

/-- T_CL <- Build(cl_lens), then DYN_LENS with li = 0 (42_deflate_block R162, R163). -/
def State.startDynLens (s : State) : Res State Unit :=
  (s.buildInto .cl s.block.clArray).bind fun _ s1 =>
    .ok () ({ s1 with block := { s1.block with li := 0 } }.goto .dynLens)

/-- DYN_HDR (42_deflate_block R160 to R162). -/
def execDynHdr (s : State) : Host.Outcome State Fault Refusal :=
  (s.readCounts.bind fun _ s1 => s1.readClArray.bind fun _ s2 => s2.startDynLens).settle s

end Sys2Proof.Machine
end

