-- ==== Sys2Proof/Machine/Lengths.lean ====
section
/-! DEFINITION. The meanings of the length symbols 257 to 285 (42_deflate_block R175, R180; 44_match_code_tables R300 to R328;
log 18): one shared operation with the symbol's base and count of extra bits. -/

namespace Sys2Proof.Machine

/-- The length half of MATCH (42_deflate_block R175, R180): mlen <- base + extra bits; the distance symbol comes next. -/
def State.matchLength (base e : Nat) (s : State) : Res State Unit :=
  (s.readExtra base e).bind fun len s1 =>
    .ok () ({ s1 with block := { s1.block with mlen := BitVec.ofNat 9 len } }.goto .matchDist)

/-- LEN257 (44_match_code_tables R300). -/
def execLen257 (s : State) : Host.Outcome State Fault Refusal := (s.matchLength 3 0).settle s

/-- LEN258 (44_match_code_tables R301). -/
def execLen258 (s : State) : Host.Outcome State Fault Refusal := (s.matchLength 4 0).settle s

/-- LEN259 (44_match_code_tables R302). -/
def execLen259 (s : State) : Host.Outcome State Fault Refusal := (s.matchLength 5 0).settle s

/-- LEN260 (44_match_code_tables R303). -/
def execLen260 (s : State) : Host.Outcome State Fault Refusal := (s.matchLength 6 0).settle s

/-- LEN261 (44_match_code_tables R304). -/
def execLen261 (s : State) : Host.Outcome State Fault Refusal := (s.matchLength 7 0).settle s

/-- LEN262 (44_match_code_tables R305). -/
def execLen262 (s : State) : Host.Outcome State Fault Refusal := (s.matchLength 8 0).settle s

/-- LEN263 (44_match_code_tables R306). -/
def execLen263 (s : State) : Host.Outcome State Fault Refusal := (s.matchLength 9 0).settle s

/-- LEN264 (44_match_code_tables R307). -/
def execLen264 (s : State) : Host.Outcome State Fault Refusal := (s.matchLength 10 0).settle s

/-- LEN265 (44_match_code_tables R308). -/
def execLen265 (s : State) : Host.Outcome State Fault Refusal := (s.matchLength 11 1).settle s

/-- LEN266 (44_match_code_tables R309). -/
def execLen266 (s : State) : Host.Outcome State Fault Refusal := (s.matchLength 13 1).settle s

/-- LEN267 (44_match_code_tables R310). -/
def execLen267 (s : State) : Host.Outcome State Fault Refusal := (s.matchLength 15 1).settle s

/-- LEN268 (44_match_code_tables R311). -/
def execLen268 (s : State) : Host.Outcome State Fault Refusal := (s.matchLength 17 1).settle s

/-- LEN269 (44_match_code_tables R312). -/
def execLen269 (s : State) : Host.Outcome State Fault Refusal := (s.matchLength 19 2).settle s

/-- LEN270 (44_match_code_tables R313). -/
def execLen270 (s : State) : Host.Outcome State Fault Refusal := (s.matchLength 23 2).settle s

/-- LEN271 (44_match_code_tables R314). -/
def execLen271 (s : State) : Host.Outcome State Fault Refusal := (s.matchLength 27 2).settle s

/-- LEN272 (44_match_code_tables R315). -/
def execLen272 (s : State) : Host.Outcome State Fault Refusal := (s.matchLength 31 2).settle s

/-- LEN273 (44_match_code_tables R316). -/
def execLen273 (s : State) : Host.Outcome State Fault Refusal := (s.matchLength 35 3).settle s

/-- LEN274 (44_match_code_tables R317). -/
def execLen274 (s : State) : Host.Outcome State Fault Refusal := (s.matchLength 43 3).settle s

/-- LEN275 (44_match_code_tables R318). -/
def execLen275 (s : State) : Host.Outcome State Fault Refusal := (s.matchLength 51 3).settle s

/-- LEN276 (44_match_code_tables R319). -/
def execLen276 (s : State) : Host.Outcome State Fault Refusal := (s.matchLength 59 3).settle s

/-- LEN277 (44_match_code_tables R320). -/
def execLen277 (s : State) : Host.Outcome State Fault Refusal := (s.matchLength 67 4).settle s

/-- LEN278 (44_match_code_tables R321). -/
def execLen278 (s : State) : Host.Outcome State Fault Refusal := (s.matchLength 83 4).settle s

/-- LEN279 (44_match_code_tables R322). -/
def execLen279 (s : State) : Host.Outcome State Fault Refusal := (s.matchLength 99 4).settle s

/-- LEN280 (44_match_code_tables R323). -/
def execLen280 (s : State) : Host.Outcome State Fault Refusal := (s.matchLength 115 4).settle s

/-- LEN281 (44_match_code_tables R324). -/
def execLen281 (s : State) : Host.Outcome State Fault Refusal := (s.matchLength 131 5).settle s

/-- LEN282 (44_match_code_tables R325). -/
def execLen282 (s : State) : Host.Outcome State Fault Refusal := (s.matchLength 163 5).settle s

/-- LEN283 (44_match_code_tables R326). -/
def execLen283 (s : State) : Host.Outcome State Fault Refusal := (s.matchLength 195 5).settle s

/-- LEN284 (44_match_code_tables R327). -/
def execLen284 (s : State) : Host.Outcome State Fault Refusal := (s.matchLength 227 5).settle s

/-- LEN285 (44_match_code_tables R328). -/
def execLen285 (s : State) : Host.Outcome State Fault Refusal := (s.matchLength 258 0).settle s

end Sys2Proof.Machine
end

