-- ==== Sys2Proof/Machine/Literals.lean ====
section
/-! DEFINITION. The meanings of the literal, the end-of-block symbol and the reserved literal/length symbols
(42_deflate_block R172 to R174). -/

namespace Sys2Proof.Machine

/-- LIT (42_deflate_block R172). -/
def execLit (b : Byte) (s : State) : Host.Outcome State Fault Refusal := .next (s.emit b)

/-- EOB (42_deflate_block R173). -/
def execEob (s : State) : Host.Outcome State Fault Refusal := .next s.endOfBlock

/-- LL_RESERVED (42_deflate_block R174): InvalidSymbol, whichever of 286 and 287 it is. -/
def execLlReserved (_odd : Bool) (s : State) : Host.Outcome State Fault Refusal := .next (s.raise .invalidSymbol)

end Sys2Proof.Machine
end

