-- ==== Sys2Proof/Machine/Reader.lean ====
section
/-! DEFINITION. The meanings of the reader commands (40_bitreader R112 to R119, 30_encoding R95). A command completes with its
16-bit result or with the error it raised (60_exceptions R227). -/

namespace Sys2Proof.Machine

/-- One bit as a command's result (40_bitreader R112, R113). -/
def Reader.readBit (o : BitOrder) (r : Reader) : Res Reader Half :=
  (r.takeBit o).bind fun b r1 => .ok (bitValue b) r1

/-- READ_BIT_LSB (40_bitreader R112). -/
def execReadBitLsb (s : State) : Host.Outcome State Fault Refusal :=
  (s.withReader (s.reader.readBit .lsb)).settleCommand s

/-- READ_BIT_MSB (40_bitreader R113). -/
def execReadBitMsb (s : State) : Host.Outcome State Fault Refusal :=
  (s.withReader (s.reader.readBit .msb)).settleCommand s

/-- READ_BITS_LSB (40_bitreader R114, R119). -/
def execReadBitsLsb (n : BitVec 5) (s : State) : Host.Outcome State Fault Refusal :=
  (s.withReader (s.reader.readBitsLsb n.toNat)).settleCommand s

/-- READ_BITS_MSB (40_bitreader R115, R119). -/
def execReadBitsMsb (n : BitVec 5) (s : State) : Host.Outcome State Fault Refusal :=
  (s.withReader (s.reader.readBitsMsb n.toNat)).settleCommand s

/-- READ_RAW_BYTE (40_bitreader R116), the byte zero-extended (30_encoding R95). -/
def execReadRawByte (s : State) : Host.Outcome State Fault Refusal :=
  (s.withReader (s.reader.readRawByte.bind fun b r => .ok (b.setWidth 16) r)).settleCommand s

/-- ALIGN (40_bitreader R118); the result is 0 (30_encoding R95). -/
def execAlign (s : State) : Host.Outcome State Fault Refusal :=
  (s.withReader (.ok 0 s.reader.alignToByte)).settleCommand s

end Sys2Proof.Machine
end

