-- ==== Sys2Proof/Machine/Tables.lean ====
section
/-! DEFINITION. The meanings of the internal operations BUILD and DECODE (41_huffman R131, R136). -/

namespace Sys2Proof.Machine

/-- BUILD (41_huffman R131, R133). -/
def execBuildTable (t : TableSel) (lens : List (BitVec 4)) (s : State) : Host.Outcome State Fault Refusal :=
  (s.buildInto t lens).settle s

/-- DECODE (41_huffman R136, R137). -/
def execDecodeSymbol (t : TableSel) (s : State) : Host.Outcome State Fault Refusal := (s.decodeInto t).settle s

end Sys2Proof.Machine
end

