-- ==== Sys2Proof/WellFormed.lean ====
section
/-! DEFINITION. Which instructions are well formed: the bounds the spec puts on the operands an instruction carries. -/

namespace Sys2Proof

/-- The bounds of 41_huffman R130 on the code-length array a table is built from: 19 entries of at most 7 for T_CL,
257 to 288 entries for T_LL, 1 to 32 entries for T_D. -/
def lensFit : TableSel → List (BitVec 4) → Bool
  | .cl, lens => lens.length == 19 && lens.all (fun l => decide (l.toNat ≤ 7))
  | .ll, lens => decide (257 ≤ lens.length) && decide (lens.length ≤ 288)
  | .d, lens => decide (1 ≤ lens.length) && decide (lens.length ≤ 32)

/-- READ_BITS takes N up to 16 (30_encoding R95, R96); BUILD takes an array of its alphabet (R130). Every other operand
fits by its type. -/
def Instr.wellFormed : Instr → Bool
  | .readBitsLsb n => decide (n.toNat ≤ 16)
  | .readBitsMsb n => decide (n.toNat ≤ 16)
  | .buildTable t lens => lensFit t lens
  | .sig | .btypeStored _ | .btypeFixed _ | .btypeDynamic _ | .btypeReserved _ | .storedHdr | .dynHdr => true
  | .clLit _ | .clRep | .clZ3 | .clZ11 | .lit _ | .eob => true
  | .len257 | .len258 | .len259 | .len260 | .len261 | .len262 | .len263 | .len264 | .len265 | .len266
  | .len267 | .len268 | .len269 | .len270 | .len271 | .len272 | .len273 | .len274 | .len275 | .len276
  | .len277 | .len278 | .len279 | .len280 | .len281 | .len282 | .len283 | .len284 | .len285 => true
  | .llReserved _ => true
  | .dist0 | .dist1 | .dist2 | .dist3 | .dist4 | .dist5 | .dist6 | .dist7 | .dist8 | .dist9
  | .dist10 | .dist11 | .dist12 | .dist13 | .dist14 | .dist15 | .dist16 | .dist17 | .dist18 | .dist19
  | .dist20 | .dist21 | .dist22 | .dist23 | .dist24 | .dist25 | .dist26 | .dist27 | .dist28 | .dist29 => true
  | .dReserved _ | .readBitLsb | .readBitMsb | .readRawByte | .align | .decodeSymbol _ => true

end Sys2Proof
end

