-- ==== Sys2Proof/Decode.lean ====
section
/-! DEFINITION. The decoder of 30_encoding: from a format and the value of its bits to an instruction or a named rejection;
the encoder, written from the same tables; and the reading of a word numbered as spec/opcode_table.json numbers it. -/

namespace Sys2Proof

/-- Why a value is no token of its format. -/
inductive DecodeError where
  /-- R81: not the value 0x4B43. -/
  | notSignature
  /-- R82: a block header has three bits. -/
  | notThreeBits
  /-- R83, R84: the format carries no bits that select an instruction. -/
  | noOpcodeBits
  /-- R87: no code-length symbol above 18 exists. -/
  | noSuchClSymbol
  /-- R88: no literal/length symbol above 287 exists. -/
  | noSuchLlSymbol
  /-- R89: no distance symbol above 31 exists. -/
  | noSuchDSymbol
  /-- R96: a reserved reader command word (BadReaderCommand). -/
  | reservedReaderCommand
  /-- BUILD and DECODE have no stream encoding. -/
  | notInStream
  deriving DecidableEq, Repr

/-- The length tokens in symbol order, symbol 257 first (R88). -/
def lengthTokens : List Instr :=
  [.len257, .len258, .len259, .len260, .len261, .len262, .len263, .len264, .len265, .len266,
   .len267, .len268, .len269, .len270, .len271, .len272, .len273, .len274, .len275, .len276,
   .len277, .len278, .len279, .len280, .len281, .len282, .len283, .len284, .len285]

/-- The distance tokens in symbol order, symbol 0 first (R89). -/
def distanceTokens : List Instr :=
  [.dist0, .dist1, .dist2, .dist3, .dist4, .dist5, .dist6, .dist7, .dist8, .dist9,
   .dist10, .dist11, .dist12, .dist13, .dist14, .dist15, .dist16, .dist17, .dist18, .dist19,
   .dist20, .dist21, .dist22, .dist23, .dist24, .dist25, .dist26, .dist27, .dist28, .dist29]

/-- R82: bit 0 is BFINAL, bits 2:1 are BTYPE. -/
def decodeBlkHdr (h : Nat) : Except DecodeError Instr :=
  if 8 ≤ h then .error .notThreeBits
  else
    match h / 2 with
    | 0 => .ok (.btypeStored (h % 2 == 1))
    | 1 => .ok (.btypeFixed (h % 2 == 1))
    | 2 => .ok (.btypeDynamic (h % 2 == 1))
    | _ => .ok (.btypeReserved (h % 2 == 1))

/-- R87. -/
def decodeClSymbol (v : Nat) : Except DecodeError Instr :=
  if v < 16 then .ok (.clLit (BitVec.ofNat 4 v))
  else if v = 16 then .ok .clRep
  else if v = 17 then .ok .clZ3
  else if v = 18 then .ok .clZ11
  else .error .noSuchClSymbol

/-- R88. -/
def decodeLlSymbol (v : Nat) : Except DecodeError Instr :=
  if v < 256 then .ok (.lit (BitVec.ofNat 8 v))
  else if v = 256 then .ok .eob
  else
    match lengthTokens[v - 257]? with
    | some i => .ok i
    | none => if v < 288 then .ok (.llReserved (v == 287)) else .error .noSuchLlSymbol

/-- R89. -/
def decodeDSymbol (v : Nat) : Except DecodeError Instr :=
  match distanceTokens[v]? with
  | some i => .ok i
  | none => if v < 32 then .ok (.dReserved (v == 31)) else .error .noSuchDSymbol

/-- R95 and R96: OP in bits 15:12, ORD in bit 8, N in bits 4:0, every other bit 0. -/
def decodeReaderCmd (w : Nat) : Except DecodeError Instr :=
  let op := w / 4096
  let ord := w / 256 % 2
  let n := w % 32
  if w / 512 % 8 ≠ 0 ∨ w / 32 % 8 ≠ 0 then .error .reservedReaderCommand
  else if op = 0 ∧ n = 0 then .ok (if ord = 0 then .readBitLsb else .readBitMsb)
  else if op = 1 ∧ n ≤ 16 then
    .ok (if ord = 0 then .readBitsLsb (BitVec.ofNat 5 n) else .readBitsMsb (BitVec.ofNat 5 n))
  else if op = 2 ∧ ord = 0 ∧ n = 0 then .ok .readRawByte
  else if op = 3 ∧ ord = 0 ∧ n = 0 then .ok .align
  else .error .reservedReaderCommand

/-- The instruction a format's value stands for, or the reason it stands for none. Total on every value. -/
def decode : Format → Nat → Except DecodeError Instr
  | .sig, v => if v = 0x4B43 then .ok .sig else .error .notSignature
  | .blkHdr, v => decodeBlkHdr v
  | .stored, v => if v = 0 then .ok .storedHdr else .error .noOpcodeBits
  | .dynHdr, v => if v = 0 then .ok .dynHdr else .error .noOpcodeBits
  | .clSymbol, v => decodeClSymbol v
  | .llSymbol, v => decodeLlSymbol v
  | .dSymbol, v => decodeDSymbol v
  | .readerCmd, v => decodeReaderCmd v
  | .internal, _ => .error .notInStream

/-- The format and the bits of an instruction (30_encoding R81 to R89, R95); BUILD and DECODE have none. -/
def encode : Instr → Option (Format × Nat)
  | .sig => some (.sig, 0x4B43)
  | .btypeStored f => some (.blkHdr, 0b000 + f.toNat)
  | .btypeFixed f => some (.blkHdr, 0b010 + f.toNat)
  | .btypeDynamic f => some (.blkHdr, 0b100 + f.toNat)
  | .btypeReserved f => some (.blkHdr, 0b110 + f.toNat)
  | .storedHdr => some (.stored, 0)
  | .dynHdr => some (.dynHdr, 0)
  | .clLit v => some (.clSymbol, v.toNat)
  | .clRep => some (.clSymbol, 16)
  | .clZ3 => some (.clSymbol, 17)
  | .clZ11 => some (.clSymbol, 18)
  | .lit b => some (.llSymbol, b.toNat)
  | .eob => some (.llSymbol, 256)
  | .len257 => some (.llSymbol, 257)
  | .len258 => some (.llSymbol, 258)
  | .len259 => some (.llSymbol, 259)
  | .len260 => some (.llSymbol, 260)
  | .len261 => some (.llSymbol, 261)
  | .len262 => some (.llSymbol, 262)
  | .len263 => some (.llSymbol, 263)
  | .len264 => some (.llSymbol, 264)
  | .len265 => some (.llSymbol, 265)
  | .len266 => some (.llSymbol, 266)
  | .len267 => some (.llSymbol, 267)
  | .len268 => some (.llSymbol, 268)
  | .len269 => some (.llSymbol, 269)
  | .len270 => some (.llSymbol, 270)
  | .len271 => some (.llSymbol, 271)
  | .len272 => some (.llSymbol, 272)
  | .len273 => some (.llSymbol, 273)
  | .len274 => some (.llSymbol, 274)
  | .len275 => some (.llSymbol, 275)
  | .len276 => some (.llSymbol, 276)
  | .len277 => some (.llSymbol, 277)
  | .len278 => some (.llSymbol, 278)
  | .len279 => some (.llSymbol, 279)
  | .len280 => some (.llSymbol, 280)
  | .len281 => some (.llSymbol, 281)
  | .len282 => some (.llSymbol, 282)
  | .len283 => some (.llSymbol, 283)
  | .len284 => some (.llSymbol, 284)
  | .len285 => some (.llSymbol, 285)
  | .llReserved odd => some (.llSymbol, 286 + odd.toNat)
  | .dist0 => some (.dSymbol, 0)
  | .dist1 => some (.dSymbol, 1)
  | .dist2 => some (.dSymbol, 2)
  | .dist3 => some (.dSymbol, 3)
  | .dist4 => some (.dSymbol, 4)
  | .dist5 => some (.dSymbol, 5)
  | .dist6 => some (.dSymbol, 6)
  | .dist7 => some (.dSymbol, 7)
  | .dist8 => some (.dSymbol, 8)
  | .dist9 => some (.dSymbol, 9)
  | .dist10 => some (.dSymbol, 10)
  | .dist11 => some (.dSymbol, 11)
  | .dist12 => some (.dSymbol, 12)
  | .dist13 => some (.dSymbol, 13)
  | .dist14 => some (.dSymbol, 14)
  | .dist15 => some (.dSymbol, 15)
  | .dist16 => some (.dSymbol, 16)
  | .dist17 => some (.dSymbol, 17)
  | .dist18 => some (.dSymbol, 18)
  | .dist19 => some (.dSymbol, 19)
  | .dist20 => some (.dSymbol, 20)
  | .dist21 => some (.dSymbol, 21)
  | .dist22 => some (.dSymbol, 22)
  | .dist23 => some (.dSymbol, 23)
  | .dist24 => some (.dSymbol, 24)
  | .dist25 => some (.dSymbol, 25)
  | .dist26 => some (.dSymbol, 26)
  | .dist27 => some (.dSymbol, 27)
  | .dist28 => some (.dSymbol, 28)
  | .dist29 => some (.dSymbol, 29)
  | .dReserved odd => some (.dSymbol, 30 + odd.toNat)
  | .readBitLsb => some (.readerCmd, 0x0000)
  | .readBitMsb => some (.readerCmd, 0x0100)
  | .readBitsLsb n => some (.readerCmd, 0x1000 + n.toNat)
  | .readBitsMsb n => some (.readerCmd, 0x1100 + n.toNat)
  | .readRawByte => some (.readerCmd, 0x2000)
  | .align => some (.readerCmd, 0x3000)
  | .buildTable _ _ => none
  | .decodeSymbol _ => none

/-- The format a table word of `nbits` bits is read in. DESIGN CHOICE (log 15): the table numbers every format from bit 0 and
no bit names the format, so one value stands for several rows; the width decides first, and where it does not, the order
written here does. -/
def tableFormat (nbits w : Nat) : Format :=
  if nbits ≤ 3 then .blkHdr
  else if nbits ≤ 5 then .dSymbol
  else if nbits ≤ 8 then (if w < 8 ∧ w % 2 = 0 then .blkHdr else .dSymbol)
  else if nbits ≤ 9 then .llSymbol
  else if nbits ≤ 16 then
    (if w = 0x4B43 then .sig else if w = 0 then .readerCmd else if w < 288 then .llSymbol else .readerCmd)
  else if w % 32 = 16 ∨ w % 32 = 17 ∨ (w % 32 = 18 ∧ w / 256 % 2 = 0) then .clSymbol
  else .dSymbol

/-- The value of a table word: rows wider than 16 bits are symbol rows, whose symbol is the low five bits (log 15). -/
def tableValue (nbits w : Nat) : Nat := if 16 < nbits then w % 32 else w

/-- The instruction the decoder reads from a word numbered as spec/opcode_table.json numbers it. -/
def decodeTableWord (nbits w : Nat) : Option Instr :=
  match decode (tableFormat nbits w) (tableValue nbits w) with
  | .ok i => some i
  | .error _ => none

end Sys2Proof
end

