-- ==== Sys2Proof/Machine/Copies.lean ====
section
/-! DEFINITION. The steps of the engine that run no token: a byte of a stored copy (42_deflate_block R159), a byte of a match
copy (R184), and DYN_TABLES (R169). -/

namespace Sys2Proof.Machine

/-- STORED_COPY (42_deflate_block R154, R159): one raw byte read and emitted, or END_OF_BLOCK. -/
def State.storedCopyStep (s : State) : Res State Unit :=
  if s.block.srem = 0 then .ok () s.endOfBlock
  else
    (s.withReader s.reader.readRawByte).bind fun b s1 =>
      .ok () { s1.emit b with block := { s1.block with srem := s1.block.srem - 1 } }

/-- MATCH_COPY (42_deflate_block R175, R184): one history byte read and emitted, or back to the PAYLOAD loop. -/
def State.matchCopyStep (s : State) : Res State Unit :=
  if s.block.mrem = 0 then .ok () (s.goto .payload)
  else
    match s.window.histRead s.block.mdist with
    | .error f => .fault f
    | .ok b => .ok () { s.emit b with block := { s.block with mrem := s.block.mrem - 1 } }

/-- DYN_TABLES (42_deflate_block R169). -/
def State.dynTables (s : State) : Res State Unit := s.buildPayloadTables s.block.llArray s.block.dArray

end Sys2Proof.Machine
end

