-- ==== Sys2Proof/Machine/Fetch.lean ====
section
/-! DEFINITION. Fetching the engine's next token: the phase selects the format, the reads of that format are made, and the
decoder names the instruction (43_mszip_frame R207). -/

namespace Sys2Proof.Machine

/-- What the engine does next. -/
inductive Fetched where
  /-- Run an instruction on the state its fetch left. -/
  | run (i : Instr) (s : State)
  /-- A move with no instruction: a wait, an error met while fetching, a copied byte, a transient step. -/
  | move (o : Host.Outcome State Fault Refusal)

/-- The signature (43_mszip_frame R200): align, two bytes; what is no signature goes to SIG_MISMATCH (R201). -/
def State.fetchSignature (s : State) : Fetched :=
  match s.withReader s.reader.readSignature with
  | .ok none s1 => .move (.next s1.sigMismatch)
  | .ok (some v) s1 =>
    match decode .sig v.toNat with
    | .ok i => .run i s1
    | .error _ => .move (.next s1.sigMismatch)
  | .raise e s1 => .move (.next (s1.raise e))
  | .wait => .move (.next s.wait)
  | .fault f => .move (.fault f)

/-- The block header's bits (42_deflate_block R150): bfinal is latched before BTYPE is read. -/
def State.readHeader (s : State) : Res State Half :=
  (s.withReader (s.reader.readBitsLsb 1)).bind fun f s1 =>
    let s2 := { s1 with block := { s1.block with bfinal := f != 0 } }
    (s2.withReader (s2.reader.readBitsLsb 2)).bind fun t s3 => .ok (f ||| (t <<< 1)) s3

/-- The block header (42_deflate_block R150, R151). -/
def State.fetchHeader (s : State) : Fetched :=
  match s.readHeader with
  | .ok h s1 =>
    match decode .blkHdr h.toNat with
    | .ok i => .run i s1
    | .error _ => .move (.next (s1.raise .invalidBlockType))
  | .raise e s1 => .move (.next (s1.raise e))
  | .wait => .move (.next s.wait)
  | .fault f => .move (.fault f)

/-- The format of the symbols of a table (30_encoding R87 to R89). -/
def symbolFormat : TableSel → Format
  | .cl => .clSymbol
  | .ll => .llSymbol
  | .d => .dSymbol

/-- A symbol with no token: InvalidSymbol for the payload alphabets (42_deflate_block R171, R175); T_CL has no such symbol
(30_encoding R87), so there it is a model fault. -/
def State.strangeSymbol (t : TableSel) (s : State) : Host.Outcome State Fault Refusal :=
  match t with
  | .cl => .fault .noSuchClSymbol
  | .ll => .next (s.raise .invalidSymbol)
  | .d => .next (s.raise .invalidSymbol)

/-- One symbol decoded against a table register, and its token (42_deflate_block R163, R171, R181). -/
def State.fetchSymbol (t : TableSel) (s : State) : Fetched :=
  match s.decodeInto t with
  | .ok _ s1 =>
    match decode (symbolFormat t) s1.block.sym.toNat with
    | .ok i => .run i s1
    | .error _ => .move (s1.strangeSymbol t)
  | .raise e s1 => .move (.next (s1.raise e))
  | .wait => .move (.next s.wait)
  | .fault f => .move (.fault f)

/-- A pending reader command (30_encoding R95, R96): a reserved word completes with BadReaderCommand. -/
def State.fetchCommand (w : Half) (s : State) : Fetched :=
  match decode .readerCmd w.toNat with
  | .ok i => .run i s
  | .error _ => .move (.next (s.complete (.error .badReaderCommand)))

/-- The engine's own next move, by phase (43_mszip_frame R207). In IDLE, DONE and ERROR it does nothing (60_exceptions R226). -/
def State.fetchPhase (s : State) : Fetched :=
  match s.seq.phase with
  | .idle => .move (.next s)
  | .sig => s.fetchSignature
  | .blkHdr => s.fetchHeader
  | .storedHdr => .run .storedHdr s
  | .storedCopy => .move (s.storedCopyStep.settle s)
  | .dynHdr => .run .dynHdr s
  | .dynLens =>
    if s.block.li.toNat < s.block.lensTotal then s.fetchSymbol .cl else .move (s.dynTables.settle s)
  | .payload => s.fetchSymbol .ll
  | .matchDist => s.fetchSymbol .d
  | .matchCopy => .move (s.matchCopyStep.settle s)
  | .done => .move (.next s)
  | .error => .move (.next s)

/-- The next move: a pending reader command first (log 8), else the phase's. -/
def State.fetch (s : State) : Fetched :=
  match s.port.cmd with
  | some w => s.fetchCommand w
  | none => s.fetchPhase

end Sys2Proof.Machine
end

