-- ==== Sys2Proof/Machine/Engine.lean ====
section
/-! DEFINITION. The engine's step: fetch a token, run it, and undo both if a FetchByte inside them was not answered (log 4). -/

namespace Sys2Proof.Machine

/-- The engine about to try its step again, outside any FetchByte. -/
def State.awake (s : State) : State := { s with port := { s.port with waiting := false } }

/-- The outcome of a token begun at `s0`: if a FetchByte inside it waits, `s0` waits (20_memory R62). -/
def resume (s0 : State) (o : Host.Outcome State Fault Refusal) : Host.Outcome State Fault Refusal :=
  match o with
  | .next s => if s.port.waiting then .next s0.wait else .next s
  | .fault f => .fault f
  | .refused r => .refused r

/-- One step of the engine (43_mszip_frame R207). -/
def State.engineStep (s : State) : Host.Outcome State Fault Refusal :=
  match s.awake.fetch with
  | .run i s1 => resume s.awake (exec i s1)
  | .move o => o

end Sys2Proof.Machine
end

