-- ==== Sys2Proof/Machine/Registers.lean ====
section
/-! DEFINITION. The register block (10_state R21 to R32) and the host's accesses to it. An access carries its offset from
REG_BASE (log 5). -/

namespace Sys2Proof.Machine

/-- The CFG register (10_state R24). -/
def State.cfgWord (s : State) : Word := flagWord s.seq.cfgStrict

/-- The value of a register once BUSY = 0, and of the defined bits of any register at any time (10_state R21 to R31). Offsets
with no register, and CTRL, read 0. -/
def State.readReg (offset : Word) (s : State) : Word :=
  if offset = 0x04 then s.cfgWord
  else if offset = 0x08 then s.statusWord
  else if offset = 0x0C then s.errcodeWord
  else if offset = 0x10 then s.seq.frames
  else if offset = 0x14 then s.inPosWord
  else if offset = 0x18 then s.window.outTotal
  else if offset = 0x1C then s.window.frameOut
  else if offset = 0x20 then s.cursorWord
  else 0

/-- The bits of a register that a read while BUSY = 1 draws freely (10_state R32, 93 I1, I6; log 6): none of CTRL, CFG and
STATUS bits 2:0, no reserved bit. -/
def drawnBits (offset : Word) : Word :=
  if offset = 0x08 then 0xF08
  else if offset = 0x0C then 0xF
  else if offset = 0x10 ∨ offset = 0x14 ∨ offset = 0x18 ∨ offset = 0x1C then 0xFFFFFFFF
  else if offset = 0x20 then 0xFF0F
  else 0

/-- An access the register block allows: an aligned 32-bit word (10_state R21). -/
def wordAccess (offset : Word) (width : AccessWidth) : Bool := width == .word && offset.toNat % 4 == 0

/-- A register read (10_state R21, R32): its value goes to `rdata`; while BUSY = 1 the drawn bits are free. -/
def State.busRead (offset : Word) (width : AccessWidth) (s : State) : Host.Outcome State Fault Refusal :=
  if !wordAccess offset width then .refused .busAccess
  else if s.busy && drawnBits offset != 0 then
    .next
      { s with
        port := { s.port with
          rdata := (s.readReg offset &&& ~~~drawnBits offset) ||| (Config.busyRead s.port.draws &&& drawnBits offset)
          draws := s.port.draws + 1 } }
  else .next { s with port := { s.port with rdata := s.readReg offset } }

/-- A write of CTRL (10_state R23): SRST wins; START is ignored while BUSY. -/
def State.writeCtrl (v : Word) (s : State) : State :=
  if v.getLsbD 1 then s.resetCore
  else if v.getLsbD 0 && !s.busy then s.start
  else s

/-- A write of CFG (10_state R24): bit 0 only. -/
def State.writeCfg (v : Word) (s : State) : State :=
  { s with seq := { s.seq with cfgStrict := v.getLsbD 0 } }

/-- A register write (10_state R21, R23, R24): every other register and offset ignores it. -/
def State.writeReg (offset v : Word) (s : State) : State :=
  if offset = 0x00 then s.writeCtrl v
  else if offset = 0x04 then s.writeCfg v
  else s

/-- A register write by the host (10_state R21). -/
def State.busWrite (offset : Word) (width : AccessWidth) (v : Word) (s : State) : Host.Outcome State Fault Refusal :=
  if !wordAccess offset width then .refused .busAccess else .next (s.writeReg offset v)

end Sys2Proof.Machine
end

