-- ==== Sys2Proof/Machine/Turns.lean ====
section
/-! DEFINITION. The host's moves (60_exceptions R234, 70_reset_and_hazards R254) and the engine's, one at a time (log 3). -/

namespace Sys2Proof.Machine

/-- A reader that has no INPUT takes the one bound: right after reset, or in a sequence begun with nothing bound (R234: before
the first byte is requested). It has fetched nothing. A reader that has its INPUT keeps it until START (70 R252). DESIGN CHOICE
(log 17) for what a reader command reads with BUSY = 0: the INPUT the reader has, at IN_POS. -/
def Reader.takeBinding (bytes : List Byte) (r : Reader) : Reader :=
  if r.input.isSome then r else { r with input := some bytes, granted := 0 }

/-- The host's binding stands for the next START, and at once for a reader that has no INPUT (logs 4, 17). -/
def State.setBinding (bytes : List Byte) (s : State) : State :=
  { s with reader := s.reader.takeBinding bytes, port := { s.port with bound := some bytes } }

/-- The host binds INPUT (60_exceptions R234): refused while a sequence that has its INPUT runs (93 I10; log 14). -/
def State.bindInput (bytes : List Byte) (s : State) : Host.Outcome State Fault Refusal :=
  if s.busy && s.reader.input.isSome then .refused .inputRebind else .next (s.setBinding bytes)

/-- The host answers `n` more FetchBytes (60_exceptions R234; log 4). -/
def State.answerFetches (n : Nat) (s : State) : State :=
  { s with reader := { s.reader with granted := s.reader.granted + n } }

/-- The host issues a reader command (30_encoding R95; logs 8, 14). -/
def State.issueCommand (w : Half) (s : State) : Host.Outcome State Fault Refusal :=
  if s.port.cmd.isSome then .refused .commandPending
  else .next { s with port := { s.port with cmd := some w } }

/-- One move of the schedule. -/
def State.takeTurn (t : Turn) (s : State) : Host.Outcome State Fault Refusal :=
  match t with
  | .engine => s.engineStep
  | .bind bytes => s.bindInput bytes
  | .answer n => .next (s.answerFetches n)
  | .command w => s.issueCommand w
  | .write offset width v => s.busWrite offset width v
  | .read offset width => s.busRead offset width
  | .reset => .next s.resetCore

/-- The state with the first move of the schedule taken off. -/
def State.dropTurn (rest : List Turn) (s : State) : State := { s with port := { s.port with turns := rest } }

end Sys2Proof.Machine
end

