-- ==== Sys2Proof/Machine/Place.lean ====
section
/-! DEFINITION. Laying an instruction's bits where the engine fetches its next token: the phase, the table that codes the
symbol, and an INPUT that starts with its bits (log 16). -/

namespace Sys2Proof.Machine

/-- The `k` low bits of a field, bit 0 first: the order of 20_memory R69. -/
def fieldBits (v k : Nat) : List Bool := (List.range k).map fun j => v.testBit j

/-- The `k` bits of a code, most significant first: the order of 20_memory R70. -/
def codeBits (c k : Nat) : List Bool := (List.range k).map fun j => c.testBit (k - 1 - j)

/-- The value of at most eight bits, bit 0 first. -/
def bitsValue (bits : List Bool) : Nat := bits.foldr (fun b acc => b.toNat + 2 * acc) 0

/-- Bits in stream order packed into bytes, bit 0 of each byte first, the last byte filled up with zeros (20_memory R69). -/
def packBits (bits : List Bool) : List Byte :=
  (List.range ((bits.length + 7) / 8)).map fun i => BitVec.ofNat 8 (bitsValue ((bits.drop (8 * i)).take 8))

/-- The code bits of a symbol in the table of a code-length array. -/
def symbolBits (lens : List (BitVec 4)) (sym : Nat) : List Bool :=
  match (build lens).bind fun t => t.find? fun e => e.sym == sym with
  | some e => codeBits e.code e.len
  | none => []

/-- A code-length code in which symbol s is s in five bits; the spec fixes no code of its own for this alphabet (log 16). -/
def flatClLens : List (BitVec 4) := List.replicate 19 5

/-- The input port offers these bits and then zeros, every FetchByte answered, the carry empty, no host move before it. -/
def State.present (bits : List Bool) (s : State) : State :=
  let bytes := packBits bits ++ List.replicate 8 0
  { s with
    reader := { input := some bytes, granted := bytes.length + 1, pos := 0, curByte := 0, ccount := 0, corder := .lsb }
    port := { s.port with turns := [], cmd := none, waiting := false } }

/-- A reader command word issued, with zero bits to read. -/
def State.placeCommand (w : Nat) (s : State) : State :=
  let s1 := s.present []
  { s1 with port := { s1.port with cmd := some (BitVec.ofNat 16 w) } }

/-- A token's value laid out in its format. -/
def State.placeToken (f : Format) (v : Nat) (s : State) : State :=
  match f with
  | .sig => (s.present (fieldBits v 16)).goto .sig
  | .blkHdr => (s.present (fieldBits v 3)).goto .blkHdr
  | .stored => (s.present []).goto .storedHdr
  | .dynHdr => (s.present []).goto .dynHdr
  | .clSymbol =>
    { s.present (symbolBits flatClLens v) with
      block := { s.block with tCl := build flatClLens, hlit := 257, hdist := 1, li := 0 }
      seq := { s.seq with phase := .dynLens } }
  | .llSymbol =>
    { s.present (symbolBits fixedLlLens v) with
      block := { s.block with tLl := build fixedLlLens }
      seq := { s.seq with phase := .payload } }
  | .dSymbol =>
    { s.present (symbolBits fixedDLens v) with
      block := { s.block with tD := build fixedDLens }
      seq := { s.seq with phase := .matchDist } }
  | .readerCmd => s.placeCommand v
  | .internal => s

/-- The instruction laid out to run next; BUILD and DECODE have no place in the stream. -/
def State.placeInstr (i : Instr) (s : State) : State :=
  match encode i with
  | some (f, v) => s.placeToken f v
  | none => s

end Sys2Proof.Machine
end

