-- ==== Sys2Proof/Machine/Step.lean ====
section
/-! DEFINITION. One step of the machine: the first move of the schedule, or the engine's where the schedule is empty (log 3);
and a word of the opcode table laid where the next step fetches. -/

namespace Sys2Proof.Machine

/-- One step. -/
def step (s : State) : Host.Outcome State Fault Refusal :=
  match s.port.turns with
  | [] => s.engineStep
  | t :: rest => (s.dropTurn rest).takeTurn t

/-- `s` with the instruction of an opcode-table word laid out to run next; a word that decodes to none is laid out as a reader
command word (log 16). -/
def State.withFetchWord (s : State) (nbits w : Nat) : State :=
  match decodeTableWord nbits w with
  | some i => s.placeInstr i
  | none => s.placeCommand w

end Sys2Proof.Machine
end

