-- ==== Sys2Proof/Safety.lean ====
section
/-! DEFINITION. The terms the statements use: the bits ahead of the reader, a host that has answered, what a safe state is
(State.Inv), and the measure every step of an answered run lowers. -/

namespace Sys2Proof.Machine

/-! ## The bits ahead of the reader -/

/-- The bits of a byte in the order they are delivered (00_scope R17). -/
def byteBits (o : BitOrder) (b : Byte) : List Bool := (List.range 8).map fun j => bitOf o b (8 - j)

/-- The undelivered bits of the byte in the carry, next one first, when it is read on in its own order (10_state R33). -/
def Reader.carryBits (r : Reader) : List Bool :=
  (List.range r.ccount.toNat).map fun j => bitOf r.corder r.curByte (r.ccount.toNat - j)

/-- The bytes of INPUT not yet fetched. -/
def Reader.bytesAhead (r : Reader) : List Byte := (r.input.getD []).drop r.pos

/-- The undelivered bits of the stream, next one first, when it is read on in order `o`. -/
def Reader.bitsAhead (o : BitOrder) (r : Reader) : List Bool := r.carryBits ++ r.bytesAhead.flatMap (byteBits o)

/-- A bit read in order `o` does not meet a byte opened in the other order (40_bitreader R111). -/
abbrev Reader.orderFits (o : BitOrder) (r : Reader) : Prop := r.ccount = 0 ∨ r.corder = o

/-- INPUT is bound and the host has answered every FetchByte of it, end of input included (60_exceptions R234). -/
abbrev Reader.answered (r : Reader) : Prop := r.input.isSome = true ∧ (r.input.getD []).length < r.granted

/-- The bytes of INPUT not yet fetched whose FetchByte the host has answered (20_memory R62; 60_exceptions R234: at any pace). -/
def Reader.bytesOffered (r : Reader) : List Byte := ((r.input.getD []).take r.granted).drop r.pos

/-- The bits ahead that can be read with no further answer of the host, next one first. -/
def Reader.bitsOffered (o : BitOrder) (r : Reader) : List Bool := r.carryBits ++ r.bytesOffered.flatMap (byteBits o)

/-- `n` bits can be read in order `o`: the host has answered every FetchByte they need, whatever comes later. -/
abbrev Reader.readable (o : BitOrder) (n : Nat) (r : Reader) : Prop :=
  r.orderFits o ∧ n ≤ (r.bitsOffered o).length

/-- A read of `n` bits in order `o` reaches a FetchByte the host has not answered (20_memory R62). -/
abbrev Reader.waits (o : BitOrder) (n : Nat) (r : Reader) : Prop :=
  ¬ r.answered ∧ r.orderFits o ∧ (r.bitsOffered o).length < n

/-- The reader after `n` more bits were delivered in order `o`: out of the carry where it holds them, else with the bytes they
reach into opened, the last of which is left in the carry (10_state R33, R34; 40_bitreader R111). -/
def Reader.advance (o : BitOrder) (n : Nat) (r : Reader) : Reader :=
  if n ≤ r.ccount.toNat then { r with ccount := BitVec.ofNat 3 (r.ccount.toNat - n) }
  else
    let more := n - r.ccount.toNat
    let opened := (more + 7) / 8
    { r with
      pos := r.pos + opened
      curByte := (r.input.getD []).getD (r.pos + opened - 1) 0
      ccount := BitVec.ofNat 3 (8 * opened - more)
      corder := o }

/-- Fewer than `n` bits are ahead in order `o`, and the host answers that the input ends. -/
abbrev Reader.short (o : BitOrder) (n : Nat) (r : Reader) : Prop :=
  r.answered ∧ r.orderFits o ∧ r.pos ≤ (r.input.getD []).length ∧ (r.bitsAhead o).length < n

/-- The reader after every bit ahead in order `o` was delivered (40_bitreader R120). -/
def Reader.drained (o : BitOrder) (r : Reader) : Reader := r.advance o (r.bitsAhead o).length

/-- The value of bits whose first is bit 0 (40_bitreader R114). -/
def lsbValue (bits : List Bool) : Nat := bits.foldr (fun b acc => b.toNat + 2 * acc) 0

/-- The field of `n` bits ahead of the reader, first bit in bit 0 (20_memory R69). -/
def Reader.field (n : Nat) (r : Reader) : Nat := lsbValue ((r.bitsAhead .lsb).take n)

/-- The value of bits whose first is the most significant (40_bitreader R115). -/
def msbValue (bits : List Bool) : Nat := bits.foldl (fun acc b => 2 * acc + b.toNat) 0

/-! ## Canonical codes, said without the build loop -/

/-- The first code of a length (41_huffman R131, in closed form). -/
def firstCode (lens : List (BitVec 4)) : Nat → Nat
  | 0 => 0
  | len + 1 => 2 * (firstCode lens len + lengthCount lens len)

/-- The code of a symbol: the first code of its length and the number of earlier symbols of that length. -/
def canonicalCode (lens : List (BitVec 4)) (sym : Nat) : Nat :=
  firstCode lens (lens.getD sym 0).toNat + (lens.take sym).countP fun l => l == lens.getD sym 0

/-- The sum of 2^(15 - length) over the nonzero lengths; it exceeds 2^15 exactly when the Kraft sum exceeds 1 (R133). -/
def kraftSum (lens : List (BitVec 4)) : Nat := (lens.map fun l => if l = 0 then 0 else 2 ^ (15 - l.toNat)).sum

/-! ## Safe states -/

/-- The window is the tail of OUT (20_memory R64, R66; 10_state R29, R36). -/
def Window.Inv (w : Window) : Prop :=
  memoryWf w.hist = true ∧
  w.histValid.toNat = min w.out.length histSize ∧
  w.hwp = BitVec.ofNat 15 w.out.length ∧
  w.outTotal = BitVec.ofNat 32 w.out.length ∧
  ∀ d, 1 ≤ d → d ≤ w.histValid.toNat →
    memoryRead w.hist ((w.out.length - d) % histSize) = w.out[w.out.length - d]?

/-- A built table over an alphabet of `n` symbols: no empty code, no symbol outside the alphabet (41_huffman R131). -/
def tableFits (n : Nat) (t : Table) : Prop := ∀ e ∈ t, 1 ≤ e.len ∧ e.sym < n

/-- A table register holds a table over its alphabet (10_state R40). -/
def tablePresent (n : Nat) (t : Option Table) : Prop := ∃ x, t = some x ∧ tableFits n x

/-- What DYN_LENS needs (42_deflate_block R160 to R163). -/
def Block.lensInv (b : Block) : Prop :=
  tablePresent 19 b.tCl ∧ 257 ≤ b.hlit.toNat ∧ b.hlit.toNat ≤ 288 ∧ 1 ≤ b.hdist.toNat ∧ b.hdist.toNat ≤ 32 ∧
    b.li.toNat ≤ b.lensTotal

/-- What PAYLOAD needs (42_deflate_block R171). -/
def Block.payloadInv (b : Block) : Prop := tablePresent 288 b.tLl ∧ tablePresent 32 b.tD

/-- A match length (10_state R37). -/
def Block.lengthInv (b : Block) : Prop := 3 ≤ b.mlen.toNat ∧ b.mlen.toNat ≤ 258

/-- What the block decoder's registers hold in a phase. -/
def Block.phaseInv (histValid : Nat) (p : Phase) (b : Block) : Prop :=
  match p with
  | .dynLens => b.lensInv
  | .payload => b.payloadInv
  | .matchDist => b.payloadInv ∧ b.lengthInv
  | .matchCopy =>
    b.payloadInv ∧ b.lengthInv ∧ 1 ≤ b.mdist.toNat ∧ b.mdist.toNat ≤ histValid ∧ b.mrem.toNat ≤ b.mlen.toNat
  | _ => True

/-- The invariant of the machine: the window is the tail of OUT, ERRCODE is nonzero exactly in ERROR, the reader has fetched no
more bytes than INPUT has (none without an INPUT), and the registers a phase reads hold what the rule that entered the phase wrote. -/
def State.Inv (s : State) : Prop :=
  s.window.Inv ∧ (s.seq.err.isSome = true ↔ s.seq.phase = .error) ∧
    s.reader.pos ≤ (s.reader.input.getD []).length ∧
    s.block.phaseInv s.window.histValid.toNat s.seq.phase

/-! ## Runs -/

/-- Only the engine is to move, and its own step, not a reader command (log 3). -/
abbrev State.engineAlone (s : State) : Prop := s.port.turns = [] ∧ s.port.cmd = none

/-- The bits not yet delivered. -/
def Reader.bitsLeft (r : Reader) : Nat := 8 * ((r.input.getD []).length - r.pos) + r.ccount.toNat

/-- The steps a phase can still take with no bit delivered. -/
def State.phaseWork (s : State) : Nat :=
  match s.seq.phase with
  | .idle => 0
  | .done => 0
  | .error => 0
  | .storedCopy => 2
  | .dynLens => 2
  | .matchCopy => s.block.mrem.toNat + 2
  | _ => 1

/-- The measure of 70_reset_and_hazards R257: 1024 for each bit left, and the phase's own. -/
def State.work (s : State) : Nat := 1024 * s.reader.bitsLeft + s.phaseWork

end Sys2Proof.Machine
end

