-- ==== Sys2Proof/Certificates/Slice0/Obligations.lean ====
section
/-! DEFINITION. The statements about MSZIP-CORE, in the order of spec/: encoding, reader, Huffman tables, frames and blocks,
code lengths, payload, registers, reset and START, and the rules of the whole machine. -/

namespace Sys2Proof.Claims

open Sys2Proof.Machine

/-! ## Terms of the statements -/

/-- The state with a reader command completed and the reader it left; nothing else changes (30_encoding R95, log 8). -/
def finish (s : State) (r : Reader) (c : Completion) : State :=
  { s with reader := r, port := { s.port with cmd := none, result := some c } }

/-- The state after error entry with the reader the raise left; nothing else changes (60_exceptions R222). -/
def failAt (s : State) (r : Reader) (e : ErrKind) : State :=
  { s with reader := r, seq := { s.seq with err := some e, phase := .error } }

/-- The state waiting in a FetchByte: the model's mark, and nothing else (20_memory R62, log 4). -/
def parked (s : State) : State := { s with port := { s.port with waiting := true } }

/-- The FetchByte next in order is one the host has not answered (20_memory R62, log 4). -/
def unanswered (r : Reader) : Prop := r.input = none ∨ r.granted ≤ r.pos

/-- A bit as a command's 16-bit result (30_encoding R95). -/
def bitResult (b : Bool) : Half := if b then 1 else 0

/-- The 29 length tokens with CopyLengths and LengthExtraBits (44_match_code_tables, section 1). -/
def lengthRows : List (Instr × Nat × Nat) :=
  [(.len257, 3, 0), (.len258, 4, 0), (.len259, 5, 0), (.len260, 6, 0), (.len261, 7, 0), (.len262, 8, 0),
   (.len263, 9, 0), (.len264, 10, 0), (.len265, 11, 1), (.len266, 13, 1), (.len267, 15, 1), (.len268, 17, 1),
   (.len269, 19, 2), (.len270, 23, 2), (.len271, 27, 2), (.len272, 31, 2), (.len273, 35, 3), (.len274, 43, 3),
   (.len275, 51, 3), (.len276, 59, 3), (.len277, 67, 4), (.len278, 83, 4), (.len279, 99, 4), (.len280, 115, 4),
   (.len281, 131, 5), (.len282, 163, 5), (.len283, 195, 5), (.len284, 227, 5), (.len285, 258, 0)]

/-- The 30 distance tokens with CopyOffsets and DistanceExtraBits (44_match_code_tables, section 1). -/
def distanceRows : List (Instr × Nat × Nat) :=
  [(.dist0, 1, 0), (.dist1, 2, 0), (.dist2, 3, 0), (.dist3, 4, 0), (.dist4, 5, 1), (.dist5, 7, 1),
   (.dist6, 9, 2), (.dist7, 13, 2), (.dist8, 17, 3), (.dist9, 25, 3), (.dist10, 33, 4), (.dist11, 49, 4),
   (.dist12, 65, 5), (.dist13, 97, 5), (.dist14, 129, 6), (.dist15, 193, 6), (.dist16, 257, 7), (.dist17, 385, 7),
   (.dist18, 513, 8), (.dist19, 769, 8), (.dist20, 1025, 9), (.dist21, 1537, 9), (.dist22, 2049, 10),
   (.dist23, 3073, 10), (.dist24, 4097, 11), (.dist25, 6145, 11), (.dist26, 8193, 12), (.dist27, 12289, 12),
   (.dist28, 16385, 13), (.dist29, 24577, 13)]

/-- The three run tokens: the base of the count and the number of extra bits (30_encoding R87). -/
def runRows : List (Instr × Nat × Nat) := [(.clRep, 3, 2), (.clZ3, 3, 3), (.clZ11, 11, 7)]

/-- The length a run token repeats: the entry before li for CL_REP, 0 for the others (42_deflate_block R165 to R167). -/
def runValue (i : Instr) (b : Block) : BitVec 4 :=
  if i = .clRep then b.lens.toList.getD (b.li.toNat - 1) 0 else 0

/-- lens with `r` entries from `at0` on set to `v`. -/
def filled (lens : Vector (BitVec 4) 320) (at0 r : Nat) (v : BitVec 4) : Vector (BitVec 4) 320 :=
  Vector.ofFn fun j => if at0 ≤ j.val ∧ j.val < at0 + r then v else lens[j]

/-- ORDER (30_encoding R86). -/
def order : List Nat := [16, 17, 18, 0, 8, 7, 9, 6, 10, 5, 11, 4, 12, 3, 13, 2, 14, 1, 15]

/-- cl_lens from the bits of a dynamic header with `n` fields: field k is the length of symbol ORDER[k] (R84, R86). -/
def clFields (bits : List Bool) (n : Nat) : Vector (BitVec 3) 19 :=
  Vector.ofFn fun i =>
    let k := order.idxOf i.val
    if k < n then BitVec.ofNat 3 (lsbValue ((bits.drop (14 + 3 * k)).take 3)) else 0

/-- The literal/length table every fixed block builds, by its codes (30_encoding R91). -/
def fixedLlTable : Table :=
  (List.range 288).map fun s =>
    if s < 144 then { code := 0x30 + s, len := 8, sym := s }
    else if s < 256 then { code := 0x190 + (s - 144), len := 9, sym := s }
    else if s < 280 then { code := s - 256, len := 7, sym := s }
    else { code := 0xC0 + (s - 280), len := 8, sym := s }

/-- The distance table every fixed block builds, by its codes (30_encoding R92). -/
def fixedDTable : Table := (List.range 32).map fun s => { code := s, len := 5, sym := s }

/-- The table of a code-length array, by its codes in closed form (41_huffman R131). -/
def canonicalTable (lens : List (BitVec 4)) : Table :=
  (List.range lens.length).filterMap fun s =>
    if lens.getD s 0 = 0 then none
    else some { code := canonicalCode lens s, len := (lens.getD s 0).toNat, sym := s }

/-- The bits `c` are a node inside the trie: no code, and the start of a longer code (41_huffman R136). -/
def innerNode (t : Table) (c : List Bool) : Prop :=
  (∀ e ∈ t, ¬ (e.len = c.length ∧ e.code = msbValue c)) ∧
    ∃ e ∈ t, c.length < e.len ∧ e.code >>> (e.len - c.length) = msbValue c

/-- The bits `c` are outside the trie: no code and the start of none (41_huffman R136). -/
def emptyBranch (t : Table) (c : List Bool) : Prop :=
  ∀ e ∈ t, ¬ (c.length ≤ e.len ∧ e.code >>> (e.len - c.length) = msbValue c)

/-- The symbol decode against a table register starts with a bit, and the carry has none (41_huffman R136). -/
def symbolNeedsByte (t : Option Table) (r : Reader) : Prop := r.ccount = 0 ∧ ∃ x, t = some x ∧ innerNode x []

/-- The next step of the engine needs a FetchByte before anything else: a pending command's, or the phase's own. -/
def needsByte (s : State) : Prop :=
  match s.port.cmd with
  | some w =>
    s.reader.ccount = 0 ∧ (w = 0x0000 ∨ w = 0x0100 ∨ w = 0x2000 ∨
      ∃ n, 1 ≤ n ∧ n ≤ 16 ∧ (w.toNat = 0x1000 + n ∨ w.toNat = 0x1100 + n))
  | none =>
    match s.seq.phase with
    | .sig | .storedHdr => True
    | .blkHdr | .dynHdr => s.reader.ccount = 0
    | .storedCopy => s.reader.ccount = 0 ∧ s.block.srem ≠ 0
    | .dynLens => s.block.li.toNat < s.block.hlit.toNat + s.block.hdist.toNat ∧ symbolNeedsByte s.block.tCl s.reader
    | .payload => symbolNeedsByte s.block.tLl s.reader
    | .matchDist => symbolNeedsByte s.block.tD s.reader
    | .idle | .matchCopy | .done | .error => False

/-- The PHASE codes (10_state R22); matchDist shows as PAYLOAD (log 11). -/
def phaseCode : Phase → Nat
  | .idle => 0
  | .sig => 1
  | .blkHdr => 2
  | .storedHdr => 3
  | .storedCopy => 4
  | .dynHdr => 5
  | .dynLens => 6
  | .payload => 7
  | .matchDist => 7
  | .matchCopy => 8
  | .done => 9
  | .error => 10

/-- The ERRCODE values (60_exceptions R220). -/
def errorCode : Option ErrKind → Nat
  | none => 0
  | some .unexpectedEndOfInput => 1
  | some .invalidBlockType => 2
  | some .invalidHuffmanTable => 3
  | some .invalidBackReference => 4
  | some .signatureMismatch => 5
  | some .degenerateStoredBlock => 6
  | some .invalidSymbol => 7
  | some .bitOrderMix => 8
  | some .misalignedRawRead => 9
  | some .badReaderCommand => 10

/-- The 32-bit value of each register offset once BUSY = 0, bit by bit (10_state R21, R24 to R31). -/
def register (offset : Word) (s : State) : Word :=
  match offset.toNat with
  | 0x04 => BitVec.ofNat 32 s.seq.cfgStrict.toNat
  | 0x08 => BitVec.ofNat 32
      ((decide (s.seq.phase ∉ [Phase.idle, .done, .error])).toNat + 2 * (decide (s.seq.phase = .done)).toNat +
        4 * (decide (s.seq.phase = .error)).toNat + 8 * s.seq.nlenMismatch.toNat + 256 * phaseCode s.seq.phase)
  | 0x0C => BitVec.ofNat 32 (errorCode s.seq.err)
  | 0x10 => s.seq.frames
  | 0x14 => BitVec.ofNat 32 s.reader.pos
  | 0x18 => s.window.outTotal
  | 0x1C => s.window.frameOut
  | 0x20 => BitVec.ofNat 32
      (s.reader.ccount.toNat + 8 * (decide (s.reader.corder = .msb)).toNat + 256 * s.reader.curByte.toNat)
  | _ => 0

/-- The reader errors 8 to 10 have not arisen and cannot: the carry is LSB-first and empty in a stored copy (R220, R260). -/
def readerSound (s : State) : Prop :=
  s.reader.orderFits .lsb ∧ (s.seq.phase = .storedCopy → s.reader.ccount = 0) ∧
    s.seq.err ≠ some .bitOrderMix ∧ s.seq.err ≠ some .misalignedRawRead ∧ s.seq.err ≠ some .badReaderCommand

/-- Tables live in the block that built them (70_reset_and_hazards R261): none before, T_CL alone while lens is filled. -/
def tablesInBlock (s : State) : Prop :=
  match s.seq.phase with
  | .sig | .blkHdr | .storedHdr | .storedCopy | .dynHdr => s.block.tCl = none ∧ s.block.tLl = none ∧ s.block.tD = none
  | .dynLens => s.block.tLl = none ∧ s.block.tD = none
  | .idle | .payload | .matchDist | .matchCopy | .done | .error => True

/-- Bytes a match still owes: what is left of a copy, and half the longest match between its two symbols. -/
def owed (s : State) : Nat :=
  match s.seq.phase with
  | .matchDist => 129
  | .matchCopy => s.block.mrem.toNat
  | .idle | .sig | .blkHdr | .storedHdr | .storedCopy | .dynHdr | .dynLens | .payload | .done | .error => 0

/-- OUT is at most 129 bytes for each bit delivered (70_reset_and_hazards R257), what a match owes included. -/
def outputBounded (s : State) : Prop :=
  s.window.out.length + owed s + 129 * s.reader.ccount.toNat ≤ 129 * 8 * s.reader.pos

/-- Bytes emitted one after another (20_memory R64). -/
def emitAll (bytes : List Byte) (w : Window) : Window := bytes.foldl (fun x b => x.emit b) w

end Sys2Proof.Claims

open Sys2Proof Sys2Proof.Machine Sys2Proof.Claims

/-! ## Encoding (30_encoding) -/

/-- Every well-formed instruction but BUILD and DECODE, which have no stream encoding, has bits, and its bits decode to it with
every operand at every value. -/
def Obligations.EncodedWordDecodesBack : Prop :=
  ∀ i : Instr, i.wellFormed = true →
    (∀ f v, encode i = some (f, v) → decode f v = .ok i) ∧
    ((encode i).isSome = true ∨ (∃ t lens, i = .buildTable t lens) ∨ ∃ t, i = .decodeSymbol t)

/-- What decodes is a well-formed instruction, and the value decoded is the one its encoding gives: no value is read as an
instruction it does not encode. -/
def Obligations.DecodedWordEncodesBack : Prop :=
  ∀ (f : Format) (v : Nat) (i : Instr), decode f v = .ok i → i.wellFormed = true ∧ encode i = some (f, v)

/-- Words written out from the encodings R81, R82, R87, R88, R89 and R95, one or more of each format, decode to what they
stand for, and the neighbours outside the maps are refused by name. -/
def Obligations.SpecWordsDecode : Prop :=
  decode .sig 0x4B43 = .ok .sig ∧ decode .sig 0x434B = .error .notSignature ∧
  decode .blkHdr 0b011 = .ok (.btypeFixed true) ∧ decode .blkHdr 0b100 = .ok (.btypeDynamic false) ∧
  decode .clSymbol 15 = .ok (.clLit 15) ∧ decode .clSymbol 18 = .ok .clZ11 ∧ decode .clSymbol 19 = .error .noSuchClSymbol ∧
  decode .llSymbol 255 = .ok (.lit 255) ∧ decode .llSymbol 256 = .ok .eob ∧ decode .llSymbol 257 = .ok .len257 ∧
  decode .llSymbol 285 = .ok .len285 ∧ decode .llSymbol 286 = .ok (.llReserved false) ∧
  decode .llSymbol 288 = .error .noSuchLlSymbol ∧
  decode .dSymbol 29 = .ok .dist29 ∧ decode .dSymbol 31 = .ok (.dReserved true) ∧ decode .dSymbol 32 = .error .noSuchDSymbol ∧
  decode .readerCmd 0x0100 = .ok .readBitMsb ∧ decode .readerCmd 0x1110 = .ok (.readBitsMsb 16) ∧
  decode .readerCmd 0x2000 = .ok .readRawByte ∧ decode .readerCmd 0x3000 = .ok .align

/-- R119 with R96: READ_BITS with n > 16 completes with BadReaderCommand before any bit is taken; a command word decodes to no
instruction exactly where R96 lists it, and then, issued, it completes with BadReaderCommand and changes no state of the core
(how a command is issued and completes is the model's port, log 8). -/
def Obligations.ReservedReaderCommands : Prop :=
  (∀ (s : State) (n : BitVec 5), 16 < n.toNat →
    exec (.readBitsLsb n) s = .next (finish s s.reader (.error .badReaderCommand)) ∧
    exec (.readBitsMsb n) s = .next (finish s s.reader (.error .badReaderCommand))) ∧
  ∀ w : Half,
    let op := w.toNat / 4096
    let ord := w.toNat / 256 % 2
    let n := w.toNat % 32
    let listed := 4 ≤ op ∨ (op = 1 ∧ 17 ≤ n) ∨ (op ≠ 1 ∧ n ≠ 0) ∨ (ord = 1 ∧ (op = 2 ∨ op = 3)) ∨
      w.toNat / 512 % 8 ≠ 0 ∨ w.toNat / 32 % 8 ≠ 0
    (listed ↔ decode .readerCmd w.toNat = .error .reservedReaderCommand) ∧
    (listed → ∀ s : State, s.port.turns = [] → s.port.cmd = some w →
      step s = .next (finish s.awake s.reader (.error .badReaderCommand)))

/-! ## The reader (40_bitreader) -/

/-- R111 and R112: TakeBit(LSB) as the result of READ_BIT_LSB. With an empty carry the next byte is opened and its bit 0
delivered, or the input is exhausted; with k bits in the carry of an LSB-first byte its bit 8 - k is delivered; an MSB-first
byte is BitOrderMix and consumes nothing. A byte is read as soon as it is answered, whatever comes later. -/
def Obligations.ReadBitLsb : Prop :=
  ∀ s : State,
    (s.reader.ccount = 0 → s.reader.pos < s.reader.granted → ∀ b, (s.reader.input.getD [])[s.reader.pos]? = some b →
      exec .readBitLsb s = .next (finish s
        { s.reader with pos := s.reader.pos + 1, curByte := b, corder := .lsb, ccount := 7 }
        (.value (bitResult (b.getLsbD 0))))) ∧
    (s.reader.ccount = 0 → s.reader.answered → s.reader.pos = (s.reader.input.getD []).length →
      exec .readBitLsb s = .next (finish s s.reader (.error .unexpectedEndOfInput))) ∧
    (s.reader.ccount ≠ 0 → s.reader.corder = .lsb →
      exec .readBitLsb s = .next (finish s { s.reader with ccount := s.reader.ccount - 1 }
        (.value (bitResult (s.reader.curByte.getLsbD (8 - s.reader.ccount.toNat)))))) ∧
    (s.reader.ccount ≠ 0 → s.reader.corder = .msb →
      exec .readBitLsb s = .next (finish s s.reader (.error .bitOrderMix)))

/-- R111 and R113: TakeBit(MSB) as the result of READ_BIT_MSB: bit 7 of a fresh byte, bit k - 1 of a carry of k bits; the other
cases as R112. -/
def Obligations.ReadBitMsb : Prop :=
  ∀ s : State,
    (s.reader.ccount = 0 → s.reader.pos < s.reader.granted → ∀ b, (s.reader.input.getD [])[s.reader.pos]? = some b →
      exec .readBitMsb s = .next (finish s
        { s.reader with pos := s.reader.pos + 1, curByte := b, corder := .msb, ccount := 7 }
        (.value (bitResult (b.getLsbD 7))))) ∧
    (s.reader.ccount = 0 → s.reader.answered → s.reader.pos = (s.reader.input.getD []).length →
      exec .readBitMsb s = .next (finish s s.reader (.error .unexpectedEndOfInput))) ∧
    (s.reader.ccount ≠ 0 → s.reader.corder = .msb →
      exec .readBitMsb s = .next (finish s { s.reader with ccount := s.reader.ccount - 1 }
        (.value (bitResult (s.reader.curByte.getLsbD (s.reader.ccount.toNat - 1)))))) ∧
    (s.reader.ccount ≠ 0 → s.reader.corder = .lsb →
      exec .readBitMsb s = .next (finish s s.reader (.error .bitOrderMix)))

/-- R114: READ_BITS_LSB of n ≤ 16 bits gives the next n bits, the first in bit 0, and leaves the reader n bits on; n = 0 gives
0 and cannot fail; an input that ends inside the field is UnexpectedEndOfInput with every bit consumed; a carry of the other
order is BitOrderMix and consumes nothing; n > 16 is BadReaderCommand. Only the bytes the n bits reach into need be
answered. -/
def Obligations.ReadBitsLsb : Prop :=
  ∀ (s : State) (n : BitVec 5),
    (n.toNat ≤ 16 → s.reader.readable .lsb n.toNat →
      exec (.readBitsLsb n) s = .next (finish s (s.reader.advance .lsb n.toNat)
        (.value (BitVec.ofNat 16 (lsbValue ((s.reader.bitsAhead .lsb).take n.toNat)))))) ∧
    (n = 0 → exec (.readBitsLsb n) s = .next (finish s s.reader (.value 0))) ∧
    (n.toNat ≤ 16 → s.reader.short .lsb n.toNat →
      exec (.readBitsLsb n) s = .next (finish s (s.reader.drained .lsb) (.error .unexpectedEndOfInput))) ∧
    (n ≠ 0 → n.toNat ≤ 16 → ¬ s.reader.orderFits .lsb →
      exec (.readBitsLsb n) s = .next (finish s s.reader (.error .bitOrderMix))) ∧
    (16 < n.toNat → exec (.readBitsLsb n) s = .next (finish s s.reader (.error .badReaderCommand)))

/-- R115: READ_BITS_MSB of n ≤ 16 bits gives the next n bits MSB-first, the first in bit n - 1; the other cases as R114. -/
def Obligations.ReadBitsMsb : Prop :=
  ∀ (s : State) (n : BitVec 5),
    (n.toNat ≤ 16 → s.reader.readable .msb n.toNat →
      exec (.readBitsMsb n) s = .next (finish s (s.reader.advance .msb n.toNat)
        (.value (BitVec.ofNat 16 (msbValue ((s.reader.bitsAhead .msb).take n.toNat)))))) ∧
    (n = 0 → exec (.readBitsMsb n) s = .next (finish s s.reader (.value 0))) ∧
    (n.toNat ≤ 16 → s.reader.short .msb n.toNat →
      exec (.readBitsMsb n) s = .next (finish s (s.reader.drained .msb) (.error .unexpectedEndOfInput))) ∧
    (n ≠ 0 → n.toNat ≤ 16 → ¬ s.reader.orderFits .msb →
      exec (.readBitsMsb n) s = .next (finish s s.reader (.error .bitOrderMix))) ∧
    (16 < n.toNat → exec (.readBitsMsb n) s = .next (finish s s.reader (.error .badReaderCommand)))

/-- R116: READ_RAW_BYTE gives the next byte with cur_byte and corder unchanged, UnexpectedEndOfInput at the end of the input,
MisalignedRawRead with bits in the carry; no byte after it need be answered. -/
def Obligations.ReadRawByte : Prop :=
  ∀ s : State,
    (s.reader.ccount ≠ 0 → exec .readRawByte s = .next (finish s s.reader (.error .misalignedRawRead))) ∧
    (s.reader.ccount = 0 → s.reader.pos < s.reader.granted → ∀ b, (s.reader.input.getD [])[s.reader.pos]? = some b →
      exec .readRawByte s = .next (finish s { s.reader with pos := s.reader.pos + 1 } (.value (b.setWidth 16)))) ∧
    (s.reader.ccount = 0 → s.reader.answered → s.reader.pos = (s.reader.input.getD []).length →
      exec .readRawByte s = .next (finish s s.reader (.error .unexpectedEndOfInput)))

/-- R62 for the reader commands: one that reaches a FetchByte the host has not answered, the first of its bytes or a later one,
waits and completes nothing; with no INPUT every one that needs a byte does. That bytes it has already fetched are undone, in any
phase, is the model's choice (log 4), as is the command port (log 8). -/
def Obligations.UnansweredCommandsWait : Prop :=
  ∀ s : State,
    (s.reader.ccount = 0 → unanswered s.reader →
      exec .readBitLsb s = .next (parked s) ∧ exec .readBitMsb s = .next (parked s) ∧
        exec .readRawByte s = .next (parked s)) ∧
    ∀ n : BitVec 5, n.toNat ≤ 16 →
      (s.reader.waits .lsb n.toNat → exec (.readBitsLsb n) s = .next (parked s)) ∧
      (s.reader.waits .msb n.toNat → exec (.readBitsMsb n) s = .next (parked s))

/-- R118: ALIGN empties the carry, leaves cur_byte, corder and the position, and cannot fail. -/
def Obligations.AlignDiscardsTheCarry : Prop :=
  ∀ s : State, exec .align s = .next (finish s { s.reader with ccount := 0 } (.value 0))

/-- The frame of the six reader commands, on every path: the same INPUT, no step back in the stream, and nothing of the
window, the block decoder or the sequencer changed, PHASE and ERRCODE included. -/
def Obligations.ReaderCommandsFrame : Prop :=
  ∀ (i : Instr) (s t : State),
    (i = .readBitLsb ∨ i = .readBitMsb ∨ (∃ n, i = .readBitsLsb n) ∨ (∃ n, i = .readBitsMsb n) ∨ i = .readRawByte ∨ i = .align) →
    exec i s = .next t →
    t.reader.input = s.reader.input ∧ t.reader.granted = s.reader.granted ∧ s.reader.pos ≤ t.reader.pos ∧
      8 * s.reader.pos + t.reader.ccount.toNat ≤ 8 * t.reader.pos + s.reader.ccount.toNat ∧
      t.window = s.window ∧ t.block = s.block ∧ t.seq = s.seq ∧ t.port.turns = s.port.turns ∧
      t.port.rdata = s.port.rdata ∧ t.port.draws = s.port.draws ∧ t.port.bound = s.port.bound

/-! ## Huffman tables (41_huffman) -/

/-- R133: a build fails exactly where the sum of 2^(-length) over the nonzero lengths exceeds 1 (here times 2^15), and BUILD
then raises InvalidHuffmanTable and leaves the target register absent. -/
def Obligations.OversubscribedBuildIsRefused : Prop :=
  ∀ lens : List (BitVec 4), (build lens = none ↔ 2 ^ 15 < kraftSum lens) ∧
    ∀ (t : TableSel) (s : State), 2 ^ 15 < kraftSum lens →
      exec (.buildTable t lens) s =
        .next (failAt { s with block := s.block.setTable t none } s.reader .invalidHuffmanTable)

/-- R131: where the lengths are not over-subscribed BUILD writes the table whose codes are the canonical ones, in closed form:
the first code of a length and the number of earlier symbols of that length. Nothing but the register changes. -/
def Obligations.BuildAssignsCanonicalCodes : Prop :=
  ∀ (lens : List (BitVec 4)) (t : TableSel) (s : State), kraftSum lens ≤ 2 ^ 15 →
    build lens = some (canonicalTable lens) ∧
    exec (.buildTable t lens) s = .next { s with block := s.block.setTable t (some (canonicalTable lens)) }

/-- Every code of a built table fits its length, and no code is the start of another (41_huffman R132, marked derived there). -/
def Obligations.CodesArePrefixFree : Prop :=
  ∀ (lens : List (BitVec 4)) (t : Table), build lens = some t →
    (∀ e ∈ t, e.code < 2 ^ e.len) ∧
    ∀ e ∈ t, ∀ f ∈ t, e.len ≤ f.len → f.code >>> (f.len - e.len) = e.code → e = f

/-- DECODE against a built table finds the symbol whose code comes next in the stream, most significant code bit first, and
consumes exactly the code's bits; only the bytes they stand in need be answered. -/
def Obligations.DecodeFindsTheSymbol : Prop :=
  ∀ (sel : TableSel) (lens : List (BitVec 4)) (t : Table) (e : Entry) (rest : List Bool) (s : State),
    lensFit sel lens = true → build lens = some t → s.block.table sel = some t → e ∈ t →
    s.reader.orderFits .lsb → s.reader.bitsOffered .lsb = codeBits e.code e.len ++ rest →
    exec (.decodeSymbol sel) s = .next { s with
      reader := s.reader.advance .lsb e.len
      block := { s.block with sym := BitVec.ofNat 9 e.sym } }

/-- DECODE that leaves every code raises InvalidHuffmanTable with the bit that leaves it consumed, before any other is fetched
(with no code at all, before reading a bit); a stream that ends inside the trie raises UnexpectedEndOfInput. -/
def Obligations.DecodeLeavingEveryCode : Prop :=
  ∀ (sel : TableSel) (t : Table) (s : State), s.block.table sel = some t →
    (∀ k, s.reader.readable .lsb k →
      (∀ j, j < k → innerNode t ((s.reader.bitsAhead .lsb).take j)) → emptyBranch t ((s.reader.bitsAhead .lsb).take k) →
      exec (.decodeSymbol sel) s = .next (failAt s (s.reader.advance .lsb k) .invalidHuffmanTable)) ∧
    (s.reader.answered → s.reader.orderFits .lsb → s.reader.pos ≤ (s.reader.input.getD []).length →
      (∀ j, j ≤ (s.reader.bitsAhead .lsb).length → innerNode t ((s.reader.bitsAhead .lsb).take j)) →
      exec (.decodeSymbol sel) s = .next (failAt s (s.reader.drained .lsb) .unexpectedEndOfInput))

/-- R135: an all-zero array of any length builds the empty table without error, whichever register it goes to. -/
def Obligations.AllZeroLengthsBuildTheEmptyTable : Prop :=
  ∀ (n : Nat) (t : TableSel) (s : State),
    exec (.buildTable t (List.replicate n 0)) s = .next { s with block := s.block.setTable t (some []) }

/-! ## Frames and blocks (43_mszip_frame, 42_deflate_block) -/

/-- R202: FRAME_START clears FRAME_OUT and goes to BLK_HDR; the window, OUT_TOTAL, IN_POS and the carry stay. -/
def Obligations.FrameStart : Prop :=
  ∀ s : State, exec .sig s = .next { s with
    window := { s.window with frameOut := 0 }, seq := { s.seq with phase := .blkHdr } }

/-- R200 and R201: the engine's step in SIG aligns and fetches up to two bytes, which stay consumed. 43 4B starts a frame;
anything else, exhaustion included, ends the sequence with DONE after a frame and with SignatureMismatch before one. Two answered
bytes are enough. -/
def Obligations.SignatureStep : Prop :=
  ∀ s : State, s.engineAlone → s.seq.phase = .sig →
    let s1 : State := { s.awake with
      reader := { s.reader with ccount := 0, pos := s.reader.pos + min 2 s.reader.bytesAhead.length } }
    2 ≤ s.reader.bytesOffered.length ∨ (s.reader.answered ∧ s.reader.pos ≤ (s.reader.input.getD []).length) →
      step s = .next (
        if s.reader.bytesAhead.take 2 = [0x43, 0x4B] then
          { s1 with window := { s1.window with frameOut := 0 }, seq := { s1.seq with phase := .blkHdr } }
        else if s.seq.anyFrame = true then { s1 with seq := { s1.seq with phase := .done } }
        else failAt s1 s1.reader .signatureMismatch)

/-- R151 and R152 for three of the four block types: the header's BFINAL and BTYPE are latched; stored goes to STORED_HDR,
dynamic to DYN_HDR, reserved raises InvalidBlockType with no further input consumed. -/
def Obligations.BlockTypeDispatch : Prop :=
  ∀ (f : Bool) (s : State),
    exec (.btypeStored f) s = .next { s with
      block := { s.block with bfinal := f, btype := 0 }, seq := { s.seq with phase := .storedHdr } } ∧
    exec (.btypeDynamic f) s = .next { s with
      block := { s.block with bfinal := f, btype := 2 }, seq := { s.seq with phase := .dynHdr } } ∧
    exec (.btypeReserved f) s = .next
      (failAt { s with block := { s.block with bfinal := f, btype := 3 } } s.reader .invalidBlockType)

/-- A fixed block builds both tables with the codes R91 and R92 list and goes to PAYLOAD; no bit is consumed. The 288 lengths
are the RFC's, general knowledge as the spec marks them (log 18). -/
def Obligations.FixedBlockTables : Prop :=
  ∀ (f : Bool) (s : State),
    exec (.btypeFixed f) s = .next { s with
      block := { s.block with bfinal := f, btype := 1, tLl := some fixedLlTable, tD := some fixedDTable }
      seq := { s.seq with phase := .payload } }

/-- The engine's step at a block header: three bits, BFINAL first and BTYPE LSB-first, are consumed and their instruction run
(R150, and the dispatch of R151); a header cut short is UnexpectedEndOfInput. -/
def Obligations.HeaderStep : Prop :=
  ∀ s : State, s.engineAlone → s.seq.phase = .blkHdr →
    (s.reader.readable .lsb 3 →
      let h := lsbValue ((s.reader.bitsAhead .lsb).take 3)
      let s1 : State := { s.awake with
        reader := s.reader.advance .lsb 3, block := { s.block with bfinal := h % 2 == 1 } }
      step s =
        if h / 2 = 0 then exec (.btypeStored (h % 2 == 1)) s1
        else if h / 2 = 1 then exec (.btypeFixed (h % 2 == 1)) s1
        else if h / 2 = 2 then exec (.btypeDynamic (h % 2 == 1)) s1
        else exec (.btypeReserved (h % 2 == 1)) s1) ∧
    (s.reader.short .lsb 3 → ∃ t, step s = .next t ∧ t.reader = s.reader.drained .lsb ∧ t.window = s.window ∧
      t.seq = { s.seq with err := some .unexpectedEndOfInput, phase := .error })

/-- R155, R156 and R157: STORED_HDR drops the carry, reads LEN and NLEN as raw little-endian fields, raises
DegenerateStoredBlock where both are 0, else notes an NLEN mismatch only with strict = 1 and starts the copy of LEN bytes; a
header cut short is UnexpectedEndOfInput with the bytes consumed. Four answered bytes are enough. -/
def Obligations.StoredHeader : Prop :=
  ∀ s : State,
    let r : Reader := { s.reader with
      ccount := 0, pos := s.reader.pos + min 4 s.reader.bytesAhead.length }
    (∀ b0 b1 b2 b3 rest, s.reader.bytesOffered = b0 :: b1 :: b2 :: b3 :: rest →
      let len : Half := b1 ++ b0
      let nlen : Half := b3 ++ b2
      exec .storedHdr s = .next (
        if len = 0 ∧ nlen = 0 then
          failAt { s with block := { s.block with slen := len, snlen := nlen } } r .degenerateStoredBlock
        else
          { s with
            reader := r
            block := { s.block with slen := len, snlen := nlen, srem := len }
            seq := { s.seq with
              nlenMismatch := s.seq.nlenMismatch || (s.seq.strict && nlen != (~~~len &&& 0xFFFF))
              phase := .storedCopy } })) ∧
    (s.reader.answered → s.reader.pos ≤ (s.reader.input.getD []).length → s.reader.bytesAhead.length < 4 →
      exec .storedHdr s = .next (
        match s.reader.bytesAhead with
        | b0 :: b1 :: _ => failAt { s with block := { s.block with slen := b1 ++ b0 } } r .unexpectedEndOfInput
        | _ => failAt s r .unexpectedEndOfInput))

/-- R159, over the whole copy: srem steps of the engine read srem bytes and emit each as it is read; where the input ends after
j < srem bytes, j + 1 steps emit those j and raise UnexpectedEndOfInput. Only the bytes copied need be answered. -/
def Obligations.StoredCopyRuns : Prop :=
  ∀ s : State, s.engineAlone → s.seq.phase = .storedCopy → s.reader.ccount = 0 →
    (s.block.srem.toNat ≤ s.reader.bytesOffered.length →
      ∃ t, core.run s.block.srem.toNat s = .next t ∧
        t.window = emitAll (s.reader.bytesAhead.take s.block.srem.toNat) s.window ∧
        t.window.out = s.window.out ++ s.reader.bytesAhead.take s.block.srem.toNat ∧
        t.reader = { s.reader with pos := s.reader.pos + s.block.srem.toNat } ∧
        t.block = { s.block with srem := 0 } ∧ t.seq = s.seq) ∧
    (s.reader.answered → s.reader.pos ≤ (s.reader.input.getD []).length → s.reader.bytesAhead.length < s.block.srem.toNat →
      ∃ t, core.run (s.reader.bytesAhead.length + 1) s = .next t ∧
        t.window = emitAll s.reader.bytesAhead s.window ∧
        t.window.out = s.window.out ++ s.reader.bytesAhead ∧
        t.reader = { s.reader with pos := (s.reader.input.getD []).length } ∧
        t.seq = { s.seq with err := some .unexpectedEndOfInput, phase := .error })

/-- The engine's step at the end of a stored copy is END_OF_BLOCK, and the step in a match copy with nothing left goes back to
PAYLOAD: neither reads input nor emits. -/
def Obligations.CopyEnds : Prop :=
  ∀ s : State, s.engineAlone →
    (s.seq.phase = .storedCopy → s.block.srem = 0 → step s = exec .eob s.awake) ∧
    (s.seq.phase = .matchCopy → s.block.mrem = 0 →
      step s = .next { s.awake with seq := { s.seq with phase := .payload } })

/-- R153, R173 and R204: EOB makes the three tables absent; without BFINAL the next header follows, with it the frame is
counted, any_frame set and SIG next. The window and the reader stay. -/
def Obligations.EndOfBlock : Prop :=
  ∀ s : State, exec .eob s = .next { s with
    block := { s.block with tCl := none, tLl := none, tD := none }
    seq :=
      if s.block.bfinal = true then { s.seq with frames := s.seq.frames + 1, anyFrame := true, phase := .sig }
      else { s.seq with phase := .blkHdr } }

/-! ## The dynamic header and the code lengths (42_deflate_block, section 3) -/

/-- R160, R161 and R162: DYN_HDR reads HLIT, HDIST and HCLEN with their biases and HCLEN fields of three bits in permuted order,
every other length 0, then builds T_CL and goes to DYN_LENS with li = 0; over-subscribed lengths are InvalidHuffmanTable with
T_CL absent; a header cut short is UnexpectedEndOfInput with every bit consumed. -/
def Obligations.DynamicHeader : Prop :=
  ∀ s : State,
    let bits := s.reader.bitsAhead .lsb
    let hlit := 257 + lsbValue (bits.take 5)
    let hdist := 1 + lsbValue ((bits.drop 5).take 5)
    let hclen := 4 + lsbValue ((bits.drop 10).take 4)
    let size := 14 + 3 * hclen
    let fields := clFields bits hclen
    let lens := fields.toList.map fun l => l.setWidth 4
    let read : Block := { s.block with
      hlit := BitVec.ofNat 9 hlit, hdist := BitVec.ofNat 6 hdist, hclen := BitVec.ofNat 5 hclen, clLens := fields }
    (s.reader.readable .lsb size → kraftSum lens ≤ 2 ^ 15 →
      exec .dynHdr s = .next { s with
        reader := s.reader.advance .lsb size
        block := { read with tCl := some (canonicalTable lens), li := 0 }
        seq := { s.seq with phase := .dynLens } }) ∧
    (s.reader.readable .lsb size → 2 ^ 15 < kraftSum lens →
      exec .dynHdr s = .next
        (failAt { s with block := { read with tCl := none } } (s.reader.advance .lsb size) .invalidHuffmanTable)) ∧
    (s.reader.short .lsb size → ∃ t, exec .dynHdr s = .next t ∧ t.reader = s.reader.drained .lsb ∧ t.window = s.window ∧
      t.seq = { s.seq with err := some .unexpectedEndOfInput, phase := .error })

/-- R164: CL_LIT enters its length at li and moves li on; nothing else changes. -/
def Obligations.CodeLengthLiteral : Prop :=
  ∀ (v : BitVec 4) (s : State), s.block.li.toNat < 320 →
    exec (.clLit v) s = .next { s with
      block := { s.block with lens := filled s.block.lens s.block.li.toNat 1 v, li := s.block.li + 1 } }

/-- R165, R166, R167 and R168: each run token reads its extra bits and enters its length that often; CL_REP repeats the entry
before li and with li = 0 raises InvalidHuffmanTable before any extra bit; a run past HLIT + HDIST raises InvalidHuffmanTable
after the extra bits and enters nothing; extra bits cut short are UnexpectedEndOfInput. -/
def Obligations.CodeLengthRuns : Prop :=
  ∀ row ∈ runRows, ∀ s : State,
    let r := row.2.1 + lsbValue ((s.reader.bitsAhead .lsb).take row.2.2)
    let total := s.block.hlit.toNat + s.block.hdist.toNat
    (row.1 = .clRep → s.block.li = 0 → exec row.1 s = .next (failAt s s.reader .invalidHuffmanTable)) ∧
    ((row.1 = .clRep → s.block.li ≠ 0) → s.block.li.toNat ≤ total → total ≤ 320 →
      (s.reader.readable .lsb row.2.2 → s.block.li.toNat + r ≤ total →
        exec row.1 s = .next { s with
          reader := s.reader.advance .lsb row.2.2
          block := { s.block with
            lens := filled s.block.lens s.block.li.toNat r (runValue row.1 s.block)
            li := BitVec.ofNat 9 (s.block.li.toNat + r) } }) ∧
      (s.reader.readable .lsb row.2.2 → total < s.block.li.toNat + r →
        exec row.1 s = .next (failAt s (s.reader.advance .lsb row.2.2) .invalidHuffmanTable)) ∧
      (s.reader.short .lsb row.2.2 →
        exec row.1 s = .next (failAt s (s.reader.drained .lsb) .unexpectedEndOfInput)))

/-- R169: with HLIT + HDIST entries filled the engine's step builds T_LL from the first HLIT and T_D from the rest and goes to
PAYLOAD; if either is over-subscribed it raises InvalidHuffmanTable. No input is read. -/
def Obligations.DynamicTablesStep : Prop :=
  ∀ s : State, s.engineAlone → s.seq.phase = .dynLens → s.block.hlit.toNat + s.block.hdist.toNat ≤ s.block.li.toNat →
    let ll := s.block.lens.toList.take s.block.hlit.toNat
    let d := (s.block.lens.toList.drop s.block.hlit.toNat).take s.block.hdist.toNat
    (kraftSum ll ≤ 2 ^ 15 → kraftSum d ≤ 2 ^ 15 →
      step s = .next { s.awake with
        block := { s.block with tLl := some (canonicalTable ll), tD := some (canonicalTable d) }
        seq := { s.seq with phase := .payload } }) ∧
    (2 ^ 15 < kraftSum ll ∨ 2 ^ 15 < kraftSum d →
      ∃ t, step s = .next t ∧ t.reader = s.reader ∧ t.window = s.window ∧
        t.seq = { s.seq with err := some .invalidHuffmanTable, phase := .error })

/-! ## The payload (42_deflate_block, section 5; 44_match_code_tables) -/

/-- R172 and R64: LIT emits its byte. OUT grows by it, both counters by one modulo 2^32, the byte goes to hist at hwp and no
other byte of hist changes, hwp moves on modulo 32768, hist_valid grows to at most 32768; nothing else changes. -/
def Obligations.LiteralEmits : Prop :=
  ∀ (b : Byte) (s : State), ∃ t, exec (.lit b) s = .next t ∧
    t.reader = s.reader ∧ t.block = s.block ∧ t.seq = s.seq ∧ t.port = s.port ∧
    t.window.out = s.window.out ++ [b] ∧
    t.window.outTotal.toNat = (s.window.outTotal.toNat + 1) % 2 ^ 32 ∧
    t.window.frameOut.toNat = (s.window.frameOut.toNat + 1) % 2 ^ 32 ∧
    memoryRead t.window.hist s.window.hwp.toNat = some b ∧
    (∀ a, a ≠ s.window.hwp.toNat → memoryRead t.window.hist a = memoryRead s.window.hist a) ∧
    t.window.hwp.toNat = (s.window.hwp.toNat + 1) % 32768 ∧
    t.window.histValid.toNat = min (s.window.histValid.toNat + 1) 32768

/-- R174 and R185: the reserved symbols raise InvalidSymbol, with no extra bit read and nothing emitted. -/
def Obligations.ReservedSymbolsRaise : Prop :=
  ∀ (odd : Bool) (s : State),
    exec (.llReserved odd) s = .next (failAt s s.reader .invalidSymbol) ∧
    exec (.dReserved odd) s = .next (failAt s s.reader .invalidSymbol)

/-- Each of the 29 length symbols: mlen is its base and its extra bits, in 3..258, and the distance symbol is next; extra bits
cut short are UnexpectedEndOfInput with mlen unchanged. The bases are the RFC's (log 18); the point between the two symbols is the
model's phase matchDist (log 11). -/
def Obligations.LengthSymbols : Prop :=
  ∀ row ∈ lengthRows, ∀ s : State,
    let len := row.2.1 + lsbValue ((s.reader.bitsAhead .lsb).take row.2.2)
    (s.reader.readable .lsb row.2.2 →
      3 ≤ len ∧ len ≤ 258 ∧
      exec row.1 s = .next { s with
        reader := s.reader.advance .lsb row.2.2
        block := { s.block with mlen := BitVec.ofNat 9 len }
        seq := { s.seq with phase := .matchDist } }) ∧
    (s.reader.short .lsb row.2.2 →
      exec row.1 s = .next (failAt s (s.reader.drained .lsb) .unexpectedEndOfInput))

/-- Each of the 30 distance symbols: mdist is its base and its extra bits, in 1..32768; within hist_valid the copy of mlen
bytes starts, beyond it InvalidBackReference is raised and nothing emitted; extra bits cut short are UnexpectedEndOfInput with
mdist unchanged. The bases are the RFC's (log 18). -/
def Obligations.DistanceSymbols : Prop :=
  ∀ row ∈ distanceRows, ∀ s : State,
    let dist := row.2.1 + lsbValue ((s.reader.bitsAhead .lsb).take row.2.2)
    (s.reader.readable .lsb row.2.2 →
      1 ≤ dist ∧ dist ≤ 32768 ∧
      exec row.1 s = .next (
        if dist ≤ s.window.histValid.toNat then
          { s with
            reader := s.reader.advance .lsb row.2.2
            block := { s.block with mdist := BitVec.ofNat 16 dist, mrem := s.block.mlen }
            seq := { s.seq with phase := .matchCopy } }
        else
          failAt { s with block := { s.block with mdist := BitVec.ofNat 16 dist } }
            (s.reader.advance .lsb row.2.2) .invalidBackReference)) ∧
    (s.reader.short .lsb row.2.2 →
      exec row.1 s = .next (failAt s (s.reader.drained .lsb) .unexpectedEndOfInput))

/-- R62 for the engine's own reads: a signature, a block header, a stored or a dynamic header, extra bits and a symbol decode that
reach a FetchByte the host has not answered wait with nothing changed, and a stored copy emits the bytes that are answered and waits
for the next. That what a token has fetched before its wait is undone is the model's choice (log 4). -/
def Obligations.UnansweredTokensWait : Prop :=
  ∀ s : State,
    (s.engineAlone → s.seq.phase = .sig → ¬ s.reader.answered → s.reader.bytesOffered.length < 2 → step s = .next (parked s)) ∧
    (s.engineAlone → s.seq.phase = .blkHdr → s.reader.waits .lsb 3 → step s = .next (parked s)) ∧
    (¬ s.reader.answered → s.reader.bytesOffered.length < 4 → exec .storedHdr s = .next (parked s)) ∧
    (s.engineAlone → s.seq.phase = .storedCopy → s.reader.ccount = 0 → ¬ s.reader.answered →
      s.reader.bytesOffered.length < s.block.srem.toNat →
      ∃ t, core.run s.reader.bytesOffered.length s = .next t ∧
        t.window = emitAll s.reader.bytesOffered s.window ∧
        t.window.out = s.window.out ++ s.reader.bytesOffered ∧
        t.reader = { s.reader with pos := s.reader.pos + s.reader.bytesOffered.length } ∧
        t.block = { s.block with srem := s.block.srem - BitVec.ofNat 16 s.reader.bytesOffered.length } ∧ t.seq = s.seq ∧
        step t = .next (parked t)) ∧
    (s.reader.waits .lsb (14 + 3 * (4 + lsbValue (((s.reader.bitsAhead .lsb).drop 10).take 4))) →
      exec .dynHdr s = .next (parked s)) ∧
    (∀ row ∈ runRows, (row.1 = .clRep → s.block.li ≠ 0) → s.reader.waits .lsb row.2.2 → exec row.1 s = .next (parked s)) ∧
    (∀ row ∈ lengthRows ++ distanceRows, s.reader.waits .lsb row.2.2 → exec row.1 s = .next (parked s)) ∧
    ∀ sel t, s.block.table sel = some t → ¬ s.reader.answered → s.reader.orderFits .lsb →
      (∀ j, j ≤ (s.reader.bitsOffered .lsb).length → innerNode t ((s.reader.bitsOffered .lsb).take j)) →
      exec (.decodeSymbol sel) s = .next (parked s)

/-- The whole of a match copy, overlapping or not: mrem + 1 steps emit mrem bytes, the j-th of them the byte of OUT (as it was
before the match) at distance mdist, repeated with period mdist, then PAYLOAD is next; no input is read. -/
def Obligations.MatchCopyRuns : Prop :=
  ∀ s : State, s.Inv → s.engineAlone → s.seq.phase = .matchCopy →
    let n := s.block.mrem.toNat
    let d := s.block.mdist.toNat
    let copied := (List.range n).map fun j => s.window.out.getD (s.window.out.length - d + j % d) 0
    ∃ t, core.run (n + 1) s = .next t ∧
      t.window = emitAll copied s.window ∧ t.window.out = s.window.out ++ copied ∧
      t.reader = s.reader ∧ t.block = { s.block with mrem := 0 } ∧ t.seq = { s.seq with phase := .payload }

/-! ## Registers, reset and START (10_state, 70_reset_and_hazards) -/

/-- R250: every piece of state at reset, and hardware reset and a write of CTRL.SRST, whatever runs, set every piece of the
core's state to that value. The bytes of the history, which the spec leaves unspecified, OUT and the model's own fields are not
part of the claim (logs 4, 9, 12, 20). -/
def Obligations.ResetValues : Prop :=
  let s := State.reset
  s.seq.phase = .idle ∧ s.busy = false ∧ s.seq.cfgStrict = false ∧ s.seq.nlenMismatch = false ∧ s.seq.err = none ∧
  s.seq.frames = 0 ∧ s.reader.pos = 0 ∧ s.window.outTotal = 0 ∧ s.window.frameOut = 0 ∧
  s.reader.curByte = 0 ∧ s.reader.ccount = 0 ∧ s.reader.corder = .lsb ∧
  s.block.bfinal = false ∧ s.block.btype = 0 ∧ s.window.hwp = 0 ∧ s.window.histValid = 0 ∧
  s.block.mlen = 0 ∧ s.block.mdist = 0 ∧ s.block.mrem = 0 ∧ s.block.slen = 0 ∧ s.block.snlen = 0 ∧ s.block.srem = 0 ∧
  s.seq.anyFrame = false ∧ s.seq.strict = false ∧
  s.block.hlit = 0 ∧ s.block.hdist = 0 ∧ s.block.hclen = 0 ∧ s.block.clLens = Vector.replicate 19 0 ∧
  s.block.lens = Vector.replicate 320 0 ∧ s.block.li = 0 ∧
  s.block.tCl = none ∧ s.block.tLl = none ∧ s.block.tD = none ∧ s.reader.input = none ∧ s.port.bound = none ∧
  (∀ offset : Word, s.readReg offset = 0) ∧
  ∀ (u : State) (rest : List Turn),
    (u.port.turns = .reset :: rest ∨ ∃ v : Word, v.getLsbD 1 = true ∧ u.port.turns = .write 0 .word v :: rest) →
    ∃ t, step u = .next t ∧ t.seq = s.seq ∧ t.port.bound = none ∧ t.reader = { s.reader with granted := t.reader.granted } ∧
      t.window = { s.window with hist := t.window.hist, out := t.window.out } ∧ t.block = { s.block with sym := t.block.sym }

/-- Hardware reset and a write of CTRL.SRST, with or without START, whatever the machine was doing: the state is State.reset but
for the host's coming moves, the last read's data and the count of draws, which are not the core's (log 20). That this also makes
the history empty (log 12, where R250 leaves it unspecified), no FetchByte answered and none waited for (log 4), no command pending
or completed (log 8), the decoded symbol 0 (log 9) and OUT empty (log 20) is the model's choice. -/
def Obligations.ResetAndSoftReset : Prop :=
  ∀ (s : State) (rest : List Turn),
    let t : State := { State.reset with
      port := { State.reset.port with turns := rest, rdata := s.port.rdata, draws := s.port.draws } }
    (s.port.turns = .reset :: rest → step s = .next t) ∧
    ∀ v : Word, v.getLsbD 1 = true → s.port.turns = .write 0 .word v :: rest → step s = .next t

/-- R252, with R23: a START with BUSY = 0 sets what R252 lists, INPUT to what the host has bound, and keeps CFG and the stale
block registers; a START with BUSY = 1, and a write of CTRL with neither bit, change nothing. That START also keeps the binding
(log 17), a pending command and its completion (log 8) and the bytes of the history (log 12) is the model's choice; what the
model's own count of answers becomes is no part of the claim (logs 4, 17). -/
def Obligations.StartBeginsASequence : Prop :=
  ∀ (s : State) (v : Word) (rest : List Turn), v.getLsbD 1 = false → s.port.turns = .write 0 .word v :: rest →
    ∃ answers : Nat, step s = .next (
      if v.getLsbD 0 = true ∧ s.busy = false then
        { reader := { input := s.port.bound, granted := answers, pos := 0, curByte := 0, ccount := 0, corder := .lsb }
          window := { s.window with out := [], outTotal := 0, frameOut := 0, hwp := 0, histValid := 0 }
          block := { s.block with tCl := none, tLl := none, tD := none }
          seq := {
            phase := .sig, cfgStrict := s.seq.cfgStrict, strict := s.seq.cfgStrict, nlenMismatch := false, err := none,
            frames := 0, anyFrame := false }
          port := { s.port with turns := rest } }
      else { s with port := { s.port with turns := rest } })

/-- R24: a write of CFG sets STRICT_NLEN from bit 0 at any time and ignores bits 31:1; the latch of the running sequence keeps
its value until a START; writes to every other register and offset are ignored. -/
def Obligations.RegisterWrites : Prop :=
  ∀ (s : State) (offset v : Word) (rest : List Turn), offset.toNat % 4 = 0 → offset ≠ 0 →
    s.port.turns = .write offset .word v :: rest →
    step s = .next { s with
      port := { s.port with turns := rest }
      seq := if offset = 4 then { s.seq with cfgStrict := v.getLsbD 0 } else s.seq }

/-- R21 and R25 to R31, with the codes of R22 and R220: a read with BUSY = 0 gives the register's fields bit by bit, 0 for CTRL
and for an unlisted offset, and has no other effect. -/
def Obligations.RegisterReadsWhenIdle : Prop :=
  ∀ (s : State) (offset : Word) (rest : List Turn), s.busy = false → offset.toNat % 4 = 0 →
    s.port.turns = .read offset .word :: rest →
    step s = .next { s with port := { s.port with turns := rest, rdata := register offset s } }

/-- A read with BUSY = 1: STATUS shows BUSY = 1, DONE = 0, ERR = 0; CTRL, CFG and unlisted offsets are exact; reserved bits
read 0; every other bit is a free draw, and nothing but the read's data and the count of draws changes (log 6). -/
def Obligations.RegisterReadsWhenBusy : Prop :=
  ∀ (s : State) (offset : Word) (rest : List Turn), s.busy = true → offset.toNat % 4 = 0 →
    s.port.turns = .read offset .word :: rest →
    ∃ (v : Word) (n : Nat),
      step s = .next { s with port := { s.port with turns := rest, rdata := v, draws := n } } ∧
      (offset.toNat = 0x08 → v &&& 0xFFFFF0F7 = 1) ∧ (offset.toNat = 0x0C → v &&& 0xFFFFFFF0 = 0) ∧
      (offset.toNat = 0x20 → v &&& 0xFFFF00F0 = 0) ∧
      (offset.toNat ∉ [0x08, 0x0C, 0x10, 0x14, 0x18, 0x1C, 0x20] → v = register offset s)

/-- The only refused steps are three moves of the host: an access that is no aligned word (R21), a binding of INPUT while a
sequence that has its INPUT runs, and a command while one is pending (log 14); no instruction and no step of the engine is
refused. -/
def Obligations.OnlyTheHostIsRefused : Prop :=
  (∀ (i : Instr) (s : State) (r : Refusal), exec i s ≠ .refused r) ∧
  ∀ s : State, (∃ r, step s = .refused r) ↔
    (∃ offset width v rest, s.port.turns = .write offset width v :: rest ∧ ¬ (width = .word ∧ offset.toNat % 4 = 0)) ∨
    (∃ offset width rest, s.port.turns = .read offset width :: rest ∧ ¬ (width = .word ∧ offset.toNat % 4 = 0)) ∨
    (∃ bytes rest, s.port.turns = .bind bytes :: rest ∧ s.busy = true ∧ s.reader.input.isSome = true) ∨
    ∃ w rest, s.port.turns = .command w :: rest ∧ s.port.cmd.isSome = true

/-- The host's other moves do what the host interface lets the host do and nothing else: answer FetchBytes; bind the sequence of
the next START where no running sequence has its INPUT, which is INPUT at once for a reader that has none; issue a reader command
where none is pending; an engine move is the engine's step (logs 3, 4, 8, 17). -/
def Obligations.HostMoves : Prop :=
  ∀ (s : State) (rest : List Turn),
    let s1 : State := { s with port := { s.port with turns := rest } }
    (∀ n, s.port.turns = .answer n :: rest →
      step s = .next { s1 with reader := { s.reader with granted := s.reader.granted + n } }) ∧
    (∀ bytes, s.port.turns = .bind bytes :: rest → (s.busy = false ∨ s.reader.input = none) →
      step s = .next { s1 with
        reader := if s.reader.input = none then { s.reader with input := some bytes, granted := 0 } else s.reader
        port := { s1.port with bound := some bytes } }) ∧
    (∀ w, s.port.turns = .command w :: rest → s.port.cmd = none →
      step s = .next { s1 with port := { s1.port with cmd := some w } }) ∧
    (s.port.turns = .engine :: rest → step s = s1.engineStep)

/-! ## The whole machine -/

/-- The step runs the decoded instruction: a pending command, a signature, a header, a symbol. Around exec the step clears the
model's `waiting` mark before, and where a FetchByte inside the instruction was not answered it undoes the whole step but for
that mark (logs 1, 4, 8). -/
def Obligations.StepRunsDecodedInstruction : Prop :=
  ∀ s : State, s.port.turns = [] →
    (∀ w i, s.port.cmd = some w → decode .readerCmd w.toNat = .ok i → step s = resume s.awake (exec i s.awake)) ∧
    (s.port.cmd = none →
      (∀ v r i, s.seq.phase = .sig → s.reader.readSignature = .ok (some v) r → decode .sig v.toNat = .ok i →
        step s = resume s.awake (exec i { s.awake with reader := r })) ∧
      (∀ h u i, s.seq.phase = .blkHdr → s.awake.readHeader = .ok h u → decode .blkHdr h.toNat = .ok i →
        step s = resume s.awake (exec i u)) ∧
      (s.seq.phase = .storedHdr → decode .stored 0 = .ok .storedHdr ∧ step s = resume s.awake (exec .storedHdr s.awake)) ∧
      (s.seq.phase = .dynHdr → decode .dynHdr 0 = .ok .dynHdr ∧ step s = resume s.awake (exec .dynHdr s.awake)) ∧
      ∀ sel f u i,
        (sel = .cl ∧ f = .clSymbol ∧ s.seq.phase = .dynLens ∧ s.block.li.toNat < s.block.hlit.toNat + s.block.hdist.toNat ∨
          sel = .ll ∧ f = .llSymbol ∧ s.seq.phase = .payload ∨ sel = .d ∧ f = .dSymbol ∧ s.seq.phase = .matchDist) →
        s.awake.decodeInto sel = .ok () u → decode f u.block.sym.toNat = .ok i → step s = resume s.awake (exec i u)) ∧
    ∀ (s0 t : State), resume s0 (.next t) = if t.port.waiting = true then .next s0.wait else .next t

/-- In IDLE, DONE and ERROR the engine does nothing (60_exceptions R226): with no command pending its step clears the model's
`waiting` mark and nothing else (log 4). And the only ways out are START and reset: a step of a state with BUSY = 0, a pending
reader command's (log 8) and the host's moves included, keeps PHASE, ERRCODE, the window and the block decoder's registers unless
its move is a reset or a write of CTRL with START or SRST set. -/
def Obligations.EngineRestsOutsideASequence : Prop :=
  ∀ s : State, s.busy = false →
    (s.engineAlone → step s = .next s.awake) ∧
    ∀ t : State, step s = .next t →
      (t.seq.phase = s.seq.phase ∧ t.seq.err = s.seq.err ∧ t.window = s.window ∧ t.block = s.block) ∨
      (∃ rest, s.port.turns = .reset :: rest) ∨
      ∃ v rest, s.port.turns = .write 0 .word v :: rest ∧ (v.getLsbD 0 = true ∨ v.getLsbD 1 = true)

/-- R62 and I9: a step of the engine or of a reader command that ends waiting has changed nothing but the model's `waiting` mark,
PHASE and BUSY included, and ends so only where some FetchByte of INPUT or of its end is not answered; a step that needs a
FetchByte first, a command's or the phase's, ends waiting where INPUT is none or the byte at IN_POS not answered. That bytes a
waiting command has already fetched are undone, with BUSY = 0 too, is the model's choice (log 4). -/
def Obligations.WaitingChangesNothing : Prop :=
  (∀ s t : State, s.port.turns = [] → step s = .next t → t.port.waiting = true →
    t = parked s ∧ (s.reader.pos ≤ (s.reader.input.getD []).length → ¬ s.reader.answered)) ∧
  ∀ s : State, s.port.turns = [] → unanswered s.reader → needsByte s → step s = .next (parked s)

/-- The engine only moves forward: with no host move, INPUT, its binding and its answers stay, the stream position never moves
back, OUT only grows and by at most one byte, FRAMES moves by at most one, NLEN_MISMATCH is not cleared, CFG and its latch stay,
and ERRCODE changes only on entering ERROR, which leaves the window, FRAMES and NLEN_MISMATCH as they were. -/
def Obligations.EngineOnlyMovesForward : Prop :=
  ∀ s t : State, s.port.turns = [] → step s = .next t →
    t.reader.input = s.reader.input ∧ t.port.bound = s.port.bound ∧ t.reader.granted = s.reader.granted ∧
      s.reader.pos ≤ t.reader.pos ∧
      8 * s.reader.pos + t.reader.ccount.toNat ≤ 8 * t.reader.pos + s.reader.ccount.toNat ∧
    (t.window.out = s.window.out ∨ ∃ b, t.window = s.window.emit b) ∧
    (t.seq.frames = s.seq.frames ∨ t.seq.frames = s.seq.frames + 1) ∧
    (s.seq.nlenMismatch = true → t.seq.nlenMismatch = true) ∧
    t.seq.cfgStrict = s.seq.cfgStrict ∧ t.seq.strict = s.seq.strict ∧
    (t.seq.err ≠ s.seq.err → t.seq.phase = .error ∧ t.window = s.window ∧ t.seq.frames = s.seq.frames ∧
      t.seq.nlenMismatch = s.seq.nlenMismatch)

/-- Reset satisfies the invariant and the three others of this section. -/
def Obligations.ResetIsSafe : Prop :=
  State.reset.Inv ∧ readerSound State.reset ∧ tablesInBlock State.reset ∧ outputBounded State.reset

/-- Every step, of the host or the engine, keeps the invariant: the window is the tail of OUT, ERRCODE is nonzero exactly in
ERROR, the position lies in INPUT, and each phase has the tables and registers its rules read. -/
def Obligations.EveryStepKeepsTheInvariant : Prop := ∀ s t : State, s.Inv → step s = .next t → t.Inv

/-- R120: wherever a step raises UnexpectedEndOfInput, as ERRCODE of the engine or as the completion of a reader command (the
model's port, log 8), the carry is empty and every byte of INPUT has been fetched. -/
def Obligations.ExhaustionLeavesNothingUnread : Prop :=
  ∀ s t : State, s.Inv → s.port.turns = [] → step s = .next t →
    ((s.seq.err ≠ some .unexpectedEndOfInput ∧ t.seq.err = some .unexpectedEndOfInput) ∨
      (s.port.cmd.isSome = true ∧ t.port.cmd = none ∧ t.port.result = some (.error .unexpectedEndOfInput))) →
    t.reader.ccount = 0 ∧ t.reader.input.isSome = true ∧ t.reader.pos = (t.reader.input.getD []).length

/-- Under the invariant no step is a model fault: no absent table is decoded, no history byte out of reach read, no symbol
outside its alphabet met, no entry outside lens written. -/
def Obligations.NoModelFault : Prop := ∀ (s : State) (f : Fault), s.Inv → step s ≠ .fault f

/-- Every step keeps the history in its canonical form, with no other premise. -/
def Obligations.HistoryStaysCanonical : Prop :=
  ∀ s t : State, memoryWf s.window.hist = true → step s = .next t → memoryWf t.window.hist = true

/-- Two histories in canonical form that read alike are the same list. -/
def Obligations.EqualHistoriesAreEqualLists : Prop :=
  ∀ m n : List Host.Cell, memoryWf m = true → memoryWf n = true → (∀ a, memoryRead m a = memoryRead n a) → m = n

/-- While the engine decodes a stream, codes 8 to 10 do not arise: every engine step with no reader command pending keeps the
carry LSB-first, the stored copy aligned and ERRCODE none of the three (60_exceptions R220, marked derived there). -/
def Obligations.DecodeRaisesNoReaderError : Prop :=
  ∀ s t : State, s.engineAlone → readerSound s → step s = .next t → readerSound t

/-- Every step keeps the lifetime of the tables: none outside the block that built them (70_reset_and_hazards R261). -/
def Obligations.TablesLiveInTheirBlock : Prop := ∀ s t : State, tablesInBlock s → step s = .next t → tablesInBlock t

/-- Every step keeps the bound of the output by the input: at the end of a run |OUT| is at most 129 * 8 * IN_POS
(70_reset_and_hazards R257, marked derived there). -/
def Obligations.OutputIsBoundedByInput : Prop :=
  ∀ s t : State, s.Inv → outputBounded s → step s = .next t → outputBounded t

/-- In an answered sequence every step of the engine makes progress: it answers a next state, still safe and answered, not
waiting, and lowers the measure: the bits left, and the phase's own count between two bits. -/
def Obligations.EngineStepMakesProgress : Prop :=
  ∀ s : State, s.Inv → s.busy = true → s.engineAlone → s.reader.answered →
    ∃ t, step s = .next t ∧ t.Inv ∧ t.engineAlone ∧ t.reader.answered ∧ t.port.waiting = false ∧ t.work < s.work

/-- Every sequence whose FetchBytes are all answered ends, in DONE or ERROR, within as many steps as the measure says
(70_reset_and_hazards R257, marked derived there). -/
def Obligations.EveryAnsweredRunEnds : Prop :=
  ∀ s : State, s.Inv → s.busy = true → s.engineAlone → s.reader.answered →
    ∃ n t, n ≤ s.work ∧ core.run n s = .next t ∧ t.Inv ∧ (t.seq.phase = .done ∨ t.seq.phase = .error)
end

