-- ==== Sys2Proof/Laws/State.lean ====
section
/-! SUPPORT. What each update of the state leaves in each part of it, so that no later proof unfolds a record update. -/

namespace Sys2Proof.Machine

/-! ## State.goto -/

@[simp] theorem State.goto_reader (p : Phase) (s : State) : (s.goto p).reader = s.reader := rfl
@[simp] theorem State.goto_window (p : Phase) (s : State) : (s.goto p).window = s.window := rfl
@[simp] theorem State.goto_block (p : Phase) (s : State) : (s.goto p).block = s.block := rfl
@[simp] theorem State.goto_seq (p : Phase) (s : State) : (s.goto p).seq = { s.seq with phase := p } := rfl
@[simp] theorem State.goto_port (p : Phase) (s : State) : (s.goto p).port = s.port := rfl

/-! ## State.raise -/

@[simp] theorem State.raise_reader (e : ErrKind) (s : State) : (s.raise e).reader = s.reader := rfl
@[simp] theorem State.raise_window (e : ErrKind) (s : State) : (s.raise e).window = s.window := rfl
@[simp] theorem State.raise_block (e : ErrKind) (s : State) : (s.raise e).block = s.block := rfl
@[simp] theorem State.raise_seq (e : ErrKind) (s : State) : (s.raise e).seq =
    { s.seq with err := some e, phase := .error } := rfl
@[simp] theorem State.raise_port (e : ErrKind) (s : State) : (s.raise e).port = s.port := rfl

/-! ## State.wait -/

@[simp] theorem State.wait_reader (s : State) : (s.wait).reader = s.reader := rfl
@[simp] theorem State.wait_window (s : State) : (s.wait).window = s.window := rfl
@[simp] theorem State.wait_block (s : State) : (s.wait).block = s.block := rfl
@[simp] theorem State.wait_seq (s : State) : (s.wait).seq = s.seq := rfl
@[simp] theorem State.wait_port (s : State) : (s.wait).port = { s.port with waiting := true } := rfl

/-! ## State.awake -/

@[simp] theorem State.awake_reader (s : State) : (s.awake).reader = s.reader := rfl
@[simp] theorem State.awake_window (s : State) : (s.awake).window = s.window := rfl
@[simp] theorem State.awake_block (s : State) : (s.awake).block = s.block := rfl
@[simp] theorem State.awake_seq (s : State) : (s.awake).seq = s.seq := rfl
@[simp] theorem State.awake_port (s : State) : (s.awake).port = { s.port with waiting := false } := rfl

/-! ## State.complete -/

@[simp] theorem State.complete_reader (c : Completion) (s : State) : (s.complete c).reader = s.reader := rfl
@[simp] theorem State.complete_window (c : Completion) (s : State) : (s.complete c).window = s.window := rfl
@[simp] theorem State.complete_block (c : Completion) (s : State) : (s.complete c).block = s.block := rfl
@[simp] theorem State.complete_seq (c : Completion) (s : State) : (s.complete c).seq = s.seq := rfl
@[simp] theorem State.complete_port (c : Completion) (s : State) : (s.complete c).port =
    { s.port with cmd := none, result := some c } := rfl

/-! ## State.emit -/

@[simp] theorem State.emit_reader (b : Byte) (s : State) : (s.emit b).reader = s.reader := rfl
@[simp] theorem State.emit_window (b : Byte) (s : State) : (s.emit b).window = s.window.emit b := rfl
@[simp] theorem State.emit_block (b : Byte) (s : State) : (s.emit b).block = s.block := rfl
@[simp] theorem State.emit_seq (b : Byte) (s : State) : (s.emit b).seq = s.seq := rfl
@[simp] theorem State.emit_port (b : Byte) (s : State) : (s.emit b).port = s.port := rfl

/-! ## State.latchHeader -/

@[simp] theorem State.latchHeader_reader (f : Bool) (t : BitVec 2) (s : State) : (s.latchHeader f t).reader =
    s.reader := rfl
@[simp] theorem State.latchHeader_window (f : Bool) (t : BitVec 2) (s : State) : (s.latchHeader f t).window =
    s.window := rfl
@[simp] theorem State.latchHeader_block (f : Bool) (t : BitVec 2) (s : State) : (s.latchHeader f t).block =
    { s.block with bfinal := f, btype := t } := rfl
@[simp] theorem State.latchHeader_seq (f : Bool) (t : BitVec 2) (s : State) : (s.latchHeader f t).seq = s.seq := rfl
@[simp] theorem State.latchHeader_port (f : Bool) (t : BitVec 2) (s : State) : (s.latchHeader f t).port =
    s.port := rfl

/-! ## State.frameEnd -/

@[simp] theorem State.frameEnd_reader (s : State) : (s.frameEnd).reader = s.reader := rfl
@[simp] theorem State.frameEnd_window (s : State) : (s.frameEnd).window = s.window := rfl
@[simp] theorem State.frameEnd_block (s : State) : (s.frameEnd).block = s.block := rfl
@[simp] theorem State.frameEnd_seq (s : State) : (s.frameEnd).seq =
    { s.seq with frames := s.seq.frames + 1, anyFrame := true, phase := .sig } := rfl
@[simp] theorem State.frameEnd_port (s : State) : (s.frameEnd).port = s.port := rfl

/-! ## State.dropTurn -/

@[simp] theorem State.dropTurn_reader (rest : List Turn) (s : State) : (s.dropTurn rest).reader = s.reader := rfl
@[simp] theorem State.dropTurn_window (rest : List Turn) (s : State) : (s.dropTurn rest).window = s.window := rfl
@[simp] theorem State.dropTurn_block (rest : List Turn) (s : State) : (s.dropTurn rest).block = s.block := rfl
@[simp] theorem State.dropTurn_seq (rest : List Turn) (s : State) : (s.dropTurn rest).seq = s.seq := rfl
@[simp] theorem State.dropTurn_port (rest : List Turn) (s : State) : (s.dropTurn rest).port =
    { s.port with turns := rest } := rfl

/-! ## State.answerFetches -/

@[simp] theorem State.answerFetches_reader (n : Nat) (s : State) : (s.answerFetches n).reader =
    { s.reader with granted := s.reader.granted + n } := rfl
@[simp] theorem State.answerFetches_window (n : Nat) (s : State) : (s.answerFetches n).window = s.window := rfl
@[simp] theorem State.answerFetches_block (n : Nat) (s : State) : (s.answerFetches n).block = s.block := rfl
@[simp] theorem State.answerFetches_seq (n : Nat) (s : State) : (s.answerFetches n).seq = s.seq := rfl
@[simp] theorem State.answerFetches_port (n : Nat) (s : State) : (s.answerFetches n).port = s.port := rfl

/-! ## State.writeCfg -/

@[simp] theorem State.writeCfg_reader (v : Word) (s : State) : (s.writeCfg v).reader = s.reader := rfl
@[simp] theorem State.writeCfg_window (v : Word) (s : State) : (s.writeCfg v).window = s.window := rfl
@[simp] theorem State.writeCfg_block (v : Word) (s : State) : (s.writeCfg v).block = s.block := rfl
@[simp] theorem State.writeCfg_seq (v : Word) (s : State) : (s.writeCfg v).seq =
    { s.seq with cfgStrict := v.getLsbD 0 } := rfl
@[simp] theorem State.writeCfg_port (v : Word) (s : State) : (s.writeCfg v).port = s.port := rfl

/-! ## State.start -/

@[simp] theorem State.start_port (s : State) : (s.start).port = s.port := rfl

/-! ## State.start -/

@[simp] theorem State.start_phase (s : State) : s.start.seq.phase = .sig := rfl
@[simp] theorem State.start_input (s : State) : s.start.reader.input = s.port.bound := rfl
@[simp] theorem State.start_pos (s : State) : s.start.reader.pos = 0 := rfl

/-! ## State.setBinding -/

@[simp] theorem State.setBinding_reader (bytes : List Byte) (s : State) : (s.setBinding bytes).reader =
    s.reader.takeBinding bytes := rfl
@[simp] theorem State.setBinding_window (bytes : List Byte) (s : State) : (s.setBinding bytes).window = s.window := rfl
@[simp] theorem State.setBinding_block (bytes : List Byte) (s : State) : (s.setBinding bytes).block = s.block := rfl
@[simp] theorem State.setBinding_seq (bytes : List Byte) (s : State) : (s.setBinding bytes).seq = s.seq := rfl
@[simp] theorem State.setBinding_port (bytes : List Byte) (s : State) : (s.setBinding bytes).port =
    { s.port with bound := some bytes } := rfl

/-! ## Reader.takeBinding -/

@[simp] theorem Reader.takeBinding_pos (bytes : List Byte) (r : Reader) : (r.takeBinding bytes).pos = r.pos := by
  unfold Reader.takeBinding; split <;> rfl
@[simp] theorem Reader.takeBinding_ccount (bytes : List Byte) (r : Reader) : (r.takeBinding bytes).ccount = r.ccount := by
  unfold Reader.takeBinding; split <;> rfl
@[simp] theorem Reader.takeBinding_corder (bytes : List Byte) (r : Reader) : (r.takeBinding bytes).corder = r.corder := by
  unfold Reader.takeBinding; split <;> rfl
@[simp] theorem Reader.takeBinding_curByte (bytes : List Byte) (r : Reader) : (r.takeBinding bytes).curByte = r.curByte := by
  unfold Reader.takeBinding; split <;> rfl

/-- A binding never leaves the reader beyond its INPUT (20_memory R60, R61). -/
theorem Reader.takeBinding_pos_le {bytes : List Byte} {r : Reader} (h : r.pos ≤ (r.input.getD []).length) :
    (r.takeBinding bytes).pos ≤ ((r.takeBinding bytes).input.getD []).length := by
  unfold Reader.takeBinding
  cases hi : r.input <;> simp_all

/-! ## Block.setTable -/

@[simp] theorem Block.table_setTable_same (t : TableSel) (x : Option Table) (b : Block) : (b.setTable t x).table t = x := by
  cases t <;> rfl

theorem Block.table_setTable_other {t u : TableSel} (h : u ≠ t) (x : Option Table) (b : Block) :
    (b.setTable t x).table u = b.table u := by
  cases t <;> cases u <;> first | rfl | exact absurd rfl h

/-! ## Parts of the machine -/

@[simp] theorem State.withReader_ok {α : Type} (s : State) (a : α) (r : Reader) :
    s.withReader (.ok a r) = .ok a { s with reader := r } := rfl
@[simp] theorem State.withReader_raise {α : Type} (s : State) (e : ErrKind) (r : Reader) :
    s.withReader (α := α) (.raise e r) = .raise e { s with reader := r } := rfl
@[simp] theorem State.withReader_wait {α : Type} (s : State) : s.withReader (α := α) .wait = .wait := rfl
@[simp] theorem State.withReader_fault {α : Type} (s : State) (f : Fault) :
    s.withReader (α := α) (.fault f) = .fault f := rfl

@[simp] theorem Res.bind_ok {σ α β : Type} (a : α) (s : σ) (k : α → σ → Res σ β) : (Res.ok a s).bind k = k a s := rfl
@[simp] theorem Res.bind_raise {σ α β : Type} (e : ErrKind) (s : σ) (k : α → σ → Res σ β) :
    (Res.raise e s).bind k = .raise e s := rfl
@[simp] theorem Res.bind_wait {σ α β : Type} (k : α → σ → Res σ β) : (Res.wait : Res σ α).bind k = .wait := rfl
@[simp] theorem Res.bind_fault {σ α β : Type} (f : Fault) (k : α → σ → Res σ β) :
    (Res.fault f : Res σ α).bind k = .fault f := rfl

@[simp] theorem Res.settle_ok (u : Unit) (s s0 : State) : (Res.ok u s).settle s0 = .next s := rfl
@[simp] theorem Res.settle_raise (e : ErrKind) (s s0 : State) : (Res.raise e s).settle s0 = .next (s.raise e) := rfl
@[simp] theorem Res.settle_wait (s0 : State) : (Res.wait : Res State Unit).settle s0 = .next s0.wait := rfl
@[simp] theorem Res.settle_fault (f : Fault) (s0 : State) : (Res.fault f : Res State Unit).settle s0 = .fault f := rfl

@[simp] theorem Res.settleCommand_ok (v : Half) (s s0 : State) :
    (Res.ok v s).settleCommand s0 = .next (s.complete (.value v)) := rfl
@[simp] theorem Res.settleCommand_raise (e : ErrKind) (s s0 : State) :
    (Res.raise e s).settleCommand s0 = .next (s.complete (.error e)) := rfl
@[simp] theorem Res.settleCommand_wait (s0 : State) : (Res.wait : Res State Half).settleCommand s0 = .next s0.wait := rfl

end Sys2Proof.Machine
end

