-- ==== Sys2Proof/Laws/Reader.lean ====
section
/-! SUPPORT. What the reader's operations do: the bits they deliver and the reader they leave, where the host has answered what
they need; the wait where it has not; and what holds of the reader after every one of them, whatever the input. -/

namespace Sys2Proof.Machine

/-! ## Byte and carry bits -/

@[simp] theorem byteBits_length (o : BitOrder) (b : Byte) : (byteBits o b).length = 8 := by simp [byteBits]

@[simp] theorem Reader.carryBits_length (r : Reader) : r.carryBits.length = r.ccount.toNat := by simp [Reader.carryBits]

/-- The bits of bytes come by the eight. -/
theorem flatMap_byteBits_length (o : BitOrder) (bs : List Byte) : (bs.flatMap (byteBits o)).length = 8 * bs.length := by
  induction bs with
  | nil => rfl
  | cons b bs ih => simp [ih]; omega

/-- How many bits are ahead of the reader. -/
theorem Reader.bitsAhead_length (o : BitOrder) (r : Reader) :
    (r.bitsAhead o).length = r.ccount.toNat + 8 * ((r.input.getD []).length - r.pos) := by
  simp only [Reader.bitsAhead, List.length_append, Reader.carryBits_length, flatMap_byteBits_length, Reader.bytesAhead,
    List.length_drop]

/-- How many bits are offered. -/
theorem Reader.bitsOffered_length (o : BitOrder) (r : Reader) :
    (r.bitsOffered o).length = r.ccount.toNat + 8 * (min r.granted (r.input.getD []).length - r.pos) := by
  simp only [Reader.bitsOffered, List.length_append, Reader.carryBits_length, flatMap_byteBits_length, Reader.bytesOffered,
    List.length_drop, List.length_take]

theorem Reader.bitsOffered_length_le (o : BitOrder) (r : Reader) : (r.bitsOffered o).length ≤ (r.bitsAhead o).length := by
  rw [Reader.bitsOffered_length, Reader.bitsAhead_length]; omega

/-- What is offered are the first of the bytes ahead. -/
theorem Reader.bytesOffered_eq (r : Reader) : r.bytesOffered = r.bytesAhead.take (r.granted - r.pos) := by
  rw [Reader.bytesOffered, Reader.bytesAhead, List.drop_take]

/-- An answered INPUT is offered whole. -/
theorem Reader.bytesOffered_answered {r : Reader} (h : r.answered) : r.bytesOffered = r.bytesAhead := by
  rw [Reader.bytesOffered, Reader.bytesAhead, List.take_of_length_le (by have := h.2; omega)]

theorem Reader.bitsOffered_answered {o : BitOrder} {r : Reader} (h : r.answered) : r.bitsOffered o = r.bitsAhead o := by
  rw [Reader.bitsOffered, Reader.bitsAhead, Reader.bytesOffered_answered h]

/-- The bits offered are the first of the bits ahead. -/
theorem Reader.bitsOffered_append (o : BitOrder) (r : Reader) : ∃ rest, r.bitsAhead o = r.bitsOffered o ++ rest := by
  refine ⟨(r.bytesAhead.drop (r.granted - r.pos)).flatMap (byteBits o), ?_⟩
  rw [Reader.bitsOffered, Reader.bitsAhead, Reader.bytesOffered_eq, List.append_assoc, ← List.flatMap_append,
    List.take_append_drop]

/-- Bits that are offered are the bits ahead. -/
theorem Reader.bitsAhead_take {o : BitOrder} {n : Nat} {r : Reader} (h : n ≤ (r.bitsOffered o).length) :
    (r.bitsAhead o).take n = (r.bitsOffered o).take n := by
  obtain ⟨rest, hr⟩ := Reader.bitsOffered_append o r
  rw [hr, List.take_append_of_le_length h]

/-- Bits ahead of an answered reader can be read. -/
theorem Reader.answered.readable {o : BitOrder} {n : Nat} {r : Reader} (ha : r.answered) (ho : r.orderFits o)
    (hn : n ≤ (r.bitsAhead o).length) : r.readable o n := ⟨ho, by rwa [Reader.bitsOffered_answered ha]⟩

theorem Reader.readable.ahead {o : BitOrder} {n : Nat} {r : Reader} (h : r.readable o n) : n ≤ (r.bitsAhead o).length :=
  le_trans h.2 (Reader.bitsOffered_length_le o r)

theorem Reader.carryBits_nil {r : Reader} (h : r.ccount = 0) : r.carryBits = [] := by
  simp [Reader.carryBits, h]

/-- The carry's next bit, and the carry without it. -/
theorem Reader.carryBits_cons {r : Reader} (h : r.ccount ≠ 0) :
    r.carryBits = bitOf r.corder r.curByte r.ccount.toNat :: ({ r with ccount := r.ccount - 1 } : Reader).carryBits := by
  have hpos : r.ccount.toNat ≠ 0 := fun hz => h (BitVec.eq_of_toNat_eq (by simpa using hz))
  have hsub : (r.ccount - 1).toNat = r.ccount.toNat - 1 := by
    have := r.ccount.isLt
    rw [BitVec.toNat_sub]; simp; omega
  obtain ⟨k, hk⟩ : ∃ k, r.ccount.toNat = k + 1 := ⟨r.ccount.toNat - 1, by omega⟩
  simp only [Reader.carryBits, hsub, hk, List.range_succ_eq_map, List.map_cons, List.map_map]
  simp only [Nat.add_sub_cancel, Nat.sub_zero, List.cons.injEq, true_and]
  apply List.map_congr_left
  intro j hj
  simp only [Function.comp, Nat.succ_eq_add_one]
  congr 1
  omega

/-- The bits of a byte: the first, and the carry a reader keeps of it. -/
theorem byteBits_cons (o : BitOrder) (b : Byte) (r : Reader) :
    byteBits o b = bitOf o b 8 :: ({ r with curByte := b, corder := o, ccount := 7 } : Reader).carryBits := by
  simp only [byteBits, Reader.carryBits]
  rfl

/-! ## The reader moved on -/

theorem Reader.advance_zero (o : BitOrder) (r : Reader) : r.advance o 0 = r := by
  simp [Reader.advance]

@[simp] theorem Reader.advance_input (o : BitOrder) (n : Nat) (r : Reader) : (r.advance o n).input = r.input := by
  unfold Reader.advance; split <;> rfl

@[simp] theorem Reader.advance_granted (o : BitOrder) (n : Nat) (r : Reader) : (r.advance o n).granted = r.granted := by
  unfold Reader.advance; split <;> rfl

/-- The carry's count after a move. -/
theorem Reader.advance_ccount (o : BitOrder) (n : Nat) (r : Reader) :
    (r.advance o n).ccount.toNat =
      if n ≤ r.ccount.toNat then r.ccount.toNat - n
      else 8 * ((n - r.ccount.toNat + 7) / 8) - (n - r.ccount.toNat) := by
  have := r.ccount.isLt
  unfold Reader.advance
  split
  · simp; omega
  · simp; omega

theorem Reader.advance_pos (o : BitOrder) (n : Nat) (r : Reader) :
    (r.advance o n).pos = if n ≤ r.ccount.toNat then r.pos else r.pos + (n - r.ccount.toNat + 7) / 8 := by
  unfold Reader.advance; split <;> rfl

/-- The stream position 8 * pos - ccount moves on by `n` (10_state R34). -/
theorem Reader.advance_position (o : BitOrder) (n : Nat) (r : Reader) :
    8 * (r.advance o n).pos + r.ccount.toNat = 8 * r.pos + (r.advance o n).ccount.toNat + n := by
  rw [Reader.advance_pos, Reader.advance_ccount]
  split <;> omega

theorem Reader.advance_orderFits {o : BitOrder} {r : Reader} (n : Nat) (h : r.orderFits o) : (r.advance o n).orderFits o := by
  unfold Reader.orderFits at *
  unfold Reader.advance
  split
  · rename_i hn
    rcases h with h | h
    · left
      have : n = 0 := by simpa [h] using hn
      simp [this, h]
    · right; exact h
  · right; rfl

/-- The bits offered to a reader moved on. -/
theorem Reader.bitsOffered_length_advance {o : BitOrder} {m : Nat} {r : Reader} (hm : m ≤ (r.bitsOffered o).length) :
    ((r.advance o m).bitsOffered o).length = (r.bitsOffered o).length - m := by
  rw [Reader.bitsOffered_length] at *
  rw [Reader.bitsOffered_length, Reader.advance_input, Reader.advance_granted, Reader.advance_pos, Reader.advance_ccount]
  split <;> omega

/-- Moving on in two parts is moving on once. -/
theorem Reader.advance_advance (o : BitOrder) (m n : Nat) (r : Reader) :
    (r.advance o m).advance o n = r.advance o (m + n) := by
  have hc := r.ccount.isLt
  have hm := Reader.advance_ccount o m r
  rw [Reader.advance.eq_1 o n, hm]
  by_cases h1 : m ≤ r.ccount.toNat
  · rw [if_pos h1]
    by_cases h2 : n ≤ r.ccount.toNat - m
    · rw [if_pos h2]
      simp only [Reader.advance, if_pos h1, if_pos (show m + n ≤ r.ccount.toNat by omega)]
      congr 2; omega
    · rw [if_neg h2]
      simp only [Reader.advance, if_pos h1, if_neg (show ¬ m + n ≤ r.ccount.toNat by omega)]
      have : n - (r.ccount.toNat - m) = m + n - r.ccount.toNat := by omega
      rw [this]
  · rw [if_neg h1]
    have h1' : ¬ m + n ≤ r.ccount.toNat := by omega
    by_cases h2 : n ≤ 8 * ((m - r.ccount.toNat + 7) / 8) - (m - r.ccount.toNat)
    · rw [if_pos h2]
      simp only [Reader.advance, if_neg h1, if_neg h1']
      have hq : (m - r.ccount.toNat + 7) / 8 = (m + n - r.ccount.toNat + 7) / 8 := by omega
      rw [hq]
      congr 2
      omega
    · rw [if_neg h2]
      simp only [Reader.advance, if_neg h1, if_neg h1']
      have hq : (m + n - r.ccount.toNat + 7) / 8 = (m - r.ccount.toNat + 7) / 8 +
          (n - (8 * ((m - r.ccount.toNat + 7) / 8) - (m - r.ccount.toNat)) + 7) / 8 := by omega
      rw [hq]
      congr 1
      · omega
      · congr 1; omega
      · congr 1; omega

/-! ## One bit -/

/-- The one-bit move out of the carry. -/
theorem Reader.advance_one_carry {r : Reader} (o : BitOrder) (h : r.ccount ≠ 0) :
    r.advance o 1 = { r with ccount := r.ccount - 1 } := by
  have hpos : r.ccount.toNat ≠ 0 := fun hz => h (BitVec.eq_of_toNat_eq (by simpa using hz))
  have := r.ccount.isLt
  unfold Reader.advance
  rw [if_pos (by omega)]
  congr 1
  apply BitVec.eq_of_toNat_eq
  rw [BitVec.toNat_sub]; simp; omega

/-- The one-bit move into the next byte. -/
theorem Reader.advance_one_fetch {r : Reader} {b : Byte} (o : BitOrder) (h : r.ccount = 0)
    (hb : (r.input.getD [])[r.pos]? = some b) :
    r.advance o 1 = { r with pos := r.pos + 1, curByte := b, ccount := 7, corder := o } := by
  simp [Reader.advance, h, List.getD, hb]

/-- A fetch of an answered byte. -/
theorem Reader.fetchByte_some {r : Reader} {bytes : List Byte} {b : Byte} (hi : r.input = some bytes) (hg : r.pos < r.granted)
    (hb : bytes[r.pos]? = some b) : r.fetchByte = .ok (some b) { r with pos := r.pos + 1 } := by
  simp [Reader.fetchByte, hi, Nat.not_le.mpr hg, hb]

/-- A fetch at the answered end of the input. -/
theorem Reader.fetchByte_none {r : Reader} {bytes : List Byte} (hi : r.input = some bytes) (hg : r.pos < r.granted)
    (hb : bytes.length ≤ r.pos) : r.fetchByte = .ok none r := by
  simp [Reader.fetchByte, hi, Nat.not_le.mpr hg, List.getElem?_eq_none hb]

theorem Reader.bytesAhead_cons {r : Reader} (h : r.pos < (r.input.getD []).length) :
    r.bytesAhead = (r.input.getD [])[r.pos] :: ({ r with pos := r.pos + 1 } : Reader).bytesAhead := by
  simp only [Reader.bytesAhead]
  exact List.drop_eq_getElem_cons h

/-- TakeBit on a reader that can read a bit: the bit, and the reader one bit on (40_bitreader R111). -/
theorem Reader.takeBit_readable {o : BitOrder} {r : Reader} {b : Bool} {rest : List Bool} (h : r.readable o 1)
    (hb : r.bitsAhead o = b :: rest) :
    r.takeBit o = .ok b (r.advance o 1) ∧ (r.advance o 1).bitsAhead o = rest := by
  obtain ⟨ho, hn⟩ := h
  by_cases hc : r.ccount = 0
  · obtain ⟨hlen, hg⟩ : r.pos < (r.input.getD []).length ∧ r.pos < r.granted := by
      have h0 : r.ccount.toNat = 0 := by rw [hc]; rfl
      rw [Reader.bitsOffered_length] at hn
      omega
    obtain ⟨bytes, hbytes⟩ : ∃ bytes, r.input = some bytes := by
      cases hi : r.input with
      | none => simp [hi] at hlen
      | some bytes => exact ⟨bytes, rfl⟩
    have hgetD : r.input.getD [] = bytes := by simp [hbytes]
    have hlen' : r.pos < bytes.length := by rwa [hgetD] at hlen
    have hget : bytes[r.pos]? = some bytes[r.pos] := List.getElem?_eq_getElem hlen'
    have hget' : (r.input.getD [])[r.pos]? = some bytes[r.pos] := by rw [hgetD]; exact hget
    rw [Reader.advance_one_fetch o hc hget']
    have hsplit : r.bitsAhead o = bitOf o bytes[r.pos] 8 ::
        ({ r with pos := r.pos + 1, curByte := bytes[r.pos], ccount := 7, corder := o } : Reader).bitsAhead o := by
      have hcons : r.bytesAhead = bytes[r.pos] :: ({ r with pos := r.pos + 1 } : Reader).bytesAhead := by
        rw [Reader.bytesAhead_cons hlen]; congr 1; simp [hbytes]
      rw [Reader.bitsAhead, Reader.carryBits_nil hc, hcons, List.flatMap_cons, byteBits_cons o _ r]
      rfl
    rw [hsplit] at hb
    injection hb with h1 h2
    refine ⟨?_, h2⟩
    rw [Reader.takeBit, if_pos hc, Reader.fetchByte_some hbytes (by omega) hget]
    simp [h1]
  · have ho' : r.corder = o := ho.resolve_left hc
    rw [Reader.advance_one_carry o hc]
    have hsplit : r.bitsAhead o = bitOf o r.curByte r.ccount.toNat ::
        ({ r with ccount := r.ccount - 1 } : Reader).bitsAhead o := by
      rw [Reader.bitsAhead, Reader.carryBits_cons hc, ho']
      rfl
    rw [hsplit] at hb
    injection hb with h1 h2
    refine ⟨?_, h2⟩
    rw [Reader.takeBit, if_neg hc, if_neg (by simp [ho']), h1]

/-- The bits ahead of a reader moved on. -/
theorem Reader.bitsAhead_advance {o : BitOrder} {n : Nat} {r : Reader} (h : r.readable o n) :
    (r.advance o n).bitsAhead o = (r.bitsAhead o).drop n := by
  induction n generalizing r with
  | zero => simp [Reader.advance_zero]
  | succ n ih =>
    obtain ⟨b, rest, hb⟩ : ∃ b rest, r.bitsAhead o = b :: rest := by
      cases hr : r.bitsAhead o with
      | nil => have := h.ahead; simp [hr] at this
      | cons b rest => exact ⟨b, rest, rfl⟩
    have hn := h.2
    have h1 := (Reader.takeBit_readable ⟨h.1, by omega⟩ hb).2
    rw [Nat.add_comm, ← Reader.advance_advance, ih, h1, hb, Nat.add_comm]
    · rfl
    · exact ⟨Reader.advance_orderFits 1 h.1, by rw [Reader.bitsOffered_length_advance (by omega)]; omega⟩

/-- What is left to read after a part was read. -/
theorem Reader.readable_advance {o : BitOrder} {m n : Nat} {r : Reader} (h : r.readable o (m + n)) :
    (r.advance o m).readable o n := by
  have := h.2
  exact ⟨Reader.advance_orderFits m h.1, by rw [Reader.bitsOffered_length_advance (by omega)]; omega⟩

/-! ## Several bits -/

/-- A bit put below a value shifted up is the arithmetic sum. -/
theorem shiftLeft_or_bit (a : Nat) (b : Bool) :
    (BitVec.ofNat 16 a <<< 1) ||| bitValue b = BitVec.ofNat 16 (2 * a + b.toNat) := by
  have h : (BitVec.ofNat 16 a <<< 1) &&& bitValue b = 0 := by
    apply BitVec.eq_of_getLsbD_eq
    intro i hi
    cases i <;> simp [bitValue]
  rw [← BitVec.add_eq_or_of_and_eq_zero _ _ h]
  apply BitVec.eq_of_toNat_eq
  cases b <;> simp [bitValue, Nat.shiftLeft_eq, Nat.add_mod, Nat.mul_comm]

/-- ReadBitsLSB's loop delivers the bits ahead, the first one at bit `i` (40_bitreader R114). -/
theorem Reader.takeBitsLsb_readable {k i : Nat} {v : Half} {r : Reader} (h : r.readable .lsb k) :
    Reader.takeBitsLsb k i v r =
      .ok (v ||| (BitVec.ofNat 16 (lsbValue ((r.bitsAhead .lsb).take k)) <<< i)) (r.advance .lsb k) := by
  induction k generalizing i v r with
  | zero => simp [Reader.takeBitsLsb, lsbValue, Reader.advance_zero]
  | succ k ih =>
    obtain ⟨b, rest, hb⟩ : ∃ b rest, r.bitsAhead .lsb = b :: rest := by
      cases hr : r.bitsAhead .lsb with
      | nil => have := h.ahead; simp [hr] at this
      | cons b rest => exact ⟨b, rest, rfl⟩
    have h1 := Reader.takeBit_readable ⟨h.1, by have := h.2; omega⟩ hb
    have h2 : (r.advance .lsb 1).readable .lsb k := Reader.readable_advance (by rwa [Nat.add_comm 1 k])
    rw [Reader.takeBitsLsb, h1.1, Res.bind_ok, ih h2, Reader.advance_advance, h1.2, hb, Nat.add_comm 1 k]
    congr 1
    rw [BitVec.or_assoc]
    congr 1
    simp only [List.take_succ_cons, lsbValue, List.foldr_cons]
    rw [Nat.add_comm b.toNat, ← shiftLeft_or_bit, BitVec.shiftLeft_or_distrib, BitVec.or_comm, ← BitVec.shiftLeft_add,
      Nat.add_comm i 1]

/-- ReadBitsMSB's loop delivers the bits ahead, the first one highest (40_bitreader R115). -/
theorem Reader.takeBitsMsb_readable {k a : Nat} {r : Reader} (h : r.readable .msb k) :
    Reader.takeBitsMsb k (BitVec.ofNat 16 a) r =
      .ok (BitVec.ofNat 16 (((r.bitsAhead .msb).take k).foldl (fun acc b => 2 * acc + b.toNat) a)) (r.advance .msb k) := by
  induction k generalizing a r with
  | zero => simp [Reader.takeBitsMsb, Reader.advance_zero]
  | succ k ih =>
    obtain ⟨b, rest, hb⟩ : ∃ b rest, r.bitsAhead .msb = b :: rest := by
      cases hr : r.bitsAhead .msb with
      | nil => have := h.ahead; simp [hr] at this
      | cons b rest => exact ⟨b, rest, rfl⟩
    have h1 := Reader.takeBit_readable ⟨h.1, by have := h.2; omega⟩ hb
    have h2 : (r.advance .msb 1).readable .msb k := Reader.readable_advance (by rwa [Nat.add_comm 1 k])
    rw [Reader.takeBitsMsb, h1.1, Res.bind_ok, shiftLeft_or_bit, ih h2, Reader.advance_advance, h1.2, hb, Nat.add_comm 1 k]
    rfl

/-- ReadBitsLSB(n) delivers the field of `n` bits ahead (40_bitreader R114). -/
theorem Reader.readBitsLsb_readable {n : Nat} {r : Reader} (hn : n ≤ 16) (h : r.readable .lsb n) :
    r.readBitsLsb n = .ok (BitVec.ofNat 16 (r.field n)) (r.advance .lsb n) := by
  rw [Reader.readBitsLsb, if_neg (by omega), Reader.takeBitsLsb_readable h]
  simp [Reader.field]

/-- ReadBitsMSB(n) delivers the `n` bits ahead, the first one highest (40_bitreader R115). -/
theorem Reader.readBitsMsb_readable {n : Nat} {r : Reader} (hn : n ≤ 16) (h : r.readable .msb n) :
    r.readBitsMsb n = .ok (BitVec.ofNat 16 (msbValue ((r.bitsAhead .msb).take n))) (r.advance .msb n) := by
  rw [Reader.readBitsMsb, if_neg (by omega)]
  exact Reader.takeBitsMsb_readable h

/-- The value of at most `n` bits. -/
theorem lsbValue_lt (bits : List Bool) : lsbValue bits < 2 ^ bits.length := by
  induction bits with
  | nil => simp [lsbValue]
  | cons b bits ih =>
    simp only [lsbValue, List.foldr_cons, List.length_cons] at *
    have := Bool.toNat_le b
    omega

/-- A field of `n` bits is below 2^n. -/
theorem Reader.field_lt (n : Nat) (r : Reader) : r.field n < 2 ^ n :=
  lt_of_lt_of_le (lsbValue_lt _) (Nat.pow_le_pow_right (by decide) (by simp))

/-! ## An input that ends inside a field -/

/-- TakeBit with nothing ahead (40_bitreader R111, R120). -/
theorem Reader.takeBit_short {o : BitOrder} {r : Reader} (h : r.short o 1) :
    r.takeBit o = .raise .unexpectedEndOfInput r := by
  obtain ⟨⟨hi, hg⟩, ho, hp, hl⟩ := h
  obtain ⟨bytes, hb⟩ := Option.isSome_iff_exists.mp hi
  rw [Reader.bitsAhead_length] at hl
  simp only [hb, Option.getD_some] at hg hp hl
  have hc : r.ccount = 0 := BitVec.eq_of_toNat_eq (by simp; omega)
  simp only [Reader.takeBit, hc, if_true, Reader.fetchByte_none hb (by omega) (by omega), Res.bind_ok]

/-- TakeBit of a byte opened in the other order (40_bitreader R111). -/
theorem Reader.takeBit_mix {o : BitOrder} {r : Reader} (h : ¬ r.orderFits o) : r.takeBit o = .raise .bitOrderMix r := by
  rw [Reader.takeBit, if_neg fun hc => h (Or.inl hc), if_pos fun ho => h (Or.inr ho)]

/-- A short reader one bit on is short of one bit less, and drains to the same reader. -/
theorem Reader.short_advance {o : BitOrder} {m n : Nat} {r : Reader} (h : r.short o (m + n))
    (hm : m ≤ (r.bitsAhead o).length) : (r.advance o m).short o n ∧ (r.advance o m).drained o = r.drained o := by
  obtain ⟨ha, ho, hp, hl⟩ := h
  have hb := Reader.bitsAhead_advance (n := m) (ha.readable ho hm)
  refine ⟨⟨by simpa [Reader.answered] using ha, Reader.advance_orderFits m ho, ?_, ?_⟩, ?_⟩
  · rw [Reader.advance_input, Reader.advance_pos]
    rw [Reader.bitsAhead_length] at hm
    have := r.ccount.isLt
    split <;> omega
  · rw [hb, List.length_drop]; omega
  · rw [Reader.drained, Reader.drained, hb, Reader.advance_advance, List.length_drop]
    congr 1; omega

/-- A bit taken where one is ahead. -/
theorem Reader.takeBit_some {o : BitOrder} {r : Reader} (h : r.readable o 1) : ∃ b, r.takeBit o = .ok b (r.advance o 1) := by
  cases hb : r.bitsAhead o with
  | nil => have := h.ahead; simp [hb] at this
  | cons b rest => exact ⟨b, (Reader.takeBit_readable h hb).1⟩

/-- ReadBitsLSB's loop on an input that ends inside it (40_bitreader R114, R120). -/
theorem Reader.takeBitsLsb_short {k i : Nat} {v : Half} {r : Reader} (h : r.short .lsb k) :
    Reader.takeBitsLsb k i v r = .raise .unexpectedEndOfInput (r.drained .lsb) := by
  induction k generalizing i v r with
  | zero => exact absurd h.2.2.2 (by omega)
  | succ k ih =>
    rw [Reader.takeBitsLsb]
    by_cases hne : 1 ≤ (r.bitsAhead .lsb).length
    · obtain ⟨b, hb⟩ := Reader.takeBit_some (h.1.readable h.2.1 hne)
      have h2 := Reader.short_advance (m := 1) (n := k) (by rwa [Nat.add_comm 1 k]) hne
      rw [hb, Res.bind_ok, ih h2.1, h2.2]
    · have h0 : (r.bitsAhead .lsb).length = 0 := by omega
      rw [Reader.takeBit_short ⟨h.1, h.2.1, h.2.2.1, by omega⟩, Reader.drained, h0, Reader.advance_zero, Res.bind_raise]

/-- ReadBitsMSB's loop on an input that ends inside it (40_bitreader R115, R120). -/
theorem Reader.takeBitsMsb_short {k : Nat} {v : Half} {r : Reader} (h : r.short .msb k) :
    Reader.takeBitsMsb k v r = .raise .unexpectedEndOfInput (r.drained .msb) := by
  induction k generalizing v r with
  | zero => exact absurd h.2.2.2 (by omega)
  | succ k ih =>
    rw [Reader.takeBitsMsb]
    by_cases hne : 1 ≤ (r.bitsAhead .msb).length
    · obtain ⟨b, hb⟩ := Reader.takeBit_some (h.1.readable h.2.1 hne)
      have h2 := Reader.short_advance (m := 1) (n := k) (by rwa [Nat.add_comm 1 k]) hne
      rw [hb, Res.bind_ok, ih h2.1, h2.2]
    · have h0 : (r.bitsAhead .msb).length = 0 := by omega
      rw [Reader.takeBit_short ⟨h.1, h.2.1, h.2.2.1, by omega⟩, Reader.drained, h0, Reader.advance_zero, Res.bind_raise]

/-- ReadBitsLSB(n) on an input that ends inside the field (40_bitreader R114, R120). -/
theorem Reader.readBitsLsb_short {n : Nat} {r : Reader} (hn : n ≤ 16) (h : r.short .lsb n) :
    r.readBitsLsb n = .raise .unexpectedEndOfInput (r.drained .lsb) := by
  rw [Reader.readBitsLsb, if_neg (by omega), Reader.takeBitsLsb_short h]

/-- ReadBitsMSB(n) on an input that ends inside the field (40_bitreader R115, R120). -/
theorem Reader.readBitsMsb_short {n : Nat} {r : Reader} (hn : n ≤ 16) (h : r.short .msb n) :
    r.readBitsMsb n = .raise .unexpectedEndOfInput (r.drained .msb) := by
  rw [Reader.readBitsMsb, if_neg (by omega), Reader.takeBitsMsb_short h]

/-! ## Raw bytes -/

/-- ReadRawByte of an answered byte, whatever comes after it (40_bitreader R116). -/
theorem Reader.readRawByte_some {r : Reader} {b : Byte} (hg : r.pos < r.granted) (hc : r.ccount = 0)
    (hb : (r.input.getD [])[r.pos]? = some b) : r.readRawByte = .ok b { r with pos := r.pos + 1 } := by
  cases hi : r.input with
  | none => simp [hi] at hb
  | some bytes => simp [Reader.readRawByte, hc, hi, Reader.fetchByte_some hi hg (by simpa [hi] using hb)]

/-- ReadRawByte at the answered end of the input (40_bitreader R116). -/
theorem Reader.readRawByte_end {r : Reader} (ha : r.answered) (hc : r.ccount = 0) (hp : r.pos = (r.input.getD []).length) :
    r.readRawByte = .raise .unexpectedEndOfInput r := by
  obtain ⟨hi, hg⟩ := ha
  obtain ⟨bytes, hb⟩ := Option.isSome_iff_exists.mp hi
  simp only [hb, Option.getD_some] at hg hp
  simp [Reader.readRawByte, hc, Reader.fetchByte_none hb (by omega) (by omega)]

/-! ## A host that has not answered -/

/-- A FetchByte the host has not answered waits (20_memory R62, 93 I9). -/
theorem Reader.fetchByte_wait {r : Reader} (h : r.input = none ∨ r.granted ≤ r.pos) : r.fetchByte = .wait := by
  unfold Reader.fetchByte
  cases hi : r.input with
  | none => rfl
  | some bytes => simp only [if_pos (h.resolve_left (by simp [hi]))]

/-- ReadRawByte of a byte the host has not answered. -/
theorem Reader.readRawByte_wait {r : Reader} (hc : r.ccount = 0) (h : r.input = none ∨ r.granted ≤ r.pos) :
    r.readRawByte = .wait := by
  simp [Reader.readRawByte, hc, Reader.fetchByte_wait h, Res.bind]

/-- TakeBit that needs a byte the host has not answered. -/
theorem Reader.takeBit_waits {o : BitOrder} {r : Reader} (h : r.waits o 1) : r.takeBit o = .wait := by
  obtain ⟨ha, -, hn⟩ := h
  rw [Reader.bitsOffered_length] at hn
  have hc : r.ccount = 0 := BitVec.eq_of_toNat_eq (by simp; omega)
  have hw : r.input = none ∨ r.granted ≤ r.pos := by
    cases hi : r.input with
    | none => exact Or.inl rfl
    | some bytes => right; simp [Reader.answered, hi] at ha hn; omega
  simp [Reader.takeBit, hc, Reader.fetchByte_wait hw, Res.bind]

/-- A read that waits still waits after the bits offered were read. -/
theorem Reader.waits_advance {o : BitOrder} {m n : Nat} {r : Reader} (h : r.waits o (m + n))
    (hm : m ≤ (r.bitsOffered o).length) : (r.advance o m).waits o n := by
  obtain ⟨ha, ho, hl⟩ := h
  refine ⟨by simpa [Reader.answered] using ha, Reader.advance_orderFits m ho, ?_⟩
  rw [Reader.bitsOffered_length_advance hm]; omega

/-- ReadBitsLSB's loop reaching an unanswered FetchByte. -/
theorem Reader.takeBitsLsb_waits {k i : Nat} {v : Half} {r : Reader} (h : r.waits .lsb k) :
    Reader.takeBitsLsb k i v r = .wait := by
  induction k generalizing i v r with
  | zero => exact absurd h.2.2 (by omega)
  | succ k ih =>
    rw [Reader.takeBitsLsb]
    by_cases hne : 1 ≤ (r.bitsOffered .lsb).length
    · obtain ⟨b, hb⟩ := Reader.takeBit_some ⟨h.2.1, hne⟩
      rw [hb, Res.bind_ok, ih (Reader.waits_advance (by rwa [Nat.add_comm 1 k]) hne)]
    · rw [Reader.takeBit_waits ⟨h.1, h.2.1, by omega⟩]; rfl

/-- ReadBitsMSB's loop reaching an unanswered FetchByte. -/
theorem Reader.takeBitsMsb_waits {k : Nat} {v : Half} {r : Reader} (h : r.waits .msb k) :
    Reader.takeBitsMsb k v r = .wait := by
  induction k generalizing v r with
  | zero => exact absurd h.2.2 (by omega)
  | succ k ih =>
    rw [Reader.takeBitsMsb]
    by_cases hne : 1 ≤ (r.bitsOffered .msb).length
    · obtain ⟨b, hb⟩ := Reader.takeBit_some ⟨h.2.1, hne⟩
      rw [hb, Res.bind_ok, ih (Reader.waits_advance (by rwa [Nat.add_comm 1 k]) hne)]
    · rw [Reader.takeBit_waits ⟨h.1, h.2.1, by omega⟩]; rfl

/-- ReadBitsLSB(n) reaching an unanswered FetchByte (20_memory R62). -/
theorem Reader.readBitsLsb_waits {n : Nat} {r : Reader} (hn : n ≤ 16) (h : r.waits .lsb n) : r.readBitsLsb n = .wait := by
  rw [Reader.readBitsLsb, if_neg (by omega), Reader.takeBitsLsb_waits h]

/-- ReadBitsMSB(n) reaching an unanswered FetchByte (20_memory R62). -/
theorem Reader.readBitsMsb_waits {n : Nat} {r : Reader} (hn : n ≤ 16) (h : r.waits .msb n) : r.readBitsMsb n = .wait := by
  rw [Reader.readBitsMsb, if_neg (by omega), Reader.takeBitsMsb_waits h]

end Sys2Proof.Machine
end

