-- ==== Sys2Proof/Laws/Meets.lean ====
section
/-! SUPPORT. What holds of the state after an operation on every path: a small logic of the four answers (Res.Meets), and one
lemma in it for each reader operation and each decode. -/

namespace Sys2Proof.Machine

/-! ## The logic -/

/-- `r` answers a value with `okP`, or raises with `raiseP`, or waits only where `waitP`, or faults only with `faultP`. -/
def Res.Meets {σ α : Type} (r : Res σ α) (okP : α → σ → Prop) (raiseP : ErrKind → σ → Prop) (waitP : Prop)
    (faultP : Fault → Prop) : Prop :=
  match r with
  | .ok a s => okP a s
  | .raise e s => raiseP e s
  | .wait => waitP
  | .fault f => faultP f

/-- The rule of sequence. -/
theorem Res.Meets.bind {σ α β : Type} {r : Res σ α} {k : α → σ → Res σ β} {okP : α → σ → Prop} {okQ : β → σ → Prop}
    {raiseP : ErrKind → σ → Prop} {waitP : Prop} {faultP : Fault → Prop} (h : r.Meets okP raiseP waitP faultP)
    (hk : ∀ a s, okP a s → (k a s).Meets okQ raiseP waitP faultP) : (r.bind k).Meets okQ raiseP waitP faultP := by
  cases r with
  | ok a s => exact hk a s h
  | raise e s => exact h
  | wait => exact h
  | fault f => exact h

/-- The rule of consequence. -/
theorem Res.Meets.mono {σ α : Type} {r : Res σ α} {okP okQ : α → σ → Prop} {raiseP raiseQ : ErrKind → σ → Prop}
    {waitP waitQ : Prop} {faultP faultQ : Fault → Prop} (h : r.Meets okP raiseP waitP faultP)
    (hok : ∀ a s, okP a s → okQ a s) (hraise : ∀ e s, raiseP e s → raiseQ e s) (hwait : waitP → waitQ)
    (hfault : ∀ f, faultP f → faultQ f) : r.Meets okQ raiseQ waitQ faultQ := by
  cases r with
  | ok a s => exact hok a s h
  | raise e s => exact hraise e s h
  | wait => exact hwait h
  | fault f => exact hfault f h

/-- A reader operation inside the machine. -/
theorem Res.Meets.withReader {α : Type} {s : State} {r : Res Reader α} {okP : α → Reader → Prop}
    {raiseP : ErrKind → Reader → Prop} {waitP : Prop} {faultP : Fault → Prop} (h : r.Meets okP raiseP waitP faultP) :
    (s.withReader r).Meets (fun a t => okP a t.reader ∧ t = { s with reader := t.reader })
      (fun e t => raiseP e t.reader ∧ t = { s with reader := t.reader }) waitP faultP := by
  cases r with
  | ok a x => exact ⟨h, rfl⟩
  | raise e x => exact ⟨h, rfl⟩
  | wait => exact h
  | fault f => exact h

/-! ## Readers in order of time -/

/-- `r'` comes after `r` on the same input: the stream position has not moved back (20_memory R61, 40_bitreader R110). -/
def Reader.Later (r r' : Reader) : Prop :=
  r'.input = r.input ∧ r'.granted = r.granted ∧ r.pos ≤ r'.pos ∧
    8 * r.pos + r'.ccount.toNat ≤ 8 * r'.pos + r.ccount.toNat ∧
    (r.pos ≤ (r.input.getD []).length → r'.pos ≤ (r'.input.getD []).length)

/-- No FetchByte of the reader waits: the input is answered and the position lies in it. -/
def Reader.Ready (r : Reader) : Prop := r.answered ∧ r.pos ≤ (r.input.getD []).length

theorem Reader.Later.refl (r : Reader) : r.Later r := ⟨rfl, rfl, le_rfl, le_rfl, id⟩

theorem Reader.Later.trans {a b c : Reader} (h : a.Later b) (h' : b.Later c) : a.Later c := by
  obtain ⟨h1, h2, h3, h4, h5⟩ := h
  obtain ⟨k1, k2, k3, k4, k5⟩ := h'
  exact ⟨k1.trans h1, k2.trans h2, h3.trans k3, by omega, k5 ∘ h5⟩

theorem Reader.Ready.later {r r' : Reader} (h : r.Ready) (hl : r.Later r') : r'.Ready := by
  obtain ⟨⟨h1, h2⟩, h3⟩ := h
  obtain ⟨k1, k2, -, -, k5⟩ := hl
  exact ⟨⟨by rw [k1]; exact h1, by rw [k1, k2]; exact h2⟩, k5 h3⟩

/-- Bits left never grow. -/
theorem Reader.Later.bitsLeft_le {r r' : Reader} (h : r.Later r') (hr : r.Ready) : r'.bitsLeft ≤ r.bitsLeft := by
  have h3 := hr.2
  obtain ⟨k1, -, k3, k4, k5⟩ := h
  have := k5 h3
  simp only [Reader.bitsLeft]
  rw [k1] at *
  omega

/-- The carry thrown away: later, but for the bits it held. -/
theorem Reader.alignToByte_later (r : Reader) : r.Later r.alignToByte := by
  refine ⟨rfl, rfl, le_rfl, ?_, id⟩
  simp [Reader.alignToByte]

/-! ## One lemma for each operation -/

/-- `n` bits further on. -/
def Reader.Beyond (n : Nat) (r r' : Reader) : Prop :=
  r.Later r' ∧ 8 * r.pos + r'.ccount.toNat + n ≤ 8 * r'.pos + r.ccount.toNat

theorem Reader.Beyond.trans {m n : Nat} {a b c : Reader} (h : Reader.Beyond m a b) (h' : Reader.Beyond n b c) :
    Reader.Beyond (m + n) a c := ⟨h.1.trans h'.1, by have := h.2; have := h'.2; omega⟩

theorem Reader.Beyond.bitsLeft {n : Nat} {r r' : Reader} (h : Reader.Beyond n r r') (hr : r.Ready) :
    r'.bitsLeft + n ≤ r.bitsLeft := by
  have h3 := hr.2
  obtain ⟨⟨k1, -, k3, k4, k5⟩, k6⟩ := h
  have := k5 h3
  simp only [Reader.bitsLeft]
  rw [k1] at *
  omega

/-- FetchByte (20_memory R60, R62). -/
theorem Reader.fetchByte_meets (r : Reader) :
    r.fetchByte.Meets
      (fun f r' => r.Later r' ∧ r'.ccount = r.ccount ∧ r'.corder = r.corder ∧
        ((f = none ∧ r' = r ∧ (r.input.getD []).length ≤ r.pos) ∨
          (f.isSome = true ∧ f = (r.input.getD [])[r.pos]? ∧ r' = { r with pos := r.pos + 1 })))
      (fun _ _ => False) (¬ r.Ready) (fun _ => False) := by
  unfold Reader.fetchByte
  cases hi : r.input with
  | none => simp [Res.Meets, Reader.Ready, Reader.answered, hi]
  | some bytes =>
    simp only
    by_cases hg : r.granted ≤ r.pos
    · simp only [if_pos hg, Res.Meets, Reader.Ready, Reader.answered, hi]
      intro h; have h1 := h.1.2; have h2 := h.2; simp at h1 h2; omega
    · simp only [if_neg hg]
      by_cases hp : r.pos < bytes.length
      · rw [List.getElem?_eq_getElem hp]
        refine ⟨⟨by simp [hi], rfl, Nat.le_succ _, ?_, fun _ => ?_⟩, rfl, rfl, Or.inr ⟨rfl, ?_, rfl⟩⟩
        · simp
        · simp; omega
        · simp [hp]
      · rw [List.getElem?_eq_none (Nat.not_lt.mp hp)]
        exact ⟨Reader.Later.refl r, rfl, rfl, Or.inl ⟨rfl, rfl, by simpa using hp⟩⟩

/-- TakeBit (40_bitreader R111). -/
theorem Reader.takeBit_meets (o : BitOrder) (r : Reader) :
    (r.takeBit o).Meets (fun _ r' => Reader.Beyond 1 r r' ∧ (r'.orderFits o))
      (fun e r' => r' = r ∧ (e = .unexpectedEndOfInput ∨ (e = .bitOrderMix ∧ ¬ r.orderFits o)))
      (¬ r.Ready) (fun _ => False) := by
  unfold Reader.takeBit
  by_cases hc : r.ccount = 0
  · rw [if_pos hc]
    refine (r.fetchByte_meets.mono (fun _ _ h => h) (fun _ _ h => h.elim) id (fun _ h => h)).bind ?_
    rintro f r1 ⟨hl, -, -, ⟨rfl, rfl, -⟩ | ⟨hs, -, rfl⟩⟩
    · exact ⟨rfl, Or.inl rfl⟩
    · obtain ⟨b, rfl⟩ := Option.isSome_iff_exists.mp hs
      obtain ⟨h1, h2, h3, h4, h5⟩ := hl
      refine ⟨⟨⟨h1, h2, h3, ?_, h5⟩, ?_⟩, Or.inr rfl⟩ <;> simp [hc] <;> omega
  · rw [if_neg hc]
    by_cases ho : r.corder = o
    · rw [if_neg (by simp [ho])]
      have hpos : r.ccount.toNat ≠ 0 := fun hz => hc (BitVec.eq_of_toNat_eq (by simpa using hz))
      have hsub : (r.ccount - 1).toNat = r.ccount.toNat - 1 := by
        have := r.ccount.isLt
        rw [BitVec.toNat_sub]; simp; omega
      refine ⟨⟨⟨rfl, rfl, le_rfl, ?_, id⟩, ?_⟩, Or.inr ho⟩ <;> simp only [hsub] <;> omega
    · rw [if_pos ho]
      exact ⟨rfl, Or.inr ⟨rfl, fun h => h.elim hc ho⟩⟩

/-- What an LSB-first read of `n` bits meets (40_bitreader R114, R120). -/
def Reader.MeetsLsb {α : Type} (n : Nat) (r : Reader) (x : Res Reader α) (okP : α → Prop) : Prop :=
  x.Meets (fun a r' => Reader.Beyond n r r' ∧ (r.orderFits .lsb → r'.orderFits .lsb) ∧ okP a)
    (fun e r' => r.Later r' ∧ (r.orderFits .lsb → r'.orderFits .lsb) ∧
      (e = .unexpectedEndOfInput ∨ (e = .bitOrderMix ∧ ¬ r.orderFits .lsb)))
    (¬ r.Ready) (fun _ => False)

theorem Reader.takeBitsLsb_meets (k i : Nat) (v : Half) (r : Reader) :
    Reader.MeetsLsb k r (Reader.takeBitsLsb k i v r) (fun _ => True) := by
  induction k generalizing i v r with
  | zero => exact ⟨⟨Reader.Later.refl r, by omega⟩, id, trivial⟩
  | succ k ih =>
    refine Res.Meets.bind ((Reader.takeBit_meets .lsb r).mono (fun _ _ h => h) ?_ id (fun _ h => h)) ?_
    · rintro e r' ⟨rfl, h⟩
      exact ⟨Reader.Later.refl _, id, h⟩
    · rintro b r1 ⟨hb, hf⟩
      refine (ih (i + 1) _ r1).mono ?_ ?_ (fun h hr => h (hr.later hb.1)) (fun _ h => h)
      · rintro a r2 ⟨h1, h2, -⟩
        refine ⟨?_, fun _ => h2 hf, trivial⟩
        have := hb.trans h1
        rwa [Nat.add_comm 1 k] at this
      · rintro e r2 ⟨h1, h2, h3⟩
        exact ⟨hb.1.trans h1, fun _ => h2 hf, h3.imp id fun h => absurd hf h.2⟩

/-- ReadBitsLSB(n), n ≤ 16 (40_bitreader R114). -/
theorem Reader.readBitsLsb_meets {n : Nat} (hn : n ≤ 16) (r : Reader) :
    Reader.MeetsLsb n r (r.readBitsLsb n) (fun _ => True) := by
  rw [Reader.readBitsLsb, if_neg (by omega)]
  exact Reader.takeBitsLsb_meets n 0 0 r

/-- ReadRawByte (40_bitreader R116). -/
theorem Reader.readRawByte_meets (r : Reader) :
    r.readRawByte.Meets
      (fun _ r' => Reader.Beyond 8 r r' ∧ r'.ccount = 0 ∧ r'.corder = r.corder)
      (fun e r' => r' = r ∧ (e = .unexpectedEndOfInput ∨ (e = .misalignedRawRead ∧ r.ccount ≠ 0)))
      (¬ r.Ready) (fun _ => False) := by
  unfold Reader.readRawByte
  by_cases hc : r.ccount = 0
  · rw [if_neg (by simp [hc])]
    refine (r.fetchByte_meets.mono (fun _ _ h => h) (fun _ _ h => h.elim) id (fun _ h => h)).bind ?_
    rintro f r1 ⟨hl, -, -, ⟨rfl, rfl, -⟩ | ⟨hs, -, rfl⟩⟩
    · exact ⟨rfl, Or.inl rfl⟩
    · obtain ⟨b, rfl⟩ := Option.isSome_iff_exists.mp hs
      exact ⟨⟨hl, by simp; omega⟩, hc, rfl⟩
  · rw [if_pos hc]
    exact ⟨rfl, Or.inr ⟨rfl, hc⟩⟩

end Sys2Proof.Machine
end

