-- ==== Sys2Proof/Laws/Exhaustion.lean ====
section
/-! SUPPORT. UnexpectedEndOfInput leaves nothing unread (40_bitreader R120): one lemma for each operation that reads. -/

namespace Sys2Proof.Machine

/-- The carry is empty and every byte of INPUT was fetched. -/
def Reader.Spent (r : Reader) : Prop := r.ccount = 0 ∧ r.input.isSome = true ∧ (r.input.getD []).length ≤ r.pos

/-- An operation of the reader raises UnexpectedEndOfInput only with the reader spent. -/
def Res.EndsSpent {α : Type} (x : Res Reader α) : Prop :=
  x.Meets (fun _ _ => True) (fun e r => e = .unexpectedEndOfInput → r.Spent) True (fun _ => True)

/-- An operation of the machine raises UnexpectedEndOfInput only with its reader spent. -/
def Res.EndsRead {α : Type} (x : Res State α) : Prop :=
  x.Meets (fun _ _ => True) (fun e s => e = .unexpectedEndOfInput → s.reader.Spent) True (fun _ => True)

theorem Res.EndsSpent.bind {α β : Type} {x : Res Reader α} {k : α → Reader → Res Reader β} (h : x.EndsSpent)
    (hk : ∀ a r, (k a r).EndsSpent) : (x.bind k).EndsSpent := Res.Meets.bind h fun a r _ => hk a r

theorem Res.EndsRead.bind {α β : Type} {x : Res State α} {k : α → State → Res State β} (h : x.EndsRead)
    (hk : ∀ a s, (k a s).EndsRead) : (x.bind k).EndsRead := Res.Meets.bind h fun a s _ => hk a s

theorem Res.EndsSpent.withReader {α : Type} {x : Res Reader α} (h : x.EndsSpent) (s : State) : (s.withReader x).EndsRead :=
  (Res.Meets.withReader h).mono (fun _ _ _ => trivial) (fun _ _ hr he => hr.1 he) id (fun _ h => h)

theorem Res.EndsRead.ok {α : Type} (a : α) (s : State) : (Res.ok a s).EndsRead := trivial

/-- A raise of any other kind. -/
theorem Res.EndsRead.raise {α : Type} {e : ErrKind} (h : e ≠ .unexpectedEndOfInput) (s : State) :
    (Res.raise (α := α) e s).EndsRead := fun he => absurd he h

/-! ## The reader -/

theorem Reader.takeBit_endsSpent (o : BitOrder) (r : Reader) : (r.takeBit o).EndsSpent := by
  unfold Reader.takeBit Reader.fetchByte Res.EndsSpent
  cases hi : r.input with
  | none => split <;> [trivial; (split <;> simp [Res.Meets])]
  | some bytes =>
    by_cases hc : r.ccount = 0
    · by_cases hg : r.granted ≤ r.pos
      · simp [hc, hg, Res.bind, Res.Meets]
      · cases hb : bytes[r.pos]? with
        | some b => simp [hc, hg, hb, Res.bind, Res.Meets]
        | none =>
          have := List.getElem?_eq_none_iff.mp hb
          simp [hc, hg, Res.bind, Res.Meets, Reader.Spent, hi, this]
    · simp only [if_neg hc]; split <;> simp [Res.Meets]

theorem Reader.takeBitsLsb_endsSpent (k i : Nat) (v : Half) (r : Reader) : (Reader.takeBitsLsb k i v r).EndsSpent := by
  induction k generalizing i v r with
  | zero => trivial
  | succ k ih => exact (Reader.takeBit_endsSpent .lsb r).bind fun _ _ => ih _ _ _

theorem Reader.takeBitsMsb_endsSpent (k : Nat) (v : Half) (r : Reader) : (Reader.takeBitsMsb k v r).EndsSpent := by
  induction k generalizing v r with
  | zero => trivial
  | succ k ih => exact (Reader.takeBit_endsSpent .msb r).bind fun _ _ => ih _ _

theorem Reader.readBitsLsb_endsSpent (n : Nat) (r : Reader) : (r.readBitsLsb n).EndsSpent := by
  unfold Reader.readBitsLsb
  split
  · intro h; cases h
  · exact Reader.takeBitsLsb_endsSpent n 0 0 r

theorem Reader.readBitsMsb_endsSpent (n : Nat) (r : Reader) : (r.readBitsMsb n).EndsSpent := by
  unfold Reader.readBitsMsb
  split
  · intro h; cases h
  · exact Reader.takeBitsMsb_endsSpent n 0 r

theorem Reader.readRawByte_endsSpent (r : Reader) : r.readRawByte.EndsSpent := by
  unfold Reader.readRawByte Reader.fetchByte Res.EndsSpent
  by_cases hc : r.ccount = 0
  · cases hi : r.input with
    | none => simp [hc, Res.bind, Res.Meets]
    | some bytes =>
      by_cases hg : r.granted ≤ r.pos
      · simp [hc, hg, Res.bind, Res.Meets]
      · cases hb : bytes[r.pos]? with
        | some b => simp [hc, hg, hb, Res.bind, Res.Meets]
        | none =>
          have := List.getElem?_eq_none_iff.mp hb
          simp [hc, hg, Res.bind, Res.Meets, Reader.Spent, hi, this]
  · rw [if_pos hc]
    intro h; cases h

theorem Reader.readRawHalf_endsSpent (r : Reader) : r.readRawHalf.EndsSpent :=
  (Reader.readRawByte_endsSpent r).bind fun _ r1 => (Reader.readRawByte_endsSpent r1).bind fun _ _ => trivial

theorem Reader.decodeLoop_endsSpent (t : Table) (fuel c k : Nat) (r : Reader) : (r.decodeLoop t fuel c k).EndsSpent := by
  induction fuel generalizing c k r with
  | zero => intro h; cases h
  | succ fuel ih =>
    unfold Reader.decodeLoop
    split
    · trivial
    · split
      · exact (Reader.takeBit_endsSpent .lsb r).bind fun _ _ => ih _ _ _
      · intro h; cases h

/-! ## The machine -/

theorem State.readExtra_endsRead (base e : Nat) (s : State) : (s.readExtra base e).EndsRead :=
  ((Reader.readBitsLsb_endsSpent e s.reader).withReader s).bind fun _ _ => trivial

theorem State.decodeInto_endsRead (t : TableSel) (s : State) : (s.decodeInto t).EndsRead := by
  unfold State.decodeInto
  split
  · trivial
  · exact ((Reader.decodeLoop_endsSpent _ _ _ _ _).withReader s).bind fun _ _ => trivial

theorem State.readClLens_endsRead (order : List (Fin 19)) (s : State) : (State.readClLens order s).EndsRead := by
  induction order generalizing s with
  | nil => trivial
  | cons i rest ih => exact ((Reader.readBitsLsb_endsSpent 3 s.reader).withReader s).bind fun _ _ => ih _

theorem State.buildInto_endsRead (t : TableSel) (lens : List (BitVec 4)) (s : State) : (s.buildInto t lens).EndsRead := by
  unfold State.buildInto
  split
  · trivial
  · exact Res.EndsRead.raise (by simp) _

theorem State.buildPayloadTables_endsRead (ll d : List (BitVec 4)) (s : State) : (s.buildPayloadTables ll d).EndsRead :=
  (State.buildInto_endsRead .ll ll s).bind fun _ s1 => (State.buildInto_endsRead .d d s1).bind fun _ _ => trivial

theorem State.appendLens_endsRead (v : BitVec 4) (r : Nat) (s : State) : (s.appendLens v r).EndsRead := by
  unfold State.appendLens
  split <;> trivial

theorem State.runFill_endsRead (v : BitVec 4) (r : Nat) (s : State) : (s.runFill v r).EndsRead := by
  unfold State.runFill
  split
  · exact Res.EndsRead.raise (by simp) _
  · exact State.appendLens_endsRead v r s

theorem State.readCounts_endsRead (s : State) : s.readCounts.EndsRead :=
  (State.readExtra_endsRead 257 5 s).bind fun _ _ => (State.readExtra_endsRead 1 5 _).bind fun _ _ =>
    (State.readExtra_endsRead 4 4 _).bind fun _ _ => trivial

theorem State.readSlen_endsRead (s : State) : s.readSlen.EndsRead :=
  ((Reader.readRawHalf_endsSpent s.reader).withReader s).bind fun _ _ => trivial

theorem State.readSnlen_endsRead (s : State) : s.readSnlen.EndsRead :=
  ((Reader.readRawHalf_endsSpent s.reader).withReader s).bind fun _ _ => trivial

theorem State.startStoredCopy_endsRead (s : State) : s.startStoredCopy.EndsRead := by
  unfold State.startStoredCopy
  split
  · exact Res.EndsRead.raise (by simp) _
  · trivial

theorem State.storedCopyStep_endsRead (s : State) : s.storedCopyStep.EndsRead := by
  unfold State.storedCopyStep
  split
  · trivial
  · exact ((Reader.readRawByte_endsSpent s.reader).withReader s).bind fun _ _ => trivial

theorem State.matchCopyStep_endsRead (s : State) : s.matchCopyStep.EndsRead := by
  unfold State.matchCopyStep
  split
  · trivial
  · split <;> trivial

end Sys2Proof.Machine
end

