-- ==== Sys2Proof/Laws/Huffman.lean ====
section
/-! SUPPORT. What a built table holds, and what a decode against one meets. -/

namespace Sys2Proof.Machine

/-! ## Build -/

/-- The symbols and lengths of the entries Build makes (41_huffman R131). -/
theorem mem_assignCodes {lens : List (BitVec 4)} {sym : Nat} {next : List Nat} {e : Entry}
    (h : e ∈ assignCodes lens sym next) :
    sym ≤ e.sym ∧ e.sym < sym + lens.length ∧ lens[e.sym - sym]? = some (BitVec.ofNat 4 e.len) ∧ 1 ≤ e.len ∧ e.len ≤ 15 := by
  induction lens generalizing sym next with
  | nil => simp [assignCodes] at h
  | cons l rest ih =>
    have step : ∀ {next'}, e ∈ assignCodes rest (sym + 1) next' → sym ≤ e.sym ∧ e.sym < sym + (rest.length + 1) ∧
        (l :: rest)[e.sym - sym]? = some (BitVec.ofNat 4 e.len) ∧ 1 ≤ e.len ∧ e.len ≤ 15 := by
      intro next' h'
      obtain ⟨h1, h2, h3, h4, h5⟩ := ih h'
      refine ⟨by omega, by omega, ?_, h4, h5⟩
      have : e.sym - sym = (e.sym - (sym + 1)) + 1 := by omega
      rw [this, List.getElem?_cons_succ]; exact h3
    simp only [assignCodes] at h
    by_cases hl : l = 0
    · rw [if_pos hl] at h
      simpa using step h
    · rw [if_neg hl] at h
      rcases List.mem_cons.mp h with rfl | h
      · have h15 := l.isLt
        have h1 : l.toNat ≠ 0 := fun hz => hl (BitVec.eq_of_toNat_eq (by simpa using hz))
        refine ⟨le_rfl, by simp, by simp, ?_, ?_⟩ <;> simp only <;> omega
      · simpa using step h

/-- A built table fits its alphabet (10_state R40, 41_huffman R131). -/
theorem build_fits {lens : List (BitVec 4)} {t : Table} (h : build lens = some t) : tableFits lens.length t := by
  unfold build at h
  split at h
  · simp at h
  · intro e he
    simp only [Option.some.injEq] at h
    subst h
    obtain ⟨-, h2, -, h4, -⟩ := mem_assignCodes he
    exact ⟨h4, by omega⟩

theorem tableFits.mono {m n : Nat} {t : Table} (h : tableFits m t) (hmn : m ≤ n) : tableFits n t :=
  fun e he => ⟨(h e he).1, lt_of_lt_of_le (h e he).2 hmn⟩

/-! ## Decode -/

/-- A symbol found is a symbol of the table, its code as long as the bits read. -/
theorem leafAt_some {t : Table} {c k sym : Nat} (h : leafAt t c k = some sym) :
    ∃ e ∈ t, e.sym = sym ∧ e.len = k ∧ e.code = c := by
  simp only [leafAt, Option.map_eq_some_iff] at h
  obtain ⟨e, he, rfl⟩ := h
  have h1 := List.find?_some he
  simp only [Bool.and_eq_true, beq_iff_eq] at h1
  exact ⟨e, List.mem_of_find?_eq_some he, rfl, h1.1, h1.2⟩

/-- What a symbol decode against a table over `n` symbols meets (41_huffman R136). -/
def Reader.MeetsDecode (n bits : Nat) (r : Reader) (x : Res Reader Nat) : Prop :=
  x.Meets (fun sym r' => Reader.Beyond bits r r' ∧ (r.orderFits .lsb → r'.orderFits .lsb) ∧ sym < n)
    (fun e r' => r.Later r' ∧ (r.orderFits .lsb → r'.orderFits .lsb) ∧
      (e = .unexpectedEndOfInput ∨ e = .invalidHuffmanTable ∨ (e = .bitOrderMix ∧ ¬ r.orderFits .lsb)))
    (¬ r.Ready) (fun _ => False)

theorem Reader.decodeLoop_meets {n : Nat} {t : Table} (ht : tableFits n t) (fuel c k : Nat) (r : Reader) :
    Reader.MeetsDecode n (if k = 0 then 1 else 0) r (r.decodeLoop t fuel c k) := by
  induction fuel generalizing c k r with
  | zero => exact ⟨Reader.Later.refl r, id, Or.inr (Or.inl rfl)⟩
  | succ fuel ih =>
    unfold Reader.decodeLoop
    cases hl : leafAt t c k with
    | some sym =>
      obtain ⟨e, he, rfl, rfl, -⟩ := leafAt_some hl
      have h1 := (ht e he).1
      exact ⟨⟨Reader.Later.refl r, by rw [if_neg (by omega)]; omega⟩, id, (ht e he).2⟩
    | none =>
      simp only
      by_cases hc : continues t c k = true
      · rw [if_pos hc]
        refine Res.Meets.bind ((Reader.takeBit_meets .lsb r).mono (fun _ _ h => h) ?_ id (fun _ h => h)) ?_
        · rintro e r' ⟨rfl, h⟩
          exact ⟨Reader.Later.refl _, id, h.imp id Or.inr⟩
        · rintro b r1 ⟨hb, hf⟩
          refine (ih (2 * c + b.toNat) (k + 1) r1).mono ?_ ?_ (fun h hr => h (hr.later hb.1)) (fun _ h => h)
          · rintro a r2 ⟨h1, h2, h3⟩
            refine ⟨⟨hb.1.trans h1.1, ?_⟩, fun _ => h2 hf, h3⟩
            have := hb.2; have := h1.2
            split <;> simp_all <;> omega
          · rintro e r2 ⟨h1, h2, h3⟩
            exact ⟨hb.1.trans h1, fun _ => h2 hf, h3.imp id (Or.imp id fun h => absurd hf h.2)⟩
      · rw [if_neg hc]
        exact ⟨Reader.Later.refl r, id, Or.inr (Or.inl rfl)⟩

/-- Decode reads at least one bit and answers a symbol of the alphabet (41_huffman R136, 70_reset_and_hazards R257). -/
theorem Reader.decodeSymbol_meets {n : Nat} {t : Table} (ht : tableFits n t) (r : Reader) :
    Reader.MeetsDecode n 1 r (r.decodeSymbol t) := Reader.decodeLoop_meets ht _ 0 0 r

/-- DECODE against a table register that holds a table over `n` symbols: only the reader and `sym` change. -/
theorem State.decodeInto_meets {n : Nat} {t : TableSel} {s : State} (hn : n ≤ 512) (ht : tablePresent n (s.block.table t)) :
    (s.decodeInto t).Meets
      (fun _ u => Reader.Beyond 1 s.reader u.reader ∧ (s.reader.orderFits .lsb → u.reader.orderFits .lsb) ∧
        u.block.sym.toNat < n ∧ u = { s with reader := u.reader, block := { s.block with sym := u.block.sym } })
      (fun e u => s.reader.Later u.reader ∧ (s.reader.orderFits .lsb → u.reader.orderFits .lsb) ∧
        (e = .unexpectedEndOfInput ∨ e = .invalidHuffmanTable ∨ (e = .bitOrderMix ∧ ¬ s.reader.orderFits .lsb)) ∧
        u = { s with reader := u.reader })
      (¬ s.reader.Ready) (fun _ => False) := by
  obtain ⟨x, hx, hf⟩ := ht
  unfold State.decodeInto
  rw [hx]
  refine Res.Meets.bind ((Reader.decodeSymbol_meets hf s.reader).withReader.mono (fun _ _ h => h) ?_ id (fun _ h => h)) ?_
  · rintro e u ⟨⟨h1, h2, h3⟩, h4⟩
    exact ⟨h1, h2, h3, h4⟩
  · rintro sym u ⟨⟨h1, h2, h3⟩, h4⟩
    refine ⟨h1, h2, ?_, ?_⟩
    · simp; omega
    · rw [h4]

/-! ## Building into a register -/

/-- BUILD into a table register (41_huffman R131, R133): only the register changes. -/
theorem State.buildInto_meets (t : TableSel) (lens : List (BitVec 4)) (s : State) :
    (s.buildInto t lens).Meets
      (fun _ u => ∃ x, build lens = some x ∧ u = { s with block := s.block.setTable t (some x) })
      (fun e u => e = .invalidHuffmanTable ∧ build lens = none ∧ u = { s with block := s.block.setTable t none })
      False (fun _ => False) := by
  unfold State.buildInto
  split
  · rename_i x hx; exact ⟨x, hx, rfl⟩
  · rename_i hx; exact ⟨rfl, hx, rfl⟩

/-- Both payload tables built, then PAYLOAD (42_deflate_block R169, R170). -/
theorem State.buildPayloadTables_meets (ll d : List (BitVec 4)) (s : State) :
    (s.buildPayloadTables ll d).Meets
      (fun _ u => ∃ x y, build ll = some x ∧ build d = some y ∧
        u = ({ s with block := { s.block with tLl := some x, tD := some y } }).goto .payload)
      (fun e u => e = .invalidHuffmanTable ∧ u.reader = s.reader ∧ u.window = s.window ∧ u.seq = s.seq ∧ u.port = s.port)
      False (fun _ => False) := by
  unfold State.buildPayloadTables
  refine ((State.buildInto_meets .ll ll s).mono (fun _ _ h => h) ?_ id (fun _ h => h)).bind ?_
  · rintro e u ⟨rfl, -, rfl⟩; exact ⟨rfl, rfl, rfl, rfl, rfl⟩
  · rintro _ u ⟨x, hx, rfl⟩
    refine ((State.buildInto_meets .d d _).mono (fun _ _ h => h) ?_ id (fun _ h => h)).bind ?_
    · rintro e u ⟨rfl, -, rfl⟩; exact ⟨rfl, rfl, rfl, rfl, rfl⟩
    · rintro _ u ⟨y, hy, rfl⟩
      exact ⟨x, y, hx, hy, rfl⟩

end Sys2Proof.Machine
end

