-- ==== Sys2Proof/Laws/Memory.lean ====
section
/-! SUPPORT. The laws of the history memory: a read after a write, and the canonical form kept by every write and held at
reset. -/

namespace Sys2Proof.Machine

/-- A read of the address written gives the byte written. -/
theorem memoryRead_write_same (m : List Host.Cell) (k : Nat) (v : Byte) : memoryRead (memoryWrite m k v) k = some v := by
  induction m with
  | nil => simp [memoryWrite, memoryRead]
  | cons c rest ih =>
    obtain ⟨a, b⟩ := c
    simp only [memoryWrite]
    split_ifs with h h'
    · simp [memoryRead, h]
    · simp [memoryRead]
    · simp [memoryRead, h, h', ih]

/-- A write leaves every other address as it was. -/
theorem memoryRead_write_other {m : List Host.Cell} {k j : Nat} (v : Byte) (h : j ≠ k) :
    memoryRead (memoryWrite m k v) j = memoryRead m j := by
  induction m with
  | nil => simp [memoryWrite, memoryRead, h]
  | cons c rest ih =>
    obtain ⟨a, b⟩ := c
    simp only [memoryWrite]
    split_ifs with hk hk'
    · subst hk; simp [memoryRead, h]
    · simp only [memoryRead, h, if_false]
      split_ifs <;> first | rfl | omega
    · simp only [memoryRead, ih]

/-- A write keeps the list strictly rising above any bound the address is above. -/
theorem risingAbove_write {m : List Host.Cell} {low k : Nat} (v : Byte) (hl : low ≤ k) (hk : k < histSize)
    (hm : risingAbove low m = true) : risingAbove low (memoryWrite m k v) = true := by
  induction m generalizing low with
  | nil => simp [memoryWrite, risingAbove, hl, hk]
  | cons c rest ih =>
    obtain ⟨a, b⟩ := c
    simp only [risingAbove, Bool.and_eq_true, decide_eq_true_eq] at hm
    obtain ⟨⟨ha, ha'⟩, hr⟩ := hm
    simp only [memoryWrite]
    split_ifs with h h'
    · simp [risingAbove, ha, ha', hr]
    · simp [risingAbove, hl, hk, ha', hr, Nat.succ_le_of_lt h']
    · simp [risingAbove, ha, ha', ih (by omega) hr]

/-- Every write of a history address keeps the canonical form. -/
theorem memoryWf_write {m : List Host.Cell} {k : Nat} (v : Byte) (hk : k < histSize) (hm : memoryWf m = true) :
    memoryWf (memoryWrite m k v) = true :=
  risingAbove_write v (Nat.zero_le k) hk hm

/-- The history after reset is in canonical form. -/
theorem memoryWf_reset : memoryWf State.reset.window.hist = true := rfl

end Sys2Proof.Machine
end

