-- ==== Sys2Proof/Laws/PerInstr.lean ====
section
/-! SUPPORT. The family EncodedFits: the bits of every instruction fit its format (30_encoding R81 to R89, R95). -/

namespace Sys2Proof.Laws

/-- How many values the bits of a format take (30_encoding R81 to R89, R95). -/
def EncodedFits.values : Format → Nat
  | .sig => 65536
  | .blkHdr => 8
  | .stored => 1
  | .dynHdr => 1
  | .clSymbol => 19
  | .llSymbol => 288
  | .dSymbol => 32
  | .readerCmd => 65536
  | .internal => 0

/-- The bits of an instruction are a value of its format. -/
def EncodedFits.Statement (i : Instr) : Prop := ∀ f v, encode i = some (f, v) → v < EncodedFits.values f

/-- A value below the format's size is all the statement asks. -/
theorem EncodedFits.of_encode {i : Instr} {f : Format} {v : Nat} (h : encode i = some (f, v)) (hv : v < EncodedFits.values f) :
    EncodedFits.Statement i := by
  intro f' v' h'
  rw [h] at h'
  cases h'
  exact hv

theorem EncodedFits.sig : EncodedFits.Statement .sig := EncodedFits.of_encode rfl (by decide)
theorem EncodedFits.btypeStored (f : Bool) : EncodedFits.Statement (.btypeStored f) := by
  cases f <;> exact EncodedFits.of_encode rfl (by decide)
theorem EncodedFits.btypeFixed (f : Bool) : EncodedFits.Statement (.btypeFixed f) := by
  cases f <;> exact EncodedFits.of_encode rfl (by decide)
theorem EncodedFits.btypeDynamic (f : Bool) : EncodedFits.Statement (.btypeDynamic f) := by
  cases f <;> exact EncodedFits.of_encode rfl (by decide)
theorem EncodedFits.btypeReserved (f : Bool) : EncodedFits.Statement (.btypeReserved f) := by
  cases f <;> exact EncodedFits.of_encode rfl (by decide)
theorem EncodedFits.storedHdr : EncodedFits.Statement .storedHdr := EncodedFits.of_encode rfl (by decide)
theorem EncodedFits.dynHdr : EncodedFits.Statement .dynHdr := EncodedFits.of_encode rfl (by decide)
theorem EncodedFits.clLit (v : BitVec 4) : EncodedFits.Statement (.clLit v) :=
  EncodedFits.of_encode rfl (by have := v.isLt; simp only [EncodedFits.values]; omega)
theorem EncodedFits.clRep : EncodedFits.Statement .clRep := EncodedFits.of_encode rfl (by decide)
theorem EncodedFits.clZ3 : EncodedFits.Statement .clZ3 := EncodedFits.of_encode rfl (by decide)
theorem EncodedFits.clZ11 : EncodedFits.Statement .clZ11 := EncodedFits.of_encode rfl (by decide)
theorem EncodedFits.lit (b : Byte) : EncodedFits.Statement (.lit b) :=
  EncodedFits.of_encode rfl (by have := b.isLt; simp only [EncodedFits.values]; omega)
theorem EncodedFits.eob : EncodedFits.Statement .eob := EncodedFits.of_encode rfl (by decide)
theorem EncodedFits.len257 : EncodedFits.Statement .len257 := EncodedFits.of_encode rfl (by decide)
theorem EncodedFits.len258 : EncodedFits.Statement .len258 := EncodedFits.of_encode rfl (by decide)
theorem EncodedFits.len259 : EncodedFits.Statement .len259 := EncodedFits.of_encode rfl (by decide)
theorem EncodedFits.len260 : EncodedFits.Statement .len260 := EncodedFits.of_encode rfl (by decide)
theorem EncodedFits.len261 : EncodedFits.Statement .len261 := EncodedFits.of_encode rfl (by decide)
theorem EncodedFits.len262 : EncodedFits.Statement .len262 := EncodedFits.of_encode rfl (by decide)
theorem EncodedFits.len263 : EncodedFits.Statement .len263 := EncodedFits.of_encode rfl (by decide)
theorem EncodedFits.len264 : EncodedFits.Statement .len264 := EncodedFits.of_encode rfl (by decide)
theorem EncodedFits.len265 : EncodedFits.Statement .len265 := EncodedFits.of_encode rfl (by decide)
theorem EncodedFits.len266 : EncodedFits.Statement .len266 := EncodedFits.of_encode rfl (by decide)
theorem EncodedFits.len267 : EncodedFits.Statement .len267 := EncodedFits.of_encode rfl (by decide)
theorem EncodedFits.len268 : EncodedFits.Statement .len268 := EncodedFits.of_encode rfl (by decide)
theorem EncodedFits.len269 : EncodedFits.Statement .len269 := EncodedFits.of_encode rfl (by decide)
theorem EncodedFits.len270 : EncodedFits.Statement .len270 := EncodedFits.of_encode rfl (by decide)
theorem EncodedFits.len271 : EncodedFits.Statement .len271 := EncodedFits.of_encode rfl (by decide)
theorem EncodedFits.len272 : EncodedFits.Statement .len272 := EncodedFits.of_encode rfl (by decide)
theorem EncodedFits.len273 : EncodedFits.Statement .len273 := EncodedFits.of_encode rfl (by decide)
theorem EncodedFits.len274 : EncodedFits.Statement .len274 := EncodedFits.of_encode rfl (by decide)
theorem EncodedFits.len275 : EncodedFits.Statement .len275 := EncodedFits.of_encode rfl (by decide)
theorem EncodedFits.len276 : EncodedFits.Statement .len276 := EncodedFits.of_encode rfl (by decide)
theorem EncodedFits.len277 : EncodedFits.Statement .len277 := EncodedFits.of_encode rfl (by decide)
theorem EncodedFits.len278 : EncodedFits.Statement .len278 := EncodedFits.of_encode rfl (by decide)
theorem EncodedFits.len279 : EncodedFits.Statement .len279 := EncodedFits.of_encode rfl (by decide)
theorem EncodedFits.len280 : EncodedFits.Statement .len280 := EncodedFits.of_encode rfl (by decide)
theorem EncodedFits.len281 : EncodedFits.Statement .len281 := EncodedFits.of_encode rfl (by decide)
theorem EncodedFits.len282 : EncodedFits.Statement .len282 := EncodedFits.of_encode rfl (by decide)
theorem EncodedFits.len283 : EncodedFits.Statement .len283 := EncodedFits.of_encode rfl (by decide)
theorem EncodedFits.len284 : EncodedFits.Statement .len284 := EncodedFits.of_encode rfl (by decide)
theorem EncodedFits.len285 : EncodedFits.Statement .len285 := EncodedFits.of_encode rfl (by decide)
theorem EncodedFits.llReserved (odd : Bool) : EncodedFits.Statement (.llReserved odd) := by
  cases odd <;> exact EncodedFits.of_encode rfl (by decide)
theorem EncodedFits.dist0 : EncodedFits.Statement .dist0 := EncodedFits.of_encode rfl (by decide)
theorem EncodedFits.dist1 : EncodedFits.Statement .dist1 := EncodedFits.of_encode rfl (by decide)
theorem EncodedFits.dist2 : EncodedFits.Statement .dist2 := EncodedFits.of_encode rfl (by decide)
theorem EncodedFits.dist3 : EncodedFits.Statement .dist3 := EncodedFits.of_encode rfl (by decide)
theorem EncodedFits.dist4 : EncodedFits.Statement .dist4 := EncodedFits.of_encode rfl (by decide)
theorem EncodedFits.dist5 : EncodedFits.Statement .dist5 := EncodedFits.of_encode rfl (by decide)
theorem EncodedFits.dist6 : EncodedFits.Statement .dist6 := EncodedFits.of_encode rfl (by decide)
theorem EncodedFits.dist7 : EncodedFits.Statement .dist7 := EncodedFits.of_encode rfl (by decide)
theorem EncodedFits.dist8 : EncodedFits.Statement .dist8 := EncodedFits.of_encode rfl (by decide)
theorem EncodedFits.dist9 : EncodedFits.Statement .dist9 := EncodedFits.of_encode rfl (by decide)
theorem EncodedFits.dist10 : EncodedFits.Statement .dist10 := EncodedFits.of_encode rfl (by decide)
theorem EncodedFits.dist11 : EncodedFits.Statement .dist11 := EncodedFits.of_encode rfl (by decide)
theorem EncodedFits.dist12 : EncodedFits.Statement .dist12 := EncodedFits.of_encode rfl (by decide)
theorem EncodedFits.dist13 : EncodedFits.Statement .dist13 := EncodedFits.of_encode rfl (by decide)
theorem EncodedFits.dist14 : EncodedFits.Statement .dist14 := EncodedFits.of_encode rfl (by decide)
theorem EncodedFits.dist15 : EncodedFits.Statement .dist15 := EncodedFits.of_encode rfl (by decide)
theorem EncodedFits.dist16 : EncodedFits.Statement .dist16 := EncodedFits.of_encode rfl (by decide)
theorem EncodedFits.dist17 : EncodedFits.Statement .dist17 := EncodedFits.of_encode rfl (by decide)
theorem EncodedFits.dist18 : EncodedFits.Statement .dist18 := EncodedFits.of_encode rfl (by decide)
theorem EncodedFits.dist19 : EncodedFits.Statement .dist19 := EncodedFits.of_encode rfl (by decide)
theorem EncodedFits.dist20 : EncodedFits.Statement .dist20 := EncodedFits.of_encode rfl (by decide)
theorem EncodedFits.dist21 : EncodedFits.Statement .dist21 := EncodedFits.of_encode rfl (by decide)
theorem EncodedFits.dist22 : EncodedFits.Statement .dist22 := EncodedFits.of_encode rfl (by decide)
theorem EncodedFits.dist23 : EncodedFits.Statement .dist23 := EncodedFits.of_encode rfl (by decide)
theorem EncodedFits.dist24 : EncodedFits.Statement .dist24 := EncodedFits.of_encode rfl (by decide)
theorem EncodedFits.dist25 : EncodedFits.Statement .dist25 := EncodedFits.of_encode rfl (by decide)
theorem EncodedFits.dist26 : EncodedFits.Statement .dist26 := EncodedFits.of_encode rfl (by decide)
theorem EncodedFits.dist27 : EncodedFits.Statement .dist27 := EncodedFits.of_encode rfl (by decide)
theorem EncodedFits.dist28 : EncodedFits.Statement .dist28 := EncodedFits.of_encode rfl (by decide)
theorem EncodedFits.dist29 : EncodedFits.Statement .dist29 := EncodedFits.of_encode rfl (by decide)
theorem EncodedFits.dReserved (odd : Bool) : EncodedFits.Statement (.dReserved odd) := by
  cases odd <;> exact EncodedFits.of_encode rfl (by decide)
theorem EncodedFits.readBitLsb : EncodedFits.Statement .readBitLsb := EncodedFits.of_encode rfl (by decide)
theorem EncodedFits.readBitMsb : EncodedFits.Statement .readBitMsb := EncodedFits.of_encode rfl (by decide)
theorem EncodedFits.readBitsLsb (n : BitVec 5) : EncodedFits.Statement (.readBitsLsb n) :=
  EncodedFits.of_encode rfl (by have := n.isLt; simp only [EncodedFits.values]; omega)
theorem EncodedFits.readBitsMsb (n : BitVec 5) : EncodedFits.Statement (.readBitsMsb n) :=
  EncodedFits.of_encode rfl (by have := n.isLt; simp only [EncodedFits.values]; omega)
theorem EncodedFits.readRawByte : EncodedFits.Statement .readRawByte := EncodedFits.of_encode rfl (by decide)
theorem EncodedFits.align : EncodedFits.Statement .align := EncodedFits.of_encode rfl (by decide)
theorem EncodedFits.buildTable (t : TableSel) (lens : List (BitVec 4)) : EncodedFits.Statement (.buildTable t lens) := by
  intro f v h; cases h
theorem EncodedFits.decodeSymbol (t : TableSel) : EncodedFits.Statement (.decodeSymbol t) := by
  intro f v h; cases h

end Sys2Proof.Laws
end

