-- ==== Sys2Proof/Laws/Window.lean ====
section
/-! SUPPORT. The output port and the history window: what Emit keeps and what HistRead returns (20_memory R64 to R67). -/

namespace Sys2Proof.Machine

@[simp] theorem Window.emit_out (b : Byte) (w : Window) : (w.emit b).out = w.out ++ [b] := rfl
@[simp] theorem Window.emit_outTotal (b : Byte) (w : Window) : (w.emit b).outTotal = w.outTotal + 1 := rfl
@[simp] theorem Window.emit_frameOut (b : Byte) (w : Window) : (w.emit b).frameOut = w.frameOut + 1 := rfl
@[simp] theorem Window.emit_hwp (b : Byte) (w : Window) : (w.emit b).hwp = w.hwp + 1 := rfl
@[simp] theorem Window.emit_hist (b : Byte) (w : Window) : (w.emit b).hist = memoryWrite w.hist w.hwp.toNat b := rfl

/-- hist_valid after an Emit: one more, at most 32768 (20_memory R64). -/
theorem Window.emit_histValid {w : Window} (b : Byte) (h : w.histValid.toNat ≤ histSize) :
    (w.emit b).histValid.toNat = min (w.histValid.toNat + 1) histSize := by
  by_cases hlt : w.histValid.toNat < histSize
  · rw [Window.emit, if_pos hlt]
    simp [histSize] at *; omega
  · rw [Window.emit, if_neg hlt]
    simp [histSize] at *; omega

/-- Emit keeps the window the tail of OUT (20_memory R64, R66). -/
theorem Window.emit_inv {w : Window} (b : Byte) (h : w.Inv) : (w.emit b).Inv := by
  obtain ⟨h1, h2, h3, h4, h5⟩ := h
  have hv : w.histValid.toNat ≤ histSize := by rw [h2]; exact Nat.min_le_right _ _
  have hwp : w.hwp.toNat = w.out.length % histSize := by rw [h3]; simp [histSize]
  refine ⟨memoryWf_write b w.hwp.isLt h1, ?_, ?_, ?_, ?_⟩
  · rw [Window.emit_histValid b hv, h2, Window.emit_out, List.length_append, List.length_singleton]; omega
  · rw [Window.emit_hwp, h3, Window.emit_out, List.length_append, List.length_singleton]
    apply BitVec.eq_of_toNat_eq; simp
  · rw [Window.emit_outTotal, h4, Window.emit_out, List.length_append, List.length_singleton]
    apply BitVec.eq_of_toNat_eq; simp
  · intro d hd1 hd2
    rw [Window.emit_histValid b hv, h2] at hd2
    rw [Window.emit_hist, Window.emit_out, List.length_append, List.length_singleton, hwp]
    by_cases hd : d = 1
    · subst hd
      simp [memoryRead_write_same]
    · have hlt : d ≤ histSize := le_trans hd2 (Nat.min_le_right _ _)
      have hle : d ≤ w.out.length + 1 := by omega
      rw [memoryRead_write_other b]
      · have := h5 (d - 1) (by omega) (by rw [h2]; omega)
        have he : w.out.length + 1 - d = w.out.length - (d - 1) := by omega
        rw [he, this, List.getElem?_append_left (by omega)]
      · simp only [histSize] at *; omega

/-- HistRead of a distance the window reaches is the byte that far back in OUT (20_memory R66, R67). -/
theorem Window.histRead_ok {w : Window} {d : BitVec 16} (h : w.Inv) (h1 : 1 ≤ d.toNat) (h2 : d.toNat ≤ w.histValid.toNat) :
    ∃ b, w.histRead d = .ok b ∧ w.out[w.out.length - d.toNat]? = some b := by
  obtain ⟨-, hv, hw, -, h5⟩ := h
  have hd : d.toNat ≤ w.out.length ∧ d.toNat ≤ histSize := by rw [hv] at h2; omega
  have hr := h5 d.toNat h1 h2
  have haddr : (w.hwp - d.setWidth 15).toNat = (w.out.length - d.toNat) % histSize := by
    rw [hw, BitVec.toNat_sub]; simp [histSize] at *; omega
  obtain ⟨b, hb⟩ : ∃ b, w.out[w.out.length - d.toNat]? = some b :=
    ⟨w.out[w.out.length - d.toNat]'(by omega), List.getElem?_eq_getElem _⟩
  refine ⟨b, ?_, hb⟩
  have hne : ¬ (d = 0 ∨ w.histValid < d) := by
    rintro (rfl | hlt)
    · simp at h1
    · have := BitVec.lt_def.mp hlt; omega
  rw [Window.histRead, if_neg hne, haddr, hr, hb]

end Sys2Proof.Machine
end

