-- ==== Sys2Proof/Laws/Tokens.lean ====
section
/-! SUPPORT. The operations the tokens share: extra bits, runs of code lengths, raw 16-bit fields, the two halves of a match. -/

namespace Sys2Proof.Machine

/-! ## Extra bits -/

/-- base + extra bits, where the bits can be read (30_encoding R93). -/
theorem State.readExtra_readable {base e : Nat} {s : State} (he : e ≤ 16) (h : s.reader.readable .lsb e) :
    s.readExtra base e = .ok (base + s.reader.field e) { s with reader := s.reader.advance .lsb e } := by
  have := Reader.field_lt e s.reader
  have : 2 ^ e ≤ 2 ^ 16 := Nat.pow_le_pow_right (by decide) he
  rw [State.readExtra, Reader.readBitsLsb_readable he h, State.withReader_ok, Res.bind_ok, BitVec.toNat_ofNat,
    Nat.mod_eq_of_lt (by omega)]

/-- base + extra bits, where the input ends inside them. -/
theorem State.readExtra_short {base e : Nat} {s : State} (he : e ≤ 16) (h : s.reader.short .lsb e) :
    s.readExtra base e = .raise .unexpectedEndOfInput { s with reader := s.reader.drained .lsb } := by
  rw [State.readExtra, Reader.readBitsLsb_short he h, State.withReader_raise, Res.bind_raise]

/-- base + extra bits, where they reach a FetchByte the host has not answered. -/
theorem State.readExtra_waits {base e : Nat} {s : State} (he : e ≤ 16) (h : s.reader.waits .lsb e) :
    s.readExtra base e = .wait := by
  rw [State.readExtra, Reader.readBitsLsb_waits he h]; rfl

/-- base + extra bits on every path: only the reader changes, and the value is in range. -/
theorem State.readExtra_meets {base e : Nat} (he : e ≤ 16) (s : State) :
    (s.readExtra base e).Meets
      (fun v u => base ≤ v ∧ v < base + 2 ^ e ∧ Reader.Beyond e s.reader u.reader ∧
        (s.reader.orderFits .lsb → u.reader.orderFits .lsb) ∧ u = { s with reader := u.reader })
      (fun x u => s.reader.Later u.reader ∧ (s.reader.orderFits .lsb → u.reader.orderFits .lsb) ∧
        (x = .unexpectedEndOfInput ∨ (x = .bitOrderMix ∧ ¬ s.reader.orderFits .lsb)) ∧
        u = { s with reader := u.reader })
      (¬ s.reader.Ready) (fun _ => False) := by
  have hval : (s.reader.readBitsLsb e).Meets (fun v _ => v.toNat < 2 ^ e) (fun _ _ => True) True (fun _ => True) := by
    rw [Reader.readBitsLsb, if_neg (by omega)]
    suffices H : ∀ (k i : Nat) (v : Half) (r : Reader), i + k ≤ 16 → v.toNat < 2 ^ i →
        (Reader.takeBitsLsb k i v r).Meets (fun v _ => v.toNat < 2 ^ (i + k)) (fun _ _ => True) True (fun _ => True) by
      simpa using H e 0 0 s.reader (by omega) (by simp)
    intro k
    induction k with
    | zero => intro i v r _ hv; exact hv
    | succ k ih =>
      intro i v r hik hv
      rw [Reader.takeBitsLsb]
      refine Res.Meets.bind (okP := fun _ _ => True) ?_ ?_
      · cases r.takeBit .lsb <;> trivial
      · intro b r1 _
        have hb : (bitValue b <<< i).toNat < 2 ^ (i + 1) := by
          have hp : 2 ^ i < 2 ^ 16 := Nat.pow_lt_pow_right (by decide) (by omega)
          cases b with
          | false => simp [bitValue]
          | true =>
            have : 2 ^ i % 65536 = 2 ^ i := Nat.mod_eq_of_lt hp
            have : 0 < 2 ^ i := by positivity
            simp [bitValue, Nat.shiftLeft_eq, pow_succ]; omega
        have := ih (i + 1) (v ||| (bitValue b <<< i)) r1 (by omega)
          (by rw [BitVec.toNat_or]; exact Nat.or_lt_two_pow (lt_trans hv (Nat.pow_lt_pow_right (by decide) (by omega))) hb)
        rwa [show i + 1 + k = i + (k + 1) by omega] at this
  have hm := Reader.readBitsLsb_meets he s.reader
  unfold State.readExtra
  cases hr : s.reader.readBitsLsb e with
  | ok v r =>
    rw [hr] at hval hm
    have hv : v.toNat < 2 ^ e := hval
    obtain ⟨h1, h2, -⟩ := hm
    exact ⟨by omega, by omega, h1, h2, rfl⟩
  | raise x r =>
    rw [hr] at hm
    exact ⟨hm.1, hm.2.1, hm.2.2, rfl⟩
  | wait => rw [hr] at hm; exact hm
  | fault f => rw [hr] at hm; exact hm

/-! ## Runs of code lengths -/

/-- Every entry of lens after a fill. -/
theorem fillLens_get (v : BitVec 4) (r at0 : Nat) (lens : Vector (BitVec 4) 320) (j : Nat) (hj : j < 320) :
    (fillLens v r at0 lens)[j] = if at0 ≤ j ∧ j < at0 + r then v else lens[j] := by
  induction r generalizing at0 lens with
  | zero => simp [fillLens]
  | succ r ih =>
    rw [fillLens, ih]
    rw [Vector.getElem_setIfInBounds]
    split_ifs <;> first | rfl | omega

/-- A fill in closed form. -/
theorem fillLens_eq_ofFn (v : BitVec 4) (r at0 : Nat) (lens : Vector (BitVec 4) 320) :
    fillLens v r at0 lens = Vector.ofFn fun j => if at0 ≤ j.val ∧ j.val < at0 + r then v else lens[j] := by
  apply Vector.ext
  intro j hj
  rw [fillLens_get v r at0 lens j hj, Vector.getElem_ofFn]
  rfl

/-- Entries appended inside the array (42_deflate_block R164, R168). -/
theorem State.appendLens_ok {v : BitVec 4} {r : Nat} {s : State} (h : s.block.li.toNat + r ≤ 320) :
    s.appendLens v r = .ok () { s with block := { s.block with
      lens := fillLens v r s.block.li.toNat s.block.lens, li := BitVec.ofNat 9 (s.block.li.toNat + r) } } := by
  rw [State.appendLens, if_neg (by omega)]

/-- A run inside the announced entries (42_deflate_block R168). -/
theorem State.runFill_ok {v : BitVec 4} {r : Nat} {s : State} (h : s.block.li.toNat + r ≤ s.block.lensTotal)
    (h' : s.block.li.toNat + r ≤ 320) :
    s.runFill v r = .ok () { s with block := { s.block with
      lens := fillLens v r s.block.li.toNat s.block.lens, li := BitVec.ofNat 9 (s.block.li.toNat + r) } } := by
  rw [State.runFill, if_neg (by omega), State.appendLens_ok h']

/-- A run past the announced entries (42_deflate_block R168). -/
theorem State.runFill_overflow {v : BitVec 4} {r : Nat} {s : State} (h : s.block.lensTotal < s.block.li.toNat + r) :
    s.runFill v r = .raise .invalidHuffmanTable s := by
  rw [State.runFill, if_pos h]

/-! ## Raw 16-bit fields -/

/-- Two answered bytes as a little-endian field (20_memory R68, 42_deflate_block R156). -/
theorem Reader.readRawHalf_some {r : Reader} {b0 b1 : Byte} (hg : r.pos + 1 < r.granted) (hc : r.ccount = 0)
    (h0 : (r.input.getD [])[r.pos]? = some b0) (h1 : (r.input.getD [])[r.pos + 1]? = some b1) :
    r.readRawHalf = .ok (littleEndian b0 b1) { r with pos := r.pos + 2 } := by
  rw [Reader.readRawHalf, Reader.readRawByte_some (by omega) hc h0, Res.bind_ok]
  rw [Reader.readRawByte_some (r := { r with pos := r.pos + 1 }) hg hc h1, Res.bind_ok]

theorem Reader.readRawHalf_meets (r : Reader) :
    r.readRawHalf.Meets
      (fun _ r' => Reader.Beyond 16 r r' ∧ r'.ccount = 0)
      (fun e r' => r.Later r' ∧ (r.ccount = 0 → r'.ccount = 0) ∧
        (e = .unexpectedEndOfInput ∨ (e = .misalignedRawRead ∧ r.ccount ≠ 0)))
      (¬ r.Ready) (fun _ => False) := by
  unfold Reader.readRawHalf
  refine (r.readRawByte_meets.mono (fun _ _ h => h) ?_ id (fun _ h => h)).bind ?_
  · rintro e r' ⟨rfl, h⟩
    exact ⟨Reader.Later.refl _, id, h⟩
  · rintro b0 r1 ⟨h1, hc1, -⟩
    refine (r1.readRawByte_meets.mono (fun _ _ h => h) ?_ (fun h hr => h (hr.later h1.1)) (fun _ h => h)).bind ?_
    · rintro e r' ⟨rfl, h⟩
      exact ⟨h1.1, fun _ => hc1, h.imp id fun h => absurd hc1 h.2⟩
    · rintro b1 r2 ⟨h2, hc2, -⟩
      exact ⟨h1.trans h2, hc2⟩

/-! ## The two halves of a match -/

/-- The length half, where its extra bits can be read (42_deflate_block R180). -/
theorem State.matchLength_readable {base e : Nat} {s : State} (he : e ≤ 16) (h : s.reader.readable .lsb e) :
    s.matchLength base e = .ok ()
      { s with
        reader := s.reader.advance .lsb e
        block := { s.block with mlen := BitVec.ofNat 9 (base + s.reader.field e) }
        seq := { s.seq with phase := .matchDist } } := by
  rw [State.matchLength, State.readExtra_readable he h]; rfl

/-- The distance half, where its extra bits can be read: the check, then the copy or InvalidBackReference (R182, R183). -/
theorem State.matchDistance_readable {base e : Nat} {s : State} (he : e ≤ 16) (h : s.reader.readable .lsb e)
    (hb : base + 2 ^ e ≤ 65536) :
    s.matchDistance base e =
      if s.window.histValid.toNat < base + s.reader.field e then
        .raise .invalidBackReference
          { s with
            reader := s.reader.advance .lsb e
            block := { s.block with mdist := BitVec.ofNat 16 (base + s.reader.field e) } }
      else
        .ok ()
          { s with
            reader := s.reader.advance .lsb e
            block := { s.block with mdist := BitVec.ofNat 16 (base + s.reader.field e), mrem := s.block.mlen }
            seq := { s.seq with phase := .matchCopy } } := by
  have hf := Reader.field_lt e s.reader
  rw [State.matchDistance, State.readExtra_readable he h, Res.bind_ok, State.startMatchCopy]
  simp only [BitVec.lt_def, BitVec.toNat_ofNat, Nat.mod_eq_of_lt (show base + s.reader.field e < 2 ^ 16 by omega)]
  rfl

end Sys2Proof.Machine
end

