-- ==== Sys2Proof/Laws/Steps.lean ====
section
/-! SUPPORT. What each token's operation meets on every path: what it may raise and with which state, what it leaves where it
answers, and that it waits only on an unanswered FetchByte. -/

namespace Sys2Proof.Machine

/-- `t` is `s` with the reader moved on and perhaps the block decoder's registers written. -/
structure State.After (s t : State) : Prop where
  later : s.reader.Later t.reader
  order : s.reader.orderFits .lsb → t.reader.orderFits .lsb
  window : t.window = s.window
  seq : t.seq = s.seq
  port : t.port = s.port

theorem State.After.refl (s : State) : s.After s := ⟨Reader.Later.refl _, id, rfl, rfl, rfl⟩

theorem State.After.trans {a b c : State} (h : a.After b) (h' : b.After c) : a.After c :=
  ⟨h.later.trans h'.later, h'.order ∘ h.order, h'.window.trans h.window, h'.seq.trans h.seq, h'.port.trans h.port⟩

/-- An error the decode of a stream can raise: none of the reader's own kinds (60_exceptions R220). -/
def ErrKind.ofStream (e : ErrKind) : Prop := e ≠ .bitOrderMix ∧ e ≠ .misalignedRawRead ∧ e ≠ .badReaderCommand

/-- What a token may raise, and with which state. -/
def State.Raises (s : State) (e : ErrKind) (t : State) : Prop :=
  s.After t ∧ (s.reader.orderFits .lsb → e.ofStream)

theorem State.Raises.after {a b c : State} {e : ErrKind} (h : a.After b) (h' : b.Raises e c) : a.Raises e c :=
  ⟨h.trans h'.1, h'.2 ∘ h.order⟩

theorem State.Raises.here {s : State} {e : ErrKind} (h : e.ofStream) : s.Raises e s :=
  ⟨State.After.refl s, fun _ => h⟩

/-- An operation on `s` that answers with `okP`, raises as a token may, waits only unanswered, and never faults. -/
def State.MeetsToken (s : State) (x : Res State Unit) (okP : State → Prop) : Prop :=
  x.Meets (fun _ t => okP t) s.Raises (¬ s.reader.Ready) (fun _ => False)

/-- Running a token operation after a part that kept the window, the sequencer and the port. -/
theorem State.MeetsToken.after {s u : State} {x : Res State Unit} {okP okQ : State → Prop} (h : s.After u)
    (hx : u.MeetsToken x okP) (hok : ∀ t, okP t → okQ t) : s.MeetsToken x okQ :=
  hx.mono (fun _ t h => hok t h) (fun _ _ h' => State.Raises.after h h') (fun h' hr => h' (hr.later h.later)) (fun _ h => h)

/-- The rule of sequence for token operations. -/
theorem State.MeetsToken.bind {α : Type} {s : State} {r : Res State α} {k : α → State → Res State Unit}
    {okP : α → State → Prop} {okQ : State → Prop} (h : r.Meets okP s.Raises (¬ s.reader.Ready) (fun _ => False))
    (hk : ∀ a u, okP a u → s.MeetsToken (k a u) okQ) : s.MeetsToken (r.bind k) okQ :=
  Res.Meets.bind h hk

/-- Extra bits as a part of a token. -/
theorem State.readExtra_token {base e : Nat} (he : e ≤ 16) (s : State) :
    (s.readExtra base e).Meets
      (fun v u => base ≤ v ∧ v < base + 2 ^ e ∧ Reader.Beyond e s.reader u.reader ∧ s.After u ∧ u.block = s.block)
      s.Raises (¬ s.reader.Ready) (fun _ => False) := by
  refine (State.readExtra_meets he s).mono ?_ ?_ id (fun _ h => h)
  · rintro v u ⟨h1, h2, h3, h4, h5⟩
    exact ⟨h1, h2, h3, ⟨h3.1, h4, by rw [h5], by rw [h5], by rw [h5]⟩, by rw [h5]⟩
  · rintro x u ⟨h1, h0, h2, h3⟩
    refine ⟨⟨h1, h0, by rw [h3], by rw [h3], by rw [h3]⟩, fun ho => ?_⟩
    rcases h2 with rfl | ⟨-, h⟩
    · exact ⟨by simp, by simp, by simp⟩
    · exact absurd ho h

/-! ## Code lengths -/

/-- What a code-length token leaves: only lens and li, li moved on inside the announced entries. -/
def State.Appended (s t : State) : Prop :=
  s.After t ∧ t.block = { s.block with lens := t.block.lens, li := t.block.li } ∧ t.block.li.toNat ≤ s.block.lensTotal

theorem State.appendLens_meets {v : BitVec 4} {r : Nat} {s : State} (h : s.block.li.toNat + r ≤ s.block.lensTotal)
    (ht : s.block.lensTotal ≤ 320) : s.MeetsToken (s.appendLens v r) s.Appended := by
  rw [State.appendLens_ok (by omega)]
  refine ⟨⟨Reader.Later.refl _, id, rfl, rfl, rfl⟩, rfl, ?_⟩
  simp only [BitVec.toNat_ofNat]
  omega

/-- RunFill (42_deflate_block R168). -/
theorem State.runFill_meets {v : BitVec 4} {r : Nat} {s : State} (ht : s.block.lensTotal ≤ 320) :
    s.MeetsToken (s.runFill v r) s.Appended := by
  unfold State.runFill
  split
  · exact State.Raises.here ⟨by simp, by simp, by simp⟩
  · exact State.appendLens_meets (by omega) ht

/-- A run after its extra bits. -/
theorem State.run_meets {base e : Nat} {s : State} (he : e ≤ 16)
    {k : Nat → State → Res State Unit} (hk : ∀ (r : Nat) (u : State), u.block = s.block → u.MeetsToken (k r u) u.Appended) :
    s.MeetsToken ((s.readExtra base e).bind k) s.Appended := by
  refine State.MeetsToken.bind (State.readExtra_token he s) ?_
  rintro r u ⟨-, -, -, ha, hb⟩
  refine State.MeetsToken.after ha (hk r u hb) ?_
  rintro t ⟨h1, h2, h3⟩
  exact ⟨ha.trans h1, by rw [h2, hb], by rw [← hb]; exact h3⟩

theorem State.repeatPrevious_meets {r : Nat} {s : State} (hl : s.block.li.toNat ≤ 320) (ht : s.block.lensTotal ≤ 320) :
    s.MeetsToken (s.repeatPrevious r) s.Appended := by
  unfold State.repeatPrevious
  rw [Vector.getElem?_eq_getElem (show s.block.li.toNat - 1 < 320 by omega)]
  exact State.runFill_meets ht

/-- CL_REP's operation (42_deflate_block R165). -/
theorem State.clRep_meets {s : State} (hl : s.block.li.toNat ≤ 320) (ht : s.block.lensTotal ≤ 320) :
    s.MeetsToken (if s.block.li = 0 then .raise .invalidHuffmanTable s
      else (s.readExtra 3 2).bind fun r s1 => s1.repeatPrevious r) s.Appended := by
  split
  · exact State.Raises.here ⟨by simp, by simp, by simp⟩
  · exact State.run_meets (by decide) fun r u hu => State.repeatPrevious_meets (by rw [hu]; exact hl) (by rw [hu]; exact ht)

/-- The zero runs' operation (42_deflate_block R166, R167). -/
theorem State.zeroRun_meets {base e : Nat} {s : State} (he : e ≤ 16) (ht : s.block.lensTotal ≤ 320) :
    s.MeetsToken ((s.readExtra base e).bind fun r s1 => s1.runFill 0 r) s.Appended :=
  State.run_meets he fun _ u hu => State.runFill_meets (by rw [hu]; exact ht)

/-! ## Matches -/

/-- The length half of a match (42_deflate_block R175, R180). -/
theorem State.matchLength_meets {base e : Nat} {s : State} (he : e ≤ 16) (hb : base + 2 ^ e ≤ 512) :
    s.MeetsToken (s.matchLength base e) fun t =>
      ∃ u : State, s.After u ∧ u.block = { s.block with mlen := u.block.mlen } ∧
        base ≤ u.block.mlen.toNat ∧ u.block.mlen.toNat < base + 2 ^ e ∧ t = u.goto .matchDist := by
  refine State.MeetsToken.bind (State.readExtra_token he s) ?_
  rintro v u ⟨h1, h2, -, ha, hbl⟩
  have hv : v % 512 = v := Nat.mod_eq_of_lt (by omega)
  refine ⟨{ u with block := { u.block with mlen := BitVec.ofNat 9 v } }, ⟨ha.later, ha.order, ha.window, ha.seq, ha.port⟩, ?_,
    ?_, ?_, rfl⟩
  · simp [hbl]
  · simp [hv, h1]
  · simp [hv, h2]

/-- The distance half of a match (42_deflate_block R175, R182, R183). -/
theorem State.matchDistance_meets {base e : Nat} {s : State} (he : e ≤ 16) (h1 : 1 ≤ base) (hb : base + 2 ^ e ≤ 65536) :
    s.MeetsToken (s.matchDistance base e) fun t =>
      ∃ u : State, s.After u ∧ u.block = { s.block with mdist := u.block.mdist, mrem := s.block.mlen } ∧
        1 ≤ u.block.mdist.toNat ∧ u.block.mdist.toNat ≤ s.window.histValid.toNat ∧ t = u.goto .matchCopy := by
  refine State.MeetsToken.bind (State.readExtra_token he s) ?_
  rintro v u ⟨h2, h3, -, ha, hbl⟩
  have hv : v % 65536 = v := Nat.mod_eq_of_lt (by omega)
  unfold State.startMatchCopy
  split
  · exact ⟨⟨ha.later, ha.order, ha.window, ha.seq, ha.port⟩, fun _ => ⟨by simp, by simp, by simp⟩⟩
  · rename_i hlt
    refine ⟨{ u with block := { u.block with mdist := BitVec.ofNat 16 v, mrem := u.block.mlen } },
      ⟨ha.later, ha.order, ha.window, ha.seq, ha.port⟩, ?_, ?_, ?_, rfl⟩
    · simp [hbl]
    · simp [hv]; omega
    · have := ha.window
      simp only [BitVec.not_lt, BitVec.le_def, BitVec.toNat_ofNat] at hlt ⊢
      rw [← this]; exact hlt

/-- One byte of a match copy that reaches inside the window (42_deflate_block R184). -/
theorem State.matchCopyStep_eq {s : State} (hw : s.window.Inv) (h1 : 1 ≤ s.block.mdist.toNat)
    (h2 : s.block.mdist.toNat ≤ s.window.histValid.toNat) (hr : s.block.mrem ≠ 0) :
    ∃ b, s.window.out[s.window.out.length - s.block.mdist.toNat]? = some b ∧
      s.matchCopyStep = .ok () { s.emit b with block := { s.block with mrem := s.block.mrem - 1 } } := by
  obtain ⟨b, hb, ho⟩ := Window.histRead_ok hw h1 h2
  exact ⟨b, ho, by rw [State.matchCopyStep, if_neg hr, hb]⟩

/-! ## Stored blocks -/

/-- The stored header's operation (42_deflate_block R154 to R158). -/
theorem State.storedHdr_meets (s : State) :
    s.MeetsToken ((s.withReader (.ok () s.reader.alignToByte)).bind fun _ s1 =>
      s1.readSlen.bind fun _ s2 => s2.readSnlen.bind fun _ s3 => s3.startStoredCopy) fun t =>
      Reader.Beyond 32 s.reader t.reader ∧ t.reader.ccount = 0 ∧ t.window = s.window ∧ t.port = s.port ∧
        t.block = { s.block with slen := t.block.slen, snlen := t.block.snlen, srem := t.block.srem } ∧
        (s.seq.nlenMismatch = true → t.seq.nlenMismatch = true) ∧
        t.seq = { s.seq with nlenMismatch := t.seq.nlenMismatch, phase := .storedCopy } := by
  have field : ∀ (u : State), s.After u → u.reader.ccount = 0 →
      (u.withReader u.reader.readRawHalf).Meets
        (fun _ t => Reader.Beyond 16 u.reader t.reader ∧ t.reader.ccount = 0 ∧ t = { u with reader := t.reader })
        s.Raises (¬ s.reader.Ready) (fun _ => False) := by
    intro u hu hc
    refine (Reader.readRawHalf_meets u.reader).withReader.mono ?_ ?_ (fun h hr => h (hr.later hu.later)) (fun _ h => h)
    · rintro _ t ⟨⟨h1, h2⟩, h3⟩; exact ⟨h1, h2, h3⟩
    · rintro e t ⟨⟨h1, h0, h2⟩, h3⟩
      refine State.Raises.after hu ⟨⟨h1, fun _ => Or.inl (h0 hc), by rw [h3], by rw [h3], by rw [h3]⟩, fun _ => ?_⟩
      rcases h2 with rfl | ⟨-, h⟩
      · exact ⟨by simp, by simp, by simp⟩
      · exact absurd hc h
  rw [State.withReader_ok, Res.bind_ok]
  have ha0 : s.After { s with reader := s.reader.alignToByte } :=
    ⟨Reader.alignToByte_later _, fun _ => Or.inl rfl, rfl, rfl, rfl⟩
  refine State.MeetsToken.bind (okP := fun _ u => Reader.Beyond 16 s.reader u.reader ∧ u.reader.ccount = 0 ∧ s.After u ∧
    u.block = { s.block with slen := u.block.slen }) ?_ ?_
  · refine Res.Meets.bind (field _ ha0 rfl) ?_
    rintro v u ⟨h1, h2, h3⟩
    have hl := ha0.later.trans h1.1
    refine ⟨⟨hl, ?_⟩, h2, ⟨hl, fun _ => Or.inl h2, by rw [h3], by rw [h3], by rw [h3]⟩, by rw [h3]⟩
    have h1' := h1.2
    have ha' := ha0.later.2.2.2.1
    simp only at h1' ha' ⊢
    omega
  · rintro _ u ⟨hb1, hc1, ha1, hbl1⟩
    refine State.MeetsToken.bind (okP := fun _ w => Reader.Beyond 32 s.reader w.reader ∧ w.reader.ccount = 0 ∧ s.After w ∧
      w.block = { s.block with slen := w.block.slen, snlen := w.block.snlen }) ?_ ?_
    · refine Res.Meets.bind (field _ ha1 hc1) ?_
      rintro v w ⟨h1, h2, h3⟩
      have hb : Reader.Beyond 32 s.reader w.reader := hb1.trans h1
      refine ⟨hb, h2, ⟨hb.1, fun _ => Or.inl h2, ?_, ?_, ?_⟩, ?_⟩
      · rw [h3]; exact ha1.window
      · rw [h3]; exact ha1.seq
      · rw [h3]; exact ha1.port
      · rw [h3]; simp only; rw [hbl1]
    · rintro _ w ⟨hb2, hc2, ha2, hbl2⟩
      unfold State.startStoredCopy
      split
      · exact ⟨ha2, fun _ => ⟨by simp, by simp, by simp⟩⟩
      · refine ⟨hb2, hc2, ha2.window, ha2.port, ?_, ?_, ?_⟩
        · simp only; rw [hbl2]
        · intro h
          simp only [Sequencer.checkNlen]
          split <;> simp [ha2.seq, h]
        · simp only [Sequencer.checkNlen]
          split <;> simp [ha2.seq]

/-- One byte of a stored copy (42_deflate_block R159). -/
theorem State.storedCopyStep_meets {s : State} (hr : s.block.srem ≠ 0) :
    (s.storedCopyStep).Meets
      (fun _ t => ∃ b r, Reader.Beyond 8 s.reader r ∧ r.ccount = 0 ∧
        t = { s with reader := r, window := s.window.emit b, block := { s.block with srem := s.block.srem - 1 } })
      (fun e t => t = s ∧ (s.reader.ccount = 0 → e.ofStream)) (¬ s.reader.Ready) (fun _ => False) := by
  unfold State.storedCopyStep
  rw [if_neg hr]
  refine Res.Meets.bind (s.reader.readRawByte_meets.withReader.mono (fun _ _ h => h) ?_ id (fun _ h => h)) ?_
  · rintro e t ⟨⟨h1, h2⟩, h3⟩
    refine ⟨by rw [h3, h1], fun hc => ?_⟩
    rcases h2 with rfl | ⟨-, h⟩
    · exact ⟨by simp, by simp, by simp⟩
    · exact absurd hc h
  · rintro b t ⟨⟨h1, h2, -⟩, h3⟩
    exact ⟨b, t.reader, h1, h2, by rw [h3]; rfl⟩

/-! ## The dynamic header -/

/-- The three counts (42_deflate_block R160). -/
theorem State.readCounts_meets (s : State) :
    s.MeetsToken s.readCounts fun t => s.After t ∧ Reader.Beyond 14 s.reader t.reader ∧
      t.block = { s.block with hlit := t.block.hlit, hdist := t.block.hdist, hclen := t.block.hclen } ∧
      257 ≤ t.block.hlit.toNat ∧ t.block.hlit.toNat ≤ 288 ∧ 1 ≤ t.block.hdist.toNat ∧ t.block.hdist.toNat ≤ 32 := by
  refine State.MeetsToken.bind (State.readExtra_token (by decide) s) ?_
  rintro v1 u1 ⟨h1, h1', b1, a1, e1⟩
  have hv1 : v1 % 512 = v1 := Nat.mod_eq_of_lt (by omega)
  have a1' : s.After { u1 with block := { u1.block with hlit := BitVec.ofNat 9 v1 } } :=
    ⟨a1.later, a1.order, a1.window, a1.seq, a1.port⟩
  refine State.MeetsToken.after a1' (State.MeetsToken.bind (State.readExtra_token (by decide) _) ?_) (fun _ h => h)
  rintro v2 u2 ⟨h2, h2', b2, a2, e2⟩
  have hv2 : v2 % 64 = v2 := Nat.mod_eq_of_lt (by omega)
  have a2' := a1'.trans a2
  refine State.MeetsToken.after (u := { u2 with block := { u2.block with hdist := BitVec.ofNat 6 v2 } })
    ⟨a2.later, a2.order, a2.window, a2.seq, a2.port⟩ (State.MeetsToken.bind (State.readExtra_token (by decide) _) ?_)
    (fun _ h => h)
  rintro v3 u3 ⟨h3, h3', b3, a3, e3⟩
  refine ⟨?_, ?_, ?_, ?_, ?_, ?_, ?_⟩
  · have a2'' : s.After { u2 with block := { u2.block with hdist := BitVec.ofNat 6 v2 } } :=
      ⟨a2'.later, a2'.order, a2'.window, a2'.seq, a2'.port⟩
    have a3' := a2''.trans a3
    exact ⟨a3'.later, a3'.order, a3'.window, a3'.seq, a3'.port⟩
  · exact (b1.trans b2).trans b3
  all_goals simp only [e3, e2, e1, BitVec.toNat_ofNat, hv1, hv2]
  all_goals omega

/-- The code-length fields (42_deflate_block R161). -/
theorem State.readClLens_meets (order : List (Fin 19)) (s : State) :
    s.MeetsToken (State.readClLens order s) fun t => s.After t ∧ t.block = { s.block with clLens := t.block.clLens } := by
  induction order generalizing s with
  | nil => exact ⟨State.After.refl s, rfl⟩
  | cons i rest ih =>
    have hr := (Reader.readBitsLsb_meets (n := 3) (by decide) s.reader).withReader (s := s)
    refine State.MeetsToken.bind (okP := fun _ u => s.After u ∧ u.block = s.block) (hr.mono ?_ ?_ id (fun _ h => h)) ?_
    · rintro v u ⟨⟨h1, h2, -⟩, h3⟩
      exact ⟨⟨h1.1, h2, by rw [h3], by rw [h3], by rw [h3]⟩, by rw [h3]⟩
    · rintro e u ⟨⟨h1, h0, h2⟩, h3⟩
      refine ⟨⟨h1, h0, by rw [h3], by rw [h3], by rw [h3]⟩, fun ho => ?_⟩
      rcases h2 with rfl | ⟨-, h⟩
      · exact ⟨by simp, by simp, by simp⟩
      · exact absurd ho h
    · rintro v u ⟨ha, hb⟩
      refine State.MeetsToken.after (u := { u with block := { u.block with clLens := u.block.clLens.set i.val (v.setWidth 3) } })
        ⟨ha.later, ha.order, ha.window, ha.seq, ha.port⟩ (ih _) ?_
      rintro t ⟨h1, h2⟩
      have h1' : s.After { u with block := { u.block with clLens := u.block.clLens.set i.val (v.setWidth 3) } } :=
        ⟨ha.later, ha.order, ha.window, ha.seq, ha.port⟩
      refine ⟨h1'.trans h1, ?_⟩
      rw [h2, hb]

/-- The dynamic header's operation (42_deflate_block R160 to R163). -/
theorem State.dynHdr_meets (s : State) :
    s.MeetsToken (s.readCounts.bind fun _ s1 => s1.readClArray.bind fun _ s2 => s2.startDynLens) fun t =>
      ∃ u : State, s.After u ∧ Reader.Beyond 14 s.reader u.reader ∧ t = u.goto .dynLens ∧ tablePresent 19 u.block.tCl ∧
        257 ≤ u.block.hlit.toNat ∧ u.block.hlit.toNat ≤ 288 ∧ 1 ≤ u.block.hdist.toNat ∧ u.block.hdist.toNat ≤ 32 ∧
        u.block.li = 0 ∧ u.block.tLl = s.block.tLl ∧ u.block.tD = s.block.tD ∧ u.block.mrem = s.block.mrem := by
  refine State.MeetsToken.bind (State.readCounts_meets s) ?_
  rintro _ u ⟨ha, hb, hbl, g1, g2, g3, g4⟩
  refine State.MeetsToken.after ha (State.MeetsToken.bind (okP := fun _ w => u.After w ∧
    w.block = { u.block with clLens := w.block.clLens }) ?_ ?_) (fun _ h => h)
  · refine State.MeetsToken.after (u := { u with block := { u.block with clLens := Vector.replicate 19 0 } })
      ⟨Reader.Later.refl _, id, rfl, rfl, rfl⟩ (State.readClLens_meets _ _) ?_
    rintro t ⟨h1, h2⟩
    have h1' : u.After { u with block := { u.block with clLens := Vector.replicate 19 0 } } :=
      ⟨Reader.Later.refl _, id, rfl, rfl, rfl⟩
    exact ⟨h1'.trans h1, h2⟩
  · rintro _ w ⟨ha2, hbl2⟩
    refine State.MeetsToken.after ha2 ?_ (fun _ h => h)
    unfold State.startDynLens
    refine State.MeetsToken.bind ((State.buildInto_meets .cl w.block.clArray w).mono (fun _ _ h => h) ?_ (fun h => h.elim)
      (fun _ h => h)) ?_
    · rintro e v ⟨rfl, -, rfl⟩
      exact ⟨⟨Reader.Later.refl _, id, rfl, rfl, rfl⟩, fun _ => ⟨by simp, by simp, by simp⟩⟩
    · rintro _ v ⟨x, hx, rfl⟩
      have hb2 : Reader.Beyond 14 s.reader w.reader := ⟨hb.1.trans ha2.later, by
        have := hb.2; have := ha2.later.2.2.2.1; omega⟩
      have ha3 := ha.trans ha2
      refine ⟨{ w with block := { (w.block.setTable .cl (some x)) with li := 0 } },
        ⟨ha3.later, ha3.order, ha3.window, ha3.seq, ha3.port⟩, hb2, rfl, ⟨x, rfl, ?_⟩, ?_⟩
      · have := build_fits hx
        simpa [Block.clArray] using this
      · have e1 : w.block.hlit = u.block.hlit := by rw [hbl2]
        have e2 : w.block.hdist = u.block.hdist := by rw [hbl2]
        refine ⟨?_, ?_, ?_, ?_, rfl, ?_, ?_, ?_⟩
        · show 257 ≤ w.block.hlit.toNat; rw [e1]; exact g1
        · show w.block.hlit.toNat ≤ 288; rw [e1]; exact g2
        · show 1 ≤ w.block.hdist.toNat; rw [e2]; exact g3
        · show w.block.hdist.toNat ≤ 32; rw [e2]; exact g4
        · show w.block.tLl = s.block.tLl; rw [hbl2]; simp only; rw [hbl]
        · show w.block.tD = s.block.tD; rw [hbl2]; simp only; rw [hbl]
        · show w.block.mrem = s.block.mrem; rw [hbl2]; simp only; rw [hbl]

/-! ## Fetches -/

/-- The signature's two bytes (43_mszip_frame R200): the carry is gone, and whatever was fetched stays consumed. -/
theorem Reader.readSignature_meets (r : Reader) :
    r.readSignature.Meets
      (fun v r' => r.Later r' ∧ r'.ccount = 0 ∧ (v.isSome = true → Reader.Beyond 16 r r')) (fun _ _ => False) (¬ r.Ready)
      (fun _ => False) := by
  unfold Reader.readSignature
  have ha := Reader.alignToByte_later r
  refine ((r.alignToByte.fetchByte_meets).mono (fun _ _ h => h) (fun _ _ h => h) (fun h hr => h (hr.later ha))
    (fun _ h => h)).bind ?_
  rintro f0 r1 ⟨hl, hc, -, ⟨rfl, rfl, -⟩ | ⟨hs, -, rfl⟩⟩
  · exact ⟨ha, rfl, by simp⟩
  · obtain ⟨b0, rfl⟩ := Option.isSome_iff_exists.mp hs
    have hl1 := ha.trans hl
    refine (Reader.fetchByte_meets _).mono (fun _ _ h => h) (fun _ _ h => h) (fun h hr => h (hr.later hl1))
      (fun _ h => h) |>.bind ?_
    rintro f1 r2 ⟨hl2, hc2, -, ⟨rfl, rfl, -⟩ | ⟨hs2, -, rfl⟩⟩
    · exact ⟨hl1, hc, by simp⟩
    · obtain ⟨b1, rfl⟩ := Option.isSome_iff_exists.mp hs2
      refine ⟨hl1.trans hl2, rfl, fun _ => ⟨hl1.trans hl2, ?_⟩⟩
      simp [Reader.alignToByte]; omega

/-- The header's three bits (42_deflate_block R150). -/
theorem State.readHeader_meets (s : State) :
    (s.readHeader).Meets
      (fun _ u => s.After u ∧ Reader.Beyond 3 s.reader u.reader ∧ u.block = { s.block with bfinal := u.block.bfinal })
      s.Raises (¬ s.reader.Ready) (fun _ => False) := by
  have part : ∀ (n : Nat) (_ : n ≤ 16) (w : State), s.After w → (w.withReader (w.reader.readBitsLsb n)).Meets
      (fun _ u => s.After u ∧ Reader.Beyond n w.reader u.reader ∧ u.block = w.block) s.Raises (¬ s.reader.Ready)
      (fun _ => False) := by
    intro n hn w hw
    refine (Reader.readBitsLsb_meets hn w.reader).withReader.mono ?_ ?_ (fun h hr => h (hr.later hw.later)) (fun _ h => h)
    · rintro v u ⟨⟨h1, h2, -⟩, h3⟩
      have : w.After u := ⟨h1.1, h2, by rw [h3], by rw [h3], by rw [h3]⟩
      exact ⟨hw.trans this, h1, by rw [h3]⟩
    · rintro e u ⟨⟨h1, h0, h2⟩, h3⟩
      refine State.Raises.after hw ⟨⟨h1, h0, by rw [h3], by rw [h3], by rw [h3]⟩, fun ho => ?_⟩
      rcases h2 with rfl | ⟨-, h⟩
      · exact ⟨by simp, by simp, by simp⟩
      · exact absurd ho h
  unfold State.readHeader
  refine (part 1 (by decide) s (State.After.refl s)).bind ?_
  rintro f u ⟨ha, hb, hbl⟩
  have ha' : s.After { u with block := { u.block with bfinal := f != 0 } } := ⟨ha.later, ha.order, ha.window, ha.seq, ha.port⟩
  refine (part 2 (by decide) _ ha').bind ?_
  rintro t w ⟨ha2, hb2, hbl2⟩
  exact ⟨ha2, hb.trans hb2, by rw [hbl2]; simp only; rw [hbl]⟩

end Sys2Proof.Machine
end

