-- ==== Sys2Proof/Tests/Slice0.lean ====
section
/-! SUPPORT. The model's own tests: refused terms, words written out from the encodings, the spec's test vectors one step at a
time (95_test_vectors; the vector's name stands in the theorem's comment), and the witnesses of the statements' hypotheses. -/

namespace Sys2Proof.Tests

open Sys2Proof.Machine Sys2Proof.Claims

-- Each theorem is checked before the next one starts: the kernel's work here would otherwise hold one thread a theorem.
set_option Elab.async false

/-! ## Helpers -/

/-- A reader at the start of an answered input. -/
def reading (bytes : List Byte) : Reader :=
  { input := some bytes, granted := bytes.length + 1, pos := 0, curByte := 0, ccount := 0, corder := .lsb }

/-- A reader that has opened its first byte in an order and has `k` bits of it left. -/
def inside (bytes : List Byte) (o : BitOrder) (k : BitVec 3) : Reader :=
  { reading bytes with pos := 1, curByte := bytes.headD 0, ccount := k, corder := o }

/-- A reader whose first `n` FetchBytes the host has answered, and no more. -/
def offered (r : Reader) (n : Nat) : Reader := { r with granted := n }

/-- The reset machine with a reader, in a phase. -/
def machine (p : Phase) (r : Reader) : State := { State.reset with reader := r, seq := { Sequencer.reset with phase := p } }

/-- The machine with its block registers. -/
def withBlock (s : State) (b : Block) : State := { s with block := b }

/-- The machine with the host's coming moves. -/
def withTurns (s : State) (ts : List Turn) : State := { s with port := { s.port with turns := ts } }

/-- The outcome is a next state with a property. -/
def reaches (o : Host.Outcome State Fault Refusal) (p : State → Bool) : Bool :=
  match o with
  | .next t => p t
  | .fault _ => false
  | .refused _ => false

/-- A command's result and the cursor after it: pos, ccount, corder is MSB, cur_byte. -/
def completed (o : Host.Outcome State Fault Refusal) (c : Completion) (pos cc : Nat) (msb : Bool) (cur : Nat) : Bool :=
  reaches o fun t => t.port.result == some c && t.reader.pos == pos && t.reader.ccount.toNat == cc &&
    (t.reader.corder == .msb) == msb && t.reader.curByte.toNat == cur

/-- The engine stopped with an error, at a position. -/
def stopped (o : Host.Outcome State Fault Refusal) (e : ErrKind) (pos cc : Nat) : Bool :=
  reaches o fun t => t.seq.err == some e && t.seq.phase == .error && t.reader.pos == pos && t.reader.ccount.toNat == cc

/-! ## Well-formedness: each check refuses -/

theorem test_wf_readBitsLsb_17 : (Instr.readBitsLsb 17).wellFormed = false ∧ (Instr.readBitsLsb 16).wellFormed = true := by decide
theorem test_wf_readBitsMsb_17 : (Instr.readBitsMsb 17).wellFormed = false ∧ (Instr.readBitsMsb 16).wellFormed = true := by decide
theorem test_wf_cl_count : (Instr.buildTable .cl (List.replicate 18 1)).wellFormed = false := by decide
theorem test_wf_cl_length_8 : (Instr.buildTable .cl (8 :: List.replicate 18 1)).wellFormed = false := by decide
theorem test_wf_ll_short : (Instr.buildTable .ll (List.replicate 256 1)).wellFormed = false := by decide +kernel
theorem test_wf_ll_long : (Instr.buildTable .ll (List.replicate 289 1)).wellFormed = false := by decide +kernel
theorem test_wf_d_empty : (Instr.buildTable .d []).wellFormed = false := by decide
theorem test_wf_d_long : (Instr.buildTable .d (List.replicate 33 1)).wellFormed = false := by decide

/-! ## Decoding: words written out from the encodings -/

/-- R81, R82, R83, R84. -/
theorem test_decode_frame_and_headers :
    decode .sig 0b0100101101000011 = .ok .sig ∧
    decode .blkHdr 0b000 = .ok (.btypeStored false) ∧ decode .blkHdr 0b001 = .ok (.btypeStored true) ∧
    decode .blkHdr 0b010 = .ok (.btypeFixed false) ∧ decode .blkHdr 0b011 = .ok (.btypeFixed true) ∧
    decode .blkHdr 0b100 = .ok (.btypeDynamic false) ∧ decode .blkHdr 0b101 = .ok (.btypeDynamic true) ∧
    decode .blkHdr 0b110 = .ok (.btypeReserved false) ∧ decode .blkHdr 0b111 = .ok (.btypeReserved true) ∧
    decode .blkHdr 8 = .error .notThreeBits ∧
    decode .stored 0 = .ok .storedHdr ∧ decode .dynHdr 0 = .ok .dynHdr ∧ decode .stored 1 = .error .noOpcodeBits := by decide

/-- R87. -/
theorem test_decode_code_lengths :
    decode .clSymbol 0b00000 = .ok (.clLit 0) ∧ decode .clSymbol 0b01111 = .ok (.clLit 15) ∧
    decode .clSymbol 0b10000 = .ok .clRep ∧ decode .clSymbol 0b10001 = .ok .clZ3 ∧ decode .clSymbol 0b10010 = .ok .clZ11 := by
  decide

/-- R88: literals, end of block, the reserved symbols. -/
theorem test_decode_literals :
    decode .llSymbol 0b000000000 = .ok (.lit 0) ∧ decode .llSymbol 0b011111111 = .ok (.lit 255) ∧
    decode .llSymbol 0b100000000 = .ok .eob ∧ decode .llSymbol 0b100011110 = .ok (.llReserved false) ∧
    decode .llSymbol 0b100011111 = .ok (.llReserved true) := by decide

/-- The length symbols as nine-bit values (R88). -/
def lengthWords : List (Nat × Instr) :=
  [(0b100000001, .len257), (0b100000010, .len258), (0b100000011, .len259), (0b100000100, .len260), (0b100000101, .len261),
   (0b100000110, .len262), (0b100000111, .len263), (0b100001000, .len264), (0b100001001, .len265), (0b100001010, .len266),
   (0b100001011, .len267), (0b100001100, .len268), (0b100001101, .len269), (0b100001110, .len270), (0b100001111, .len271),
   (0b100010000, .len272), (0b100010001, .len273), (0b100010010, .len274), (0b100010011, .len275), (0b100010100, .len276),
   (0b100010101, .len277), (0b100010110, .len278), (0b100010111, .len279), (0b100011000, .len280), (0b100011001, .len281),
   (0b100011010, .len282), (0b100011011, .len283), (0b100011100, .len284), (0b100011101, .len285)]

theorem test_decode_lengths : ∀ p ∈ lengthWords, decode .llSymbol p.1 = .ok p.2 := by decide

/-- The distance symbols as five-bit values (R89). -/
def distanceWords : List (Nat × Instr) :=
  [(0b00000, .dist0), (0b00001, .dist1), (0b00010, .dist2), (0b00011, .dist3), (0b00100, .dist4), (0b00101, .dist5),
   (0b00110, .dist6), (0b00111, .dist7), (0b01000, .dist8), (0b01001, .dist9), (0b01010, .dist10), (0b01011, .dist11),
   (0b01100, .dist12), (0b01101, .dist13), (0b01110, .dist14), (0b01111, .dist15), (0b10000, .dist16), (0b10001, .dist17),
   (0b10010, .dist18), (0b10011, .dist19), (0b10100, .dist20), (0b10101, .dist21), (0b10110, .dist22), (0b10111, .dist23),
   (0b11000, .dist24), (0b11001, .dist25), (0b11010, .dist26), (0b11011, .dist27), (0b11100, .dist28), (0b11101, .dist29)]

theorem test_decode_distances : ∀ p ∈ distanceWords, decode .dSymbol p.1 = .ok p.2 := by decide

/-- R89: the reserved symbols. -/
theorem test_decode_reserved_distances :
    decode .dSymbol 0b11110 = .ok (.dReserved false) ∧ decode .dSymbol 0b11111 = .ok (.dReserved true) := by decide

/-- R95, R96: OP, three zeros, ORD, three zeros, N. -/
theorem test_decode_commands :
    decode .readerCmd 0b0000000000000000 = .ok .readBitLsb ∧ decode .readerCmd 0b0000000100000000 = .ok .readBitMsb ∧
    decode .readerCmd 0b0001000000001101 = .ok (.readBitsLsb 13) ∧ decode .readerCmd 0b0001000100010000 = .ok (.readBitsMsb 16) ∧
    decode .readerCmd 0b0010000000000000 = .ok .readRawByte ∧ decode .readerCmd 0b0011000000000000 = .ok .align ∧
    decode .readerCmd 0x1011 = .error .reservedReaderCommand ∧ decode .readerCmd 0x0001 = .error .reservedReaderCommand ∧
    decode .readerCmd 0x2100 = .error .reservedReaderCommand ∧ decode .readerCmd 0x1203 = .error .reservedReaderCommand ∧
    decode .readerCmd 0x1023 = .error .reservedReaderCommand ∧ decode .readerCmd 0x4000 = .error .reservedReaderCommand := by
  decide

/-- BUILD and DECODE have no stream encoding. -/
theorem test_internal_not_in_stream :
    encode (.buildTable .d [1]) = none ∧ encode (.decodeSymbol .ll) = none ∧ decode .internal 0 = .error .notInStream := by decide

/-- A word of the opcode table decodes and runs as the next step (the header 0b011 in three bits). -/
theorem test_table_word :
    decodeTableWord 3 0b010 = some (.btypeFixed false) ∧
    reaches (step (State.reset.withFetchWord 3 0b010)) (fun t => t.seq.phase == .payload && t.block.btype == 1) = true := by
  decide +kernel

/-! ## The reader (vectors V-R) -/

/-- V-R1, the first and the eighth bit. -/
theorem test_readBitLsb :
    completed (exec .readBitLsb (machine .idle (reading [0xB4]))) (.value 0) 1 7 false 0xB4 = true ∧
    completed (exec .readBitLsb (machine .idle (inside [0xB4] .lsb 1))) (.value 1) 1 0 false 0xB4 = true := by decide +kernel

/-- R62, R234: a bit of a byte delivered while the rest of INPUT is not; a byte not delivered is waited for, INPUT bound or not. -/
theorem test_read_waits :
    completed (exec .readBitLsb (machine .idle (offered (reading [0xB4, 0x01]) 1))) (.value 0) 1 7 false 0xB4 = true ∧
    reaches (exec .readRawByte (machine .idle { offered (reading [0xB4, 0x01]) 1 with pos := 1 }))
      (fun t => t.port.waiting && t.reader.pos == 1 && t.port.result == none) = true ∧
    reaches (step (machine .sig Reader.reset)) (fun t => t.port.waiting && t.seq.phase == .sig && t.reader.pos == 0) = true := by
  decide +kernel

/-- V-R2, the first and the eighth bit. -/
theorem test_readBitMsb :
    completed (exec .readBitMsb (machine .idle (reading [0xB4]))) (.value 1) 1 7 true 0xB4 = true ∧
    completed (exec .readBitMsb (machine .idle (inside [0xB4] .msb 1))) (.value 0) 1 0 true 0xB4 = true := by decide +kernel

/-- V-R15: sixteen bits across two byte boundaries; V-R11: an input that ends inside. -/
theorem test_readBitsLsb :
    completed (exec (.readBitsLsb 16) (machine .idle (inside [0xFF, 0x12, 0x34] .lsb 1))) (.value 0x6825) 3 1 false 0x34 = true ∧
    completed (exec (.readBitsLsb 10) (machine .idle (reading [0xB4]))) (.error .unexpectedEndOfInput) 1 0 false 0xB4 = true := by
  decide +kernel

/-- V-R4's second command; V-R18. -/
theorem test_readBitsMsb :
    completed (exec (.readBitsMsb 7) (machine .idle (inside [0xB4, 0x01] .msb 5))) (.value 80) 2 6 true 0x01 = true ∧
    completed (exec (.readBitsMsb 16) (machine .idle (reading [0x12, 0x34]))) (.value 0x1234) 2 0 true 0x34 = true := by
  decide +kernel

/-- V-R6 and V-R9. -/
theorem test_readRawByte :
    completed (exec .readRawByte (machine .idle (inside [0xB4, 0x01] .lsb 7))) (.error .misalignedRawRead) 1 7 false 0xB4 = true ∧
    completed (exec .readRawByte (machine .idle (reading [0x43, 0x4B]))) (.value 0x43) 1 0 false 0 = true := by decide +kernel

/-- V-R5's second command. -/
theorem test_align :
    completed (exec .align (machine .idle (inside [0xB4, 0x01] .lsb 5))) (.value 0) 1 0 false 0xB4 = true := by decide +kernel

/-! ## Tables (vectors V-H) -/

/-- The lengths of V-H1. -/
def lensH1 : List (BitVec 4) := [3, 3, 3, 3, 3, 2, 4, 4]

/-- The table of V-H1. -/
def tableH1 : Table :=
  [⟨0b010, 3, 0⟩, ⟨0b011, 3, 1⟩, ⟨0b100, 3, 2⟩, ⟨0b101, 3, 3⟩, ⟨0b110, 3, 4⟩, ⟨0b00, 2, 5⟩, ⟨0b1110, 4, 6⟩, ⟨0b1111, 4, 7⟩]

/-- V-H1 and V-H7. -/
theorem test_build :
    reaches (exec (.buildTable .d lensH1) State.reset) (fun t => t.block.tD == some tableH1) = true ∧
    reaches (exec (.buildTable .d [1, 15]) State.reset)
      (fun t => t.block.tD == some [⟨0, 1, 0⟩, ⟨0b100000000000000, 15, 1⟩]) = true := by decide +kernel

/-- V-H4: over-subscribed lengths leave the register absent. -/
theorem test_build_oversubscribed :
    reaches (exec (.buildTable .ll [1, 1, 1]) { State.reset with block := { Block.reset with tLl := some [] } })
      (fun t => t.block.tLl == none && t.seq.err == some .invalidHuffmanTable) = true := by decide +kernel

/-- A machine with a table in T_D and some bytes to decode from. -/
def decoding (t : Table) (bytes : List Byte) : State := withBlock (machine .payload (reading bytes)) { Block.reset with tD := some t }

/-- V-H13: bits 1,1,1,0. V-H16: bit 1 against one code of one bit. -/
theorem test_decode_symbol :
    reaches (exec (.decodeSymbol .d) (decoding tableH1 [0b0111])) (fun t => t.block.sym == 6 && t.reader.ccount == 4) = true ∧
    stopped (exec (.decodeSymbol .d) (decoding [⟨0, 1, 0⟩] [1])) .invalidHuffmanTable 1 7 = true := by decide +kernel

/-- V-H17 and V-H18. -/
theorem test_decode_symbol_stops :
    stopped (exec (.decodeSymbol .d) (decoding [] [1])) .invalidHuffmanTable 0 0 = true ∧
    stopped (exec (.decodeSymbol .d) { decoding tableH1 [0xC0] with reader := inside [0xC0] .lsb 2 }) .unexpectedEndOfInput 1 0 =
      true := by decide +kernel

/-! ## Frames and blocks (vectors V-F, V-B, V-S) -/

/-- The signature of every vector; V-F3. -/
theorem test_sig :
    reaches (exec .sig { machine .sig (reading []) with window := { Window.reset with frameOut := 3 } })
      (fun t => t.seq.phase == .blkHdr && t.window.frameOut == 0) = true ∧
    stopped (step (machine .sig (reading [0x43, 0x58, 0x4B]))) .signatureMismatch 2 0 = true := by decide +kernel

/-- V-F6: one byte after a frame ends the sequence. -/
theorem test_sig_ends_sequence :
    reaches (step { machine .sig (reading [0x43]) with seq := { Sequencer.reset with phase := .sig, anyFrame := true } })
      (fun t => t.seq.phase == .done && t.reader.pos == 1) = true := by decide +kernel

/-- R150's example: 0x4B is BFINAL 1, BTYPE 01, with ccount 5 left. -/
theorem test_btypeFixed :
    reaches (step (machine .blkHdr (reading [0x4B]))) (fun t => t.block.bfinal && t.block.btype == 1 &&
      t.reader.ccount == 5 && t.seq.phase == .payload && (t.block.tLl.getD []).length == 288) = true := by decide +kernel

/-- Headers 0b001 and 0b100. -/
theorem test_btypeStored_btypeDynamic :
    reaches (step (machine .blkHdr (reading [0b001]))) (fun t => t.block.bfinal && t.seq.phase == .storedHdr) = true ∧
    reaches (step (machine .blkHdr (reading [0b100]))) (fun t => !t.block.bfinal && t.seq.phase == .dynHdr) = true := by
  decide +kernel

/-- V-B2. -/
theorem test_btypeReserved : stopped (step (machine .blkHdr (reading [0x06]))) .invalidBlockType 1 5 = true := by decide +kernel

/-- V-S2 and V-S3b: LEN, NLEN both 0; NLEN 0 with strict. -/
theorem test_storedHdr :
    stopped (exec .storedHdr (machine .storedHdr (inside [0x01, 0, 0, 0, 0] .lsb 5))) .degenerateStoredBlock 5 0 = true ∧
    reaches (exec .storedHdr { machine .storedHdr (inside [0x01, 5, 0, 0, 0] .lsb 5) with
        seq := { Sequencer.reset with phase := .storedHdr, strict := true } })
      (fun t => t.seq.nlenMismatch && t.block.srem == 5 && t.seq.phase == .storedCopy) = true := by decide +kernel

/-- V-S4: a stored byte is emitted as it is read. -/
theorem test_stored_copy :
    reaches (step (withBlock (machine .storedCopy (reading [1, 2])) { Block.reset with srem := 5 }))
      (fun t => t.window.out == [1] && t.block.srem == 4 && t.reader.pos == 1) = true := by decide +kernel

/-- R153, R204: the last block's end counts the frame; R153: another block follows. -/
theorem test_eob :
    reaches (exec .eob (withBlock (machine .payload (reading [])) { Block.reset with bfinal := true, tLl := some [] }))
      (fun t => t.seq.phase == .sig && t.seq.frames == 1 && t.seq.anyFrame && t.block.tLl == none) = true ∧
    reaches (exec .eob (machine .payload (reading []))) (fun t => t.seq.phase == .blkHdr && t.seq.frames == 0) = true := by
  decide +kernel

/-! ## The dynamic header and code lengths (vector P5, rules R160 to R168) -/

/-- P5's header: 5 bits of the first byte left, counts 261, 4, 18, and the code of symbol 2 is 00. -/
theorem test_dynHdr :
    reaches (exec .dynHdr (machine .dynHdr (inside [0x25, 0xC3, 0x37, 0x01, 0x00, 0x00, 0x0C, 0x80, 0x30, 0xAD] .lsb 5)))
      (fun t => t.block.hlit == 261 && t.block.hdist == 4 && t.block.hclen == 18 && t.seq.phase == .dynLens &&
        t.block.tCl == some [⟨0b100, 3, 1⟩, ⟨0b00, 2, 2⟩, ⟨0b101, 3, 4⟩, ⟨0b110, 3, 16⟩, ⟨0b111, 3, 17⟩, ⟨0b01, 2, 18⟩]) =
      true := by decide +kernel

/-- A block with code lengths being filled. -/
def filling (li : BitVec 9) (hlit : BitVec 9) (hdist : BitVec 6) (lens : Vector (BitVec 4) 320) : Block :=
  { Block.reset with li := li, hlit := hlit, hdist := hdist, lens := lens }

/-- R164's example: sym 2 at li = 97. -/
theorem test_clLit :
    reaches (exec (.clLit 2) (withBlock State.reset (filling 97 261 4 (Vector.replicate 320 0))))
      (fun t => t.block.lens[97] == 2 && t.block.li == 98 && t.block.lens[98] == 0) = true := by decide +kernel

/-- R165's example: lens[257] = 4, e = 0; and symbol 16 first. -/
theorem test_clRep :
    reaches (exec .clRep (withBlock (machine .dynLens (reading [0])) (filling 258 261 4 ((Vector.replicate 320 0).set 257 4))))
      (fun t => t.block.lens[258] == 4 && t.block.lens[260] == 4 && t.block.lens[261] == 0 && t.block.li == 261) = true ∧
    stopped (exec .clRep (withBlock (machine .dynLens (reading [0])) (filling 0 261 4 (Vector.replicate 320 0))))
      .invalidHuffmanTable 0 0 = true := by decide +kernel

/-- R166's example: e = 0 at li = 261; R168: a run past the end. -/
theorem test_clZ3 :
    reaches (exec .clZ3 (withBlock (machine .dynLens (reading [0])) (filling 261 261 4 (Vector.replicate 320 7))))
      (fun t => t.block.lens[261] == 0 && t.block.lens[263] == 0 && t.block.lens[264] == 7 && t.block.li == 264) = true ∧
    stopped (exec .clZ3 (withBlock (machine .dynLens (reading [0])) (filling 263 261 4 (Vector.replicate 320 7))))
      .invalidHuffmanTable 1 5 = true := by decide +kernel

/-- R167's example: e = 86 at li = 0 is 97 zeros. -/
theorem test_clZ11 :
    reaches (exec .clZ11 (withBlock (machine .dynLens (reading [86])) (filling 0 261 4 (Vector.replicate 320 7))))
      (fun t => t.block.lens[96] == 0 && t.block.lens[97] == 7 && t.block.li == 97) = true := by decide +kernel

/-! ## The payload (rules R172 to R185, 44_match_code_tables) -/

/-- R64: an Emit at the end of the ring. -/
theorem test_lit :
    reaches (exec (.lit 0x61) { State.reset with window := { Window.reset with hwp := 32767, histValid := 32768 } })
      (fun t => t.window.out == [0x61] && t.window.hwp == 0 && t.window.histValid == 32768 &&
        memoryRead t.window.hist 32767 == some 0x61) = true := by decide +kernel

/-- R174 and R185: no bit is read. -/
theorem test_reserved_symbols :
    stopped (exec (.llReserved false) (machine .payload (inside [0xFF] .lsb 3))) .invalidSymbol 1 3 = true ∧
    stopped (exec (.dReserved true) (machine .matchDist (inside [0xFF] .lsb 3))) .invalidSymbol 1 3 = true := by decide +kernel

/-- What mlen a length symbol gives with extra bits all 0 and all 1. -/
def lengthRange (i : Instr) (lo hi : Nat) : Bool :=
  reaches (exec i (machine .payload (reading [0]))) (fun t => t.block.mlen.toNat == lo && t.seq.phase == .matchDist) &&
    reaches (exec i (machine .payload (reading [0xFF]))) (fun t => t.block.mlen.toNat == hi)

/-- The summary table of 44_match_code_tables, length rows 257 to 270: lengths lo..hi. -/
theorem test_lengths_short :
    ∀ p ∈ ([(.len257, 3, 3), (.len258, 4, 4), (.len259, 5, 5), (.len260, 6, 6), (.len261, 7, 7), (.len262, 8, 8),
      (.len263, 9, 9), (.len264, 10, 10), (.len265, 11, 12), (.len266, 13, 14), (.len267, 15, 16), (.len268, 17, 18),
      (.len269, 19, 22), (.len270, 23, 26)] : List (Instr × Nat × Nat)), lengthRange p.1 p.2.1 p.2.2 = true := by decide +kernel

/-- Rows 271 to 285. -/
theorem test_lengths_long :
    ∀ p ∈ ([(.len271, 27, 30), (.len272, 31, 34), (.len273, 35, 42), (.len274, 43, 50), (.len275, 51, 58), (.len276, 59, 66),
      (.len277, 67, 82), (.len278, 83, 98), (.len279, 99, 114), (.len280, 115, 130), (.len281, 131, 162), (.len282, 163, 194),
      (.len283, 195, 226), (.len284, 227, 258), (.len285, 258, 258)] : List (Instr × Nat × Nat)),
      lengthRange p.1 p.2.1 p.2.2 = true := by decide +kernel

/-- A machine whose window reaches back 32768 bytes. -/
def farBack (bytes : List Byte) : State :=
  { withBlock (machine .matchDist (reading bytes)) { Block.reset with mlen := 5 } with
    window := { Window.reset with histValid := 32768 } }

/-- What mdist a distance symbol gives with extra bits all 0 and all 1. -/
def distanceRange (i : Instr) (lo hi : Nat) : Bool :=
  reaches (exec i (farBack [0, 0])) (fun t => t.block.mdist.toNat == lo && t.block.mrem == 5 && t.seq.phase == .matchCopy) &&
    reaches (exec i (farBack [0xFF, 0xFF])) (fun t => t.block.mdist.toNat == hi)

/-- The summary table of 44_match_code_tables, distance rows 0 to 14: distances lo..hi. -/
theorem test_distances_near :
    ∀ p ∈ ([(.dist0, 1, 1), (.dist1, 2, 2), (.dist2, 3, 3), (.dist3, 4, 4), (.dist4, 5, 6), (.dist5, 7, 8), (.dist6, 9, 12),
      (.dist7, 13, 16), (.dist8, 17, 24), (.dist9, 25, 32), (.dist10, 33, 48), (.dist11, 49, 64), (.dist12, 65, 96),
      (.dist13, 97, 128), (.dist14, 129, 192)] : List (Instr × Nat × Nat)), distanceRange p.1 p.2.1 p.2.2 = true := by
  decide +kernel

/-- Rows 15 to 29. -/
theorem test_distances_far :
    ∀ p ∈ ([(.dist15, 193, 256), (.dist16, 257, 384), (.dist17, 385, 512), (.dist18, 513, 768), (.dist19, 769, 1024),
      (.dist20, 1025, 1536), (.dist21, 1537, 2048), (.dist22, 2049, 3072), (.dist23, 3073, 4096), (.dist24, 4097, 6144),
      (.dist25, 6145, 8192), (.dist26, 8193, 12288), (.dist27, 12289, 16384), (.dist28, 16385, 24576),
      (.dist29, 24577, 32768)] : List (Instr × Nat × Nat)), distanceRange p.1 p.2.1 p.2.2 = true := by decide +kernel

/-- R182's example: extra value 7423 at symbol 29 is 32000; V-M5: no history at all. -/
theorem test_distance_check :
    reaches (exec .dist29 (farBack [0xFF, 0x1C])) (fun t => t.block.mdist.toNat == 32000) = true ∧
    stopped (exec .dist0 (machine .matchDist (reading []))) .invalidBackReference 0 0 = true := by decide +kernel

/-- A match copy about to start after one literal. -/
def copying (mlen mdist mrem : Nat) : State :=
  { withBlock (machine .matchCopy (reading []))
      { Block.reset with
        mlen := BitVec.ofNat 9 mlen, mdist := BitVec.ofNat 16 mdist, mrem := BitVec.ofNat 9 mrem, tLl := some [], tD := some [] } with
    window := Window.reset.emit 0x41 }

/-- P2: one byte of the match of distance 1. -/
theorem test_match_copy :
    reaches (step (copying 4 1 4)) (fun t => t.window.out == [0x41, 0x41] && t.block.mrem == 3) = true := by decide +kernel

/-! ## Registers and host moves (vectors V-C) -/

/-- STATUS at the end of V-S8 and of V-S3b. -/
theorem test_status :
    ({ State.reset with seq := { Sequencer.reset with phase := .done } } : State).statusWord = 0x902 ∧
    ({ State.reset with seq := { Sequencer.reset with phase := .done, nlenMismatch := true } } : State).statusWord = 0x90A ∧
    ({ State.reset with seq := { Sequencer.reset with phase := .error } } : State).statusWord = 0xA04 := by decide +kernel

/-- CURSOR at the end of V-B1. -/
theorem test_cursor : (machine .error (inside [0x07] .lsb 5)).cursorWord = 0x705 := by decide +kernel

/-- R252 and R60: a binding after a sequence leaves the reader its INPUT, and START takes it (V-C4's order of moves). -/
theorem test_binding_waits_for_start :
    reaches (step (withTurns (machine .done { reading [1, 2] with pos := 2 }) [.bind [3]]))
      (fun t => t.reader.input == some [1, 2] && t.reader.pos == 2 && t.port.bound == some [3]) = true ∧
    reaches (step (withTurns { machine .done (reading [1, 2]) with port := { Port.reset with bound := some [3] } } [.write 0 .word 1]))
      (fun t => t.reader.input == some [3] && t.reader.pos == 0) = true := by decide +kernel

/-- V-R's start state: after reset the listed INPUT is the reader's at once. -/
theorem test_binding_after_reset :
    reaches (step (withTurns State.reset [.bind [0xB4]]))
      (fun t => t.reader.input == some [0xB4] && t.reader.pos == 0 && t.port.bound == some [0xB4]) = true := by decide +kernel

/-! ## Witnesses: states that meet the hypotheses of the statements, each clause at a boundary -/

theorem witness_EncodedWordDecodesBack :
    (Instr.readBitsMsb 16).wellFormed = true ∧ encode (.readBitsMsb 16) = some (.readerCmd, 0x1110) := by decide

theorem witness_DecodedWordEncodesBack : decode .llSymbol 287 = .ok (.llReserved true) := by decide

theorem witness_ReservedReaderCommands :
    16 < (17 : BitVec 5).toNat ∧ 4 ≤ (0x4000 : Half).toNat / 4096 ∧
      (∃ s : State, s.port.turns = [] ∧ s.port.cmd = some 0x4000) :=
  ⟨by decide, by decide, { State.reset with port := { Port.reset with cmd := some 0x4000 } }, rfl, rfl⟩

/-- READ_BIT: the last byte answered of an input that goes on, the end of the input, a carry of the order asked for. -/
theorem witness_ReadBit (o : BitOrder) :
    ((offered (reading [0xB4, 1]) 1).ccount = 0 ∧ (offered (reading [0xB4, 1]) 1).pos < (offered (reading [0xB4, 1]) 1).granted ∧
      ((offered (reading [0xB4, 1]) 1).input.getD [])[(offered (reading [0xB4, 1]) 1).pos]? = some 0xB4 ∧
      ¬ (offered (reading [0xB4, 1]) 1).answered) ∧
    ((reading []).answered ∧ (reading []).ccount = 0 ∧ (reading []).pos = ((reading []).input.getD []).length) ∧
    ((inside [0xB4] o 1).ccount ≠ 0 ∧ (inside [0xB4] o 1).corder = o) := by
  cases o <;> decide

/-- READ_BITS and every field: 16 bits readable across two boundaries, with the rest of the input answered and not; short by one
bit; out of order. -/
theorem witness_ReadBits :
    (offered (inside [0xFF, 0x12, 0x34, 0x56] .lsb 1) 3).readable .lsb 16 ∧
    (offered (inside [0xFF, 0x12, 0x34, 0x56] .msb 1) 3).readable .msb 16 ∧
    ¬ (offered (inside [0xFF, 0x12, 0x34, 0x56] .lsb 1) 3).answered ∧
    (inside [0xFF, 0x12, 0x34] .lsb 1).readable .lsb 16 ∧ (inside [0xFF, 0x12, 0x34] .msb 1).readable .msb 16 ∧
    (inside [0xFF, 0x12] .lsb 7).short .lsb 16 ∧ (inside [0xFF, 0x12] .msb 7).short .msb 16 ∧
    ¬ (inside [0xFF] .msb 1).orderFits .lsb ∧ ¬ (inside [0xFF] .lsb 1).orderFits .msb ∧
    (reading []).readable .lsb 0 ∧ (reading []).short .lsb 1 := by decide +kernel

theorem witness_ReadRawByte :
    (inside [0xB4] .lsb 1).ccount ≠ 0 ∧
    ((offered (reading [0xB4, 1]) 1).ccount = 0 ∧ (offered (reading [0xB4, 1]) 1).pos < (offered (reading [0xB4, 1]) 1).granted ∧
      ((offered (reading [0xB4, 1]) 1).input.getD [])[(offered (reading [0xB4, 1]) 1).pos]? = some 0xB4) ∧
    ((reading []).ccount = 0 ∧ (reading []).answered ∧ (reading []).pos = ((reading []).input.getD []).length) := by decide

/-- A byte not answered, no INPUT at all, and a READ_BITS whose last bit is in a byte not answered, in both orders. -/
theorem witness_UnansweredCommandsWait :
    ((offered (reading [0xB4]) 0).ccount = 0 ∧ unanswered (offered (reading [0xB4]) 0) ∧ unanswered Reader.reset) ∧
    (offered (inside [0xFF, 0x12, 0x34] .lsb 7) 2).waits .lsb 16 ∧ (offered (inside [0xFF, 0x12, 0x34] .msb 7) 2).waits .msb 16 ∧
    Reader.reset.waits .lsb 1 ∧ Reader.reset.waits .msb 1 := by
  unfold unanswered
  decide +kernel

theorem witness_ReaderCommandsFrame : ∃ t, exec .align State.reset = .next t := ⟨_, rfl⟩

/-- Lengths that just fit and lengths just past fitting. -/
theorem witness_OversubscribedBuildIsRefused_BuildAssignsCanonicalCodes :
    2 ^ 15 < kraftSum [1, 1, 15] ∧ kraftSum [1, 1] = 2 ^ 15 ∧ kraftSum [] ≤ 2 ^ 15 := by decide

theorem witness_CodesArePrefixFree : build lensH1 = some tableH1 := by decide +kernel

/-- A code of the first byte answered, of an input that goes on. -/
theorem witness_DecodeFindsTheSymbol :
    lensFit .d lensH1 = true ∧ build lensH1 = some tableH1 ∧ (decoding tableH1 [0b0111, 1]).block.table .d = some tableH1 ∧
    (⟨0b1110, 4, 6⟩ : Entry) ∈ tableH1 ∧ (offered (reading [0b0111, 1]) 1).orderFits .lsb ∧
    (offered (reading [0b0111, 1]) 1).bitsOffered .lsb = codeBits 0b1110 4 ++ [false, false, false, false] ∧
    ¬ (offered (reading [0b0111, 1]) 1).answered := by decide +kernel

/-- The bit 1 leaves the only code, 0; one bit 1 of V-H1's table is inside its trie and the input ends there. -/
theorem witness_DecodeLeavingEveryCode :
    ((offered (reading [1, 1]) 1).readable .lsb 1 ∧
      (∀ j, j < 1 → innerNode [⟨0, 1, 0⟩] (((offered (reading [1, 1]) 1).bitsAhead .lsb).take j)) ∧
      emptyBranch [⟨0, 1, 0⟩] (((offered (reading [1, 1]) 1).bitsAhead .lsb).take 1)) ∧
    ((inside [0x80] .lsb 1).answered ∧ (inside [0x80] .lsb 1).orderFits .lsb ∧
      (inside [0x80] .lsb 1).pos ≤ ((inside [0x80] .lsb 1).input.getD []).length ∧
      ∀ j, j ≤ ((inside [0x80] .lsb 1).bitsAhead .lsb).length → innerNode tableH1 (((inside [0x80] .lsb 1).bitsAhead .lsb).take j)) := by
  unfold innerNode emptyBranch
  decide +kernel

/-- SIG with a signature of an input that goes on, with one byte, with none. -/
theorem witness_SignatureStep :
    (machine .sig (reading [0x43, 0x4B])).engineAlone ∧ (machine .sig (reading [0x43, 0x4B])).seq.phase = .sig ∧
    2 ≤ (offered (reading [0x43, 0x4B, 1]) 2).bytesOffered.length ∧ ¬ (offered (reading [0x43, 0x4B, 1]) 2).answered ∧
    (reading [0x43, 0x4B]).bytesAhead.take 2 = [0x43, 0x4B] ∧ (reading [0x43]).bytesAhead.take 2 ≠ [0x43, 0x4B] ∧
    (reading []).answered ∧ (reading []).pos ≤ ((reading []).input.getD []).length := by decide

theorem witness_HeaderStep :
    (machine .blkHdr (inside [0xE0] .lsb 3)).engineAlone ∧ (machine .blkHdr (inside [0xE0] .lsb 3)).seq.phase = .blkHdr ∧
    (offered (inside [0xE0] .lsb 3) 1).readable .lsb 3 ∧ (inside [0xE0] .lsb 2).short .lsb 3 := by decide +kernel

/-- Four bytes answered and no more, and an input of three. -/
theorem witness_StoredHeader :
    (offered (inside [1, 5, 0, 0, 0, 9] .lsb 5) 5).bytesOffered = [5, 0, 0, 0] ∧
    ((inside [1, 5, 0, 0] .lsb 5).answered ∧ (inside [1, 5, 0, 0] .lsb 5).pos ≤ ((inside [1, 5, 0, 0] .lsb 5).input.getD []).length ∧
      (inside [1, 5, 0, 0] .lsb 5).bytesAhead.length < 4) := by decide

/-- A stored copy of exactly the bytes answered, of one more than there are, and of none. -/
theorem witness_StoredCopyRuns_CopyEnds :
    (machine .storedCopy (reading [1, 2])).engineAlone ∧ (machine .storedCopy (reading [1, 2])).seq.phase = .storedCopy ∧
    (reading [1, 2]).ccount = 0 ∧ (2 : Half).toNat ≤ (offered (reading [1, 2, 3]) 2).bytesOffered.length ∧
    ((reading [1, 2]).answered ∧ (reading [1, 2]).pos ≤ ((reading [1, 2]).input.getD []).length ∧
      (reading [1, 2]).bytesAhead.length < (3 : Half).toNat) ∧
    (machine .storedCopy (reading [])).block.srem = 0 ∧
    (copying 4 1 0).engineAlone ∧ (copying 4 1 0).seq.phase = .matchCopy ∧ (copying 4 1 0).block.mrem = 0 := by decide +kernel

/-- The bytes of a dynamic header with four code-length fields: all 0, also of an input that goes on; all of length 1,
over-subscribed; cut short. -/
theorem witness_DynamicHeader :
    (offered (reading [0, 0, 0, 0, 0]) 4).readable .lsb 26 ∧
    (reading [0, 0, 0, 0]).readable .lsb 26 ∧
    kraftSum ((clFields ((reading [0, 0, 0, 0]).bitsAhead .lsb) 4).toList.map fun l => l.setWidth 4) ≤ 2 ^ 15 ∧
    (reading [0, 0x40, 0x92, 0]).readable .lsb 26 ∧
    2 ^ 15 < kraftSum ((clFields ((reading [0, 0x40, 0x92, 0]).bitsAhead .lsb) 4).toList.map fun l => l.setWidth 4) ∧
    (reading [0, 0, 0]).short .lsb 26 := by decide +kernel

theorem witness_CodeLengthLiteral : (filling 319 288 32 (Vector.replicate 320 0)).li.toNat < 320 := by decide

/-- A run that ends exactly at HLIT + HDIST = 320, a run one entry past it, CL_REP first, and extra bits cut short. -/
theorem witness_CodeLengthRuns :
    (Instr.clZ3, 3, 3) ∈ runRows ∧ (Instr.clRep, 3, 2) ∈ runRows ∧
    (filling 317 288 32 (Vector.replicate 320 0)).li.toNat + (3 + (reading [0]).field 3) = 288 + 32 ∧
    288 + 32 < (filling 318 288 32 (Vector.replicate 320 0)).li.toNat + (3 + (reading [0]).field 3) ∧
    (filling 0 288 32 (Vector.replicate 320 0)).li = 0 ∧ (offered (reading [0, 0]) 1).readable .lsb 3 ∧ (inside [0] .lsb 2).short .lsb 3 := by
  decide +kernel

/-- All entries filled: two codes of length 1 in each part; three in the distance part. -/
theorem witness_DynamicTablesStep :
    (machine .dynLens (reading [])).engineAlone ∧ (machine .dynLens (reading [])).seq.phase = .dynLens ∧
    (filling 259 257 2 (Vector.replicate 320 0)).hlit.toNat + (filling 259 257 2 (Vector.replicate 320 0)).hdist.toNat ≤
      (filling 259 257 2 (Vector.replicate 320 0)).li.toNat ∧
    kraftSum (((Vector.replicate 320 (0 : BitVec 4)).toList).take 257) ≤ 2 ^ 15 ∧
    2 ^ 15 < kraftSum ((((Vector.replicate 320 (1 : BitVec 4)).toList).drop 257).take 3) := by decide +kernel

/-- The longest extra bits readable and one bit short; a distance just inside the window and just outside it. -/
theorem witness_LengthSymbols_DistanceSymbols :
    (Instr.len284, 227, 5) ∈ lengthRows ∧ (Instr.dist29, 24577, 13) ∈ distanceRows ∧
    (inside [0xFF] .lsb 5).readable .lsb 5 ∧ (inside [0xFF] .lsb 4).short .lsb 5 ∧
    (offered (inside [0xFF, 0xFF] .lsb 5) 1).readable .lsb 5 ∧
    (inside [0xFF, 0xFF] .lsb 5).readable .lsb 13 ∧ (inside [0xFF, 0xFF] .lsb 4).short .lsb 13 ∧
    24577 + (reading [0xFF, 0xFF]).field 13 = (farBack []).window.histValid.toNat ∧
    (machine .matchDist (reading [])).window.histValid.toNat < 1 + (reading []).field 0 := by decide +kernel

/-- One read of each kind that needs one bit or byte more than the host has answered; and a decode that the answers leave inside
V-H1's trie. -/
theorem witness_UnansweredTokensWait :
    ((machine .sig (offered (reading [0x43, 0x4B]) 1)).engineAlone ∧ ¬ (offered (reading [0x43, 0x4B]) 1).answered ∧
      (offered (reading [0x43, 0x4B]) 1).bytesOffered.length < 2) ∧
    ((machine .blkHdr (offered (inside [0xE0] .lsb 2) 1)).engineAlone ∧ (offered (inside [0xE0] .lsb 2) 1).waits .lsb 3) ∧
    (¬ (offered (inside [1, 5, 0, 0, 0] .lsb 5) 4).answered ∧ (offered (inside [1, 5, 0, 0, 0] .lsb 5) 4).bytesOffered.length < 4) ∧
    ((machine .storedCopy (offered (reading [1, 2, 3]) 2)).engineAlone ∧ ¬ (offered (reading [1, 2, 3]) 2).answered ∧
      (offered (reading [1, 2, 3]) 2).bytesOffered.length < (3 : Half).toNat) ∧
    (offered (reading [0, 0, 0, 0]) 3).waits .lsb (14 + 3 * (4 + lsbValue ((((reading [0, 0, 0, 0]).bitsAhead .lsb).drop 10).take 4))) ∧
    ((offered (inside [0, 0] .lsb 2) 1).waits .lsb 3 ∧ (filling 1 288 32 (Vector.replicate 320 0)).li ≠ 0) ∧
    ((offered (inside [0xFF, 0xFF] .lsb 4) 1).waits .lsb 5 ∧ (offered (inside [0xFF, 0xFF] .lsb 4) 1).waits .lsb 13) ∧
    (¬ (offered (inside [0x80, 1] .lsb 1) 1).answered ∧ (offered (inside [0x80, 1] .lsb 1) 1).orderFits .lsb ∧
      ∀ j, j ≤ ((offered (inside [0x80, 1] .lsb 1) 1).bitsOffered .lsb).length →
        innerNode tableH1 (((offered (inside [0x80, 1] .lsb 1) 1).bitsOffered .lsb).take j)) := by
  unfold innerNode
  decide +kernel

theorem reset_window_inv : Window.reset.Inv := by
  refine ⟨rfl, by decide, rfl, rfl, ?_⟩
  intro d h1 h2
  exact absurd h2 (by simp [Window.reset]; omega)

/-- The invariant holds of a match about to be copied, so MatchCopyRuns and the steps of a running match are not empty. -/
theorem witness_MatchCopyRuns :
    (copying 3 1 3).Inv ∧ (copying 3 1 3).engineAlone ∧ (copying 3 1 3).seq.phase = .matchCopy ∧
      (copying 3 1 3).busy = true ∧ (copying 3 1 3).reader.answered := by
  have noCodes : ∀ n, tableFits n [] := fun n e he => absurd he List.not_mem_nil
  refine ⟨⟨Window.emit_inv _ reset_window_inv, by decide, by decide, ?_⟩, by decide, rfl, rfl, by decide⟩
  exact ⟨⟨⟨[], rfl, noCodes _⟩, ⟨[], rfl, noCodes _⟩⟩, ⟨by decide, by decide⟩, by decide, by decide, by decide⟩

/-- A running sequence at its start: safe, busy, alone, answered. -/
theorem witness_EngineStepMakesProgress :
    (machine .sig (reading [0x43, 0x4B])).Inv ∧ (machine .sig (reading [0x43, 0x4B])).busy = true ∧
      (machine .sig (reading [0x43, 0x4B])).engineAlone ∧ (machine .sig (reading [0x43, 0x4B])).reader.answered :=
  ⟨⟨reset_window_inv, by decide, by decide, trivial⟩, rfl, by decide, by decide⟩

theorem witness_ResetAndSoftReset :
    (withTurns (copying 3 1 3) [.reset]).port.turns = .reset :: [] ∧ (3 : Word).getLsbD 1 = true ∧
      (withTurns (copying 3 1 3) [.write 0 .word 3]).port.turns = .write 0 .word 3 :: [] := ⟨rfl, rfl, rfl⟩

/-- A hardware reset and an SRST to come while a match is copied. -/
theorem witness_ResetValues :
    (withTurns (copying 3 1 3) [.reset]).port.turns = .reset :: [] ∧
      ∃ v : Word, v.getLsbD 1 = true ∧ (withTurns (copying 3 1 3) [.write 0 .word 2]).port.turns = .write 0 .word v :: [] :=
  ⟨rfl, 2, rfl, rfl⟩

/-- A START accepted, and one ignored while a match is copied. -/
theorem witness_StartBeginsASequence :
    (1 : Word).getLsbD 1 = false ∧ (1 : Word).getLsbD 0 = true ∧
      (withTurns State.reset [.write 0 .word 1]).port.turns = .write 0 .word 1 :: [] ∧
      (withTurns State.reset [.write 0 .word 1]).busy = false ∧ (withTurns (copying 3 1 3) [.write 0 .word 1]).busy = true :=
  ⟨rfl, rfl, rfl, rfl, rfl⟩

theorem witness_RegisterWrites :
    (4 : Word).toNat % 4 = 0 ∧ (0x24 : Word).toNat % 4 = 0 ∧ (0x24 : Word) ≠ 0 ∧
      (withTurns State.reset [.write 4 .word 1]).port.turns = .write 4 .word 1 :: [] := by decide

theorem witness_RegisterReads :
    (withTurns State.reset [.read 0x20 .word]).busy = false ∧ (withTurns (copying 3 1 3) [.read 8 .word]).busy = true ∧
      (withTurns (copying 3 1 3) [.read 8 .word]).port.turns = .read 8 .word :: [] ∧ (8 : Word).toNat % 4 = 0 :=
  ⟨rfl, rfl, rfl, rfl⟩

/-- One refused move of each kind. -/
theorem witness_OnlyTheHostIsRefused :
    (∃ r, step (withTurns State.reset [.read 2 .word]) = .refused r) ∧
    (∃ r, step (withTurns State.reset [.write 0 .half 1]) = .refused r) ∧
    (∃ r, step (withTurns (copying 3 1 3) [.bind []]) = .refused r) ∧
    ∃ r, step { State.reset with port := { Port.reset with turns := [.command 0], cmd := some 0 } } = .refused r :=
  ⟨⟨_, rfl⟩, ⟨_, rfl⟩, ⟨_, rfl⟩, ⟨_, rfl⟩⟩

theorem witness_HostMoves :
    (withTurns State.reset [.answer 3]).port.turns = .answer 3 :: [] ∧
    ((withTurns State.reset [.bind [1]]).port.turns = .bind [1] :: [] ∧ (withTurns State.reset [.bind [1]]).busy = false) ∧
    ((withTurns State.reset [.command 0]).port.turns = .command 0 :: [] ∧ (withTurns State.reset [.command 0]).port.cmd = none) ∧
    (withTurns State.reset [.engine]).port.turns = .engine :: [] := by decide

/-- A machine about to decode the end-of-block symbol, code 0000000, of a fixed block. -/
def payloadAtEob : State := { machine .payload (reading [0]) with block := { Block.reset with tLl := build fixedLlLens } }

/-- StepRunsDecodedInstruction: a command, a signature, a header and a symbol that decode. -/
theorem witness_StepRunsDecodedInstruction :
    decode .readerCmd 0x3000 = .ok .align ∧
    (machine .sig (reading [0x43, 0x4B])).reader.readSignature = .ok (some 0x4B43) { reading [0x43, 0x4B] with pos := 2 } ∧
    (match (machine .blkHdr (reading [0x4B])).awake.readHeader with
      | .ok h _ => decode .blkHdr h.toNat == .ok (.btypeFixed true)
      | _ => false) = true ∧
    (match payloadAtEob.awake.decodeInto .ll with
      | .ok _ u => decode .llSymbol u.block.sym.toNat == .ok .eob
      | _ => false) = true := by decide +kernel

/-- At rest, with a command pending, with a CFG write to come, and with a START to come. -/
theorem witness_EngineRestsOutsideASequence :
    (State.reset.engineAlone ∧ State.reset.busy = false) ∧
    reaches (step { machine .done (reading [1]) with port := { Port.reset with cmd := some 0 } }) (fun t => t.seq.phase == .done) = true ∧
    reaches (step (withTurns State.reset [.write 4 .word 1])) (fun t => t.seq.phase == .idle) = true ∧
    reaches (step (withTurns State.reset [.write 0 .word 1])) (fun t => t.seq.phase == .sig) = true := by decide +kernel

/-- A step that ends waiting; and the steps that need a FetchByte first with the byte at IN_POS not answered: SIG with no INPUT, a
payload whose code has no bit in the carry, a READ_BITS of one bit, a READ_RAW_BYTE. -/
theorem witness_WaitingChangesNothing :
    reaches (step (machine .sig (offered (reading [0x43, 0x4B]) 1))) (fun t => t.port.waiting && t.reader.pos == 0) = true ∧
    (needsByte (machine .sig Reader.reset) ∧ unanswered Reader.reset) ∧
    (needsByte (withBlock (machine .payload (offered (reading [0]) 0)) { Block.reset with tLl := some tableH1 }) ∧
      unanswered (offered (reading [0]) 0)) ∧
    needsByte { machine .done (offered (reading [0]) 0) with port := { Port.reset with cmd := some 0x1001 } } ∧
    needsByte { machine .done (offered (reading [0]) 0) with port := { Port.reset with cmd := some 0x2000 } } := by
  refine ⟨by decide +kernel, ⟨trivial, Or.inl rfl⟩, ⟨⟨rfl, tableH1, rfl, ?_⟩, Or.inr le_rfl⟩, ?_, ?_⟩
  · unfold innerNode
    decide
  · exact ⟨rfl, Or.inr (Or.inr (Or.inr ⟨1, le_rfl, by decide, Or.inl rfl⟩))⟩
  · exact ⟨rfl, Or.inr (Or.inr (Or.inl rfl))⟩

theorem witness_EngineOnlyMovesForward : (copying 3 1 3).port.turns = [] ∧ reaches (step (copying 3 1 3)) (fun _ => true) = true := by
  decide +kernel

theorem witness_EveryStepKeepsTheInvariant_NoModelFault :
    (copying 3 1 3).Inv ∧ reaches (step (copying 3 1 3)) (fun _ => true) = true :=
  ⟨witness_MatchCopyRuns.1, by decide +kernel⟩

theorem witness_HistoryStaysCanonical_EqualHistoriesAreEqualLists :
    memoryWf (copying 3 1 3).window.hist = true ∧ memoryWf [(0, 1), (32767, 0)] = true ∧ memoryWf [(32768, 0)] = false := by
  decide +kernel

theorem witness_DecodeRaisesNoReaderError_TablesLiveInTheirBlock :
    readerSound (machine .storedCopy (reading [1])) ∧ (machine .storedCopy (reading [1])).engineAlone ∧
      tablesInBlock (machine .storedCopy (reading [1])) ∧
      reaches (step (machine .storedCopy (reading [1]))) (fun _ => true) = true := by
  refine ⟨⟨Or.inl rfl, fun _ => rfl, by decide, by decide, by decide⟩, by decide, ⟨rfl, rfl, rfl⟩, by decide +kernel⟩

theorem witness_OutputIsBoundedByInput : outputBounded (machine .sig (reading [0x43, 0x4B])) := by
  unfold outputBounded; decide +kernel

/-- The engine in a block header and a reader command, each at the end of its input. -/
theorem witness_ExhaustionLeavesNothingUnread :
    ((machine .blkHdr (reading [])).Inv ∧ (machine .blkHdr (reading [])).port.turns = [] ∧
      reaches (step (machine .blkHdr (reading []))) (fun t => t.seq.err == some .unexpectedEndOfInput) = true) ∧
    reaches (step { machine .done (reading []) with port := { Port.reset with cmd := some 0 } })
      (fun t => t.port.cmd == none && t.port.result == some (.error .unexpectedEndOfInput)) = true :=
  ⟨⟨⟨reset_window_inv, by decide, by decide, trivial⟩, rfl, by decide +kernel⟩, by decide +kernel⟩

end Sys2Proof.Tests
end

section
/-! PROOFS. The host's accesses to the register block (10_state R21 to R32): a write, a read with BUSY = 0, a read with
BUSY = 1; and which moves are refused (log 14). -/

namespace Sys2Proof.Machine

/-! ## One move of the schedule -/

theorem step_of_turn {s : State} {t : Turn} {rest : List Turn} (h : s.port.turns = t :: rest) :
    step s = (s.dropTurn rest).takeTurn t := by
  unfold step
  rw [h]

theorem step_of_noTurn {s : State} (h : s.port.turns = []) : step s = s.engineStep := by
  unfold step
  rw [h]

/-! ## Accesses -/

theorem wordAccess_iff {offset : Word} {width : AccessWidth} :
    wordAccess offset width = true ↔ width = .word ∧ offset.toNat % 4 = 0 := by
  simp [wordAccess]

theorem State.busWrite_word {offset : Word} (h : offset.toNat % 4 = 0) (v : Word) (s : State) :
    s.busWrite offset .word v = .next (s.writeReg offset v) := by
  simp [State.busWrite, wordAccess_iff.2 ⟨rfl, h⟩]

/-- A register with no drawn bits, and any register with BUSY = 0, reads its exact value. -/
theorem State.busRead_exact {offset : Word} {s : State} (h : offset.toNat % 4 = 0)
    (hx : s.busy = false ∨ drawnBits offset = 0) :
    s.busRead offset .word = .next { s with port := { s.port with rdata := s.readReg offset } } := by
  have hd : (s.busy && drawnBits offset != 0) = false := by rcases hx with hx | hx <;> simp [hx]
  simp only [State.busRead, wordAccess_iff.2 ⟨rfl, h⟩, hd, Bool.not_true, Bool.false_eq_true, if_false]

/-- With BUSY = 1 the drawn bits are those of the next free value, the others the register's own (R32). -/
theorem State.busRead_drawn {offset : Word} {s : State} (h : offset.toNat % 4 = 0) (hb : s.busy = true)
    (hd : drawnBits offset ≠ 0) :
    s.busRead offset .word = .next
      { s with
        port := { s.port with
          rdata := (s.readReg offset &&& ~~~drawnBits offset) ||| (Config.busyRead s.port.draws &&& drawnBits offset)
          draws := s.port.draws + 1 } } := by
  have hd : (s.busy && drawnBits offset != 0) = true := by simpa [hb] using hd
  simp only [State.busRead, wordAccess_iff.2 ⟨rfl, h⟩, hd, Bool.not_true, Bool.false_eq_true, if_false, if_true]

/-! ## The fields of the registers -/

theorem toNat_flagWord (b : Bool) : (flagWord b).toNat = b.toNat := by cases b <;> rfl

theorem State.cfgWord_eq_register (s : State) : s.cfgWord = Claims.register 0x04 s := by
  show flagWord s.seq.cfgStrict = BitVec.ofNat 32 s.seq.cfgStrict.toNat
  cases s.seq.cfgStrict <;> rfl

/-- STATUS, by the phase and the sticky flag. -/
theorem State.statusWord_eq_register (s : State) : s.statusWord = Claims.register 0x08 s := by
  simp only [State.statusWord, State.busy, Claims.register]
  cases s.seq.phase <;> cases s.seq.nlenMismatch <;> rfl

theorem State.errcodeWord_eq_register (s : State) : s.errcodeWord = Claims.register 0x0C s := by
  simp only [State.errcodeWord, Claims.register]
  rcases s.seq.err with _ | e
  · rfl
  · cases e <;> rfl

/-- A field put above the bits another one needs adds its value in that place. -/
theorem toNat_or_shiftLeft {x y : Word} {k : Nat} (hx : x.toNat < 2 ^ k) (hy : y.toNat * 2 ^ k < 2 ^ 32) :
    (x ||| y <<< k).toNat = x.toNat + 2 ^ k * y.toNat := by
  rw [BitVec.toNat_or, BitVec.toNat_shiftLeft, Nat.shiftLeft_eq, Nat.mod_eq_of_lt hy, Nat.or_comm, Nat.mul_comm,
    ← Nat.two_pow_add_eq_or_of_lt hx, Nat.add_comm]

/-- CURSOR: its three fields lie in disjoint bits. -/
theorem State.cursorWord_eq_register (s : State) : s.cursorWord = Claims.register 0x20 s := by
  have hc := s.reader.ccount.isLt
  have hb := s.reader.curByte.isLt
  have ho : (flagWord (s.reader.corder == .msb)).toNat = (decide (s.reader.corder = .msb)).toNat := toNat_flagWord _
  have ho1 := (decide (s.reader.corder = .msb)).toNat_le
  have low : (s.reader.ccount.setWidth 32 ||| flagWord (s.reader.corder == .msb) <<< 3).toNat =
      s.reader.ccount.toNat + 8 * (decide (s.reader.corder = .msb)).toNat := by
    rw [toNat_or_shiftLeft (by rw [BitVec.toNat_setWidth]; omega) (by omega), ho, BitVec.toNat_setWidth,
      Nat.mod_eq_of_lt (by omega)]
    rfl
  apply BitVec.eq_of_toNat_eq
  rw [State.cursorWord, toNat_or_shiftLeft (by omega) (by rw [BitVec.toNat_setWidth]; omega), low, BitVec.toNat_setWidth,
    Nat.mod_eq_of_lt (by omega)]
  exact (Nat.mod_eq_of_lt (by omega)).symm

/-- What a register reads is its fields as R21 and R25 to R31 lay them out. -/
theorem State.readReg_eq_register (offset : Word) (s : State) : s.readReg offset = Claims.register offset s := by
  unfold State.readReg
  split_ifs with h1 h2 h3 h4 h5 h6 h7 h8
  · rw [h1, State.cfgWord_eq_register]
  · rw [h2, State.statusWord_eq_register]
  · rw [h3, State.errcodeWord_eq_register]
  · rw [h4]; rfl
  · rw [h5]; rfl
  · rw [h6]; rfl
  · rw [h7]; rfl
  · rw [h8, State.cursorWord_eq_register]
  · unfold Claims.register
    split
    case h_9 => rfl
    all_goals bv_omega

/-! ## A read with BUSY = 1 -/

/-- BUSY = 1: BUSY set, DONE and ERR clear, the reserved bits 0 (R25, R32). -/
theorem State.statusWord_fixedBits {s : State} (h : s.busy = true) : s.statusWord &&& 0xFFFFF0F7 = 1 := by
  revert h
  simp only [State.statusWord, State.busy]
  cases s.seq.phase <;> cases s.seq.nlenMismatch <;> decide

theorem State.errcodeWord_reserved (s : State) : s.errcodeWord &&& 0xFFFFFFF0 = 0 := by
  simp only [State.errcodeWord]
  rcases s.seq.err with _ | e
  · rfl
  · cases e <;> rfl

theorem State.cursorWord_reserved (s : State) : s.cursorWord &&& 0xFFFF00F0 = 0 := by
  have hc : ∀ c : BitVec 3, c.setWidth 32 &&& 0xFFFF00F0 = 0 := by decide
  have ho : ∀ o : Bool, (flagWord o) <<< 3 &&& 0xFFFF00F0 = 0 := by decide
  have hb : ∀ b : Byte, (b.setWidth 32) <<< 8 &&& 0xFFFF00F0 = 0 := by decide
  simp only [State.cursorWord, BitVec.and_or_distrib_right, hc, ho, hb]
  rfl

/-- Free values in the bits drawn leave the others as they are. -/
theorem drawn_fixedBits (x y d : Word) : ((x &&& ~~~d) ||| (y &&& d)) &&& ~~~d = x &&& ~~~d := by
  rw [BitVec.and_or_distrib_right, BitVec.and_assoc, BitVec.and_self, BitVec.and_assoc, BitVec.and_not_self]
  simp

/-- A read with BUSY = 1 answers with some value and some count of draws, the register's own value in every bit not drawn. -/
theorem State.busRead_busy {offset : Word} {s : State} (h : offset.toNat % 4 = 0) (hb : s.busy = true) :
    ∃ (v : Word) (n : Nat), s.busRead offset .word = .next { s with port := { s.port with rdata := v, draws := n } } ∧
      v &&& ~~~drawnBits offset = s.readReg offset &&& ~~~drawnBits offset := by
  by_cases hd : drawnBits offset = 0
  · exact ⟨_, _, State.busRead_exact h (.inr hd), rfl⟩
  · exact ⟨_, _, State.busRead_drawn h hb hd, drawn_fixedBits _ _ _⟩

theorem drawnBits_of_exact {offset : Word} (h : offset.toNat ∉ [0x08, 0x0C, 0x10, 0x14, 0x18, 0x1C, 0x20]) :
    drawnBits offset = 0 := by
  simp only [List.mem_cons, List.not_mem_nil, not_or] at h
  unfold drawnBits
  split_ifs
  case neg => rfl
  all_goals bv_omega

/-! ## Writes and reads by the host -/

/-- Settles O41: of the nonzero offsets `State.writeReg` knows CFG alone. -/
theorem registerWrites : Obligations.RegisterWrites := by
  intro s offset v rest ha h0 ht
  have hw : step s = .next ((s.dropTurn rest).writeReg offset v) := by
    rw [step_of_turn ht]
    exact State.busWrite_word ha v _
  rw [hw, State.writeReg, if_neg h0]
  by_cases h4 : offset = 4
  · rw [if_pos h4, if_pos h4]; rfl
  · rw [if_neg h4, if_neg h4]; rfl

/-- Settles O42: the read is exact, and `State.readReg` is the fields of the register. -/
theorem registerReadsWhenIdle : Obligations.RegisterReadsWhenIdle := by
  intro s offset rest hb ha ht
  rw [step_of_turn ht, ← State.readReg_eq_register]
  exact State.busRead_exact (s := s.dropTurn rest) ha (.inl hb)

/-- Settles O43: each clause is a mask of bits that `drawnBits` does not draw. -/
theorem registerReadsWhenBusy : Obligations.RegisterReadsWhenBusy := by
  intro s offset rest hb ha ht
  obtain ⟨v, n, hs, hv⟩ := State.busRead_busy (s := s.dropTurn rest) ha hb
  refine ⟨v, n, (step_of_turn ht).trans hs, ?_, ?_, ?_, ?_⟩
  · intro h
    obtain rfl : offset = 0x08 := BitVec.eq_of_toNat_eq h
    exact hv.trans (State.statusWord_fixedBits hb)
  · intro h
    obtain rfl : offset = 0x0C := BitVec.eq_of_toNat_eq h
    exact hv.trans (State.errcodeWord_reserved s)
  · intro h
    obtain rfl : offset = 0x20 := BitVec.eq_of_toNat_eq h
    exact hv.trans (State.cursorWord_reserved s)
  · intro h
    have hx : v = (s.dropTurn rest).readReg offset := by
      rw [drawnBits_of_exact h] at hv
      exact (BitVec.and_allOnes.symm.trans hv).trans BitVec.and_allOnes
    exact hx.trans (State.readReg_eq_register offset s)

/-! ## Instructions -/

theorem Res.settle_ne_refused (x : Res State Unit) (s0 : State) (r : Refusal) : x.settle s0 ≠ .refused r := by
  cases x <;> nofun

theorem Res.settleCommand_ne_refused (x : Res State Half) (s0 : State) (r : Refusal) :
    x.settleCommand s0 ≠ .refused r := by
  cases x <;> nofun

/-- Row by row, by `rfl`: a length token is the length half of a match with its row's base and extra bits
(44_match_code_tables, section 1). -/
theorem exec_lengthRows {row : Instr × Nat × Nat} (h : row ∈ Claims.lengthRows) (s : State) :
    exec row.1 s = (s.matchLength row.2.1 row.2.2).settle s := by
  revert row
  simp only [Claims.lengthRows, List.forall_mem_cons]
  repeat' constructor
  nofun

/-- Row by row, by `rfl`: a distance token is the distance half of a match with its row's base and extra bits
(44_match_code_tables, section 1). -/
theorem exec_distanceRows {row : Instr × Nat × Nat} (h : row ∈ Claims.distanceRows) (s : State) :
    exec row.1 s = (s.matchDistance row.2.1 row.2.2).settle s := by
  revert row
  simp only [Claims.distanceRows, List.forall_mem_cons]
  repeat' constructor
  nofun

/-- Every meaning is a next state, a settled operation of the engine or a settled reader command. -/
theorem exec_forms (i : Instr) (s : State) :
    (∃ t, exec i s = .next t) ∨ (∃ x : Res State Unit, exec i s = x.settle s) ∨
      ∃ x : Res State Half, exec i s = x.settleCommand s := by
  by_cases hl : i ∈ Claims.lengthRows.map Prod.fst
  · obtain ⟨row, hr, rfl⟩ := List.mem_map.1 hl
    exact .inr (.inl ⟨_, exec_lengthRows hr s⟩)
  by_cases hd : i ∈ Claims.distanceRows.map Prod.fst
  · obtain ⟨row, hr, rfl⟩ := List.mem_map.1 hd
    exact .inr (.inl ⟨_, exec_distanceRows hr s⟩)
  cases i with
  | sig | btypeStored | btypeDynamic | btypeReserved | lit | eob | llReserved | dReserved => exact .inl ⟨_, rfl⟩
  | align => exact .inr (.inr ⟨s.withReader (.ok 0 s.reader.alignToByte), rfl⟩)
  | readBitLsb | readBitMsb | readBitsLsb | readBitsMsb | readRawByte => exact .inr (.inr ⟨_, rfl⟩)
  | btypeFixed f => exact .inr (.inl ⟨(s.latchHeader f 1).buildPayloadTables fixedLlLens fixedDLens, rfl⟩)
  | storedHdr | dynHdr | clLit | clRep | clZ3 | clZ11 | buildTable | decodeSymbol =>
    exact .inr (.inl ⟨_, rfl⟩)
  | _ => simp [Claims.lengthRows, Claims.distanceRows] at hl hd

theorem exec_ne_refused (i : Instr) (s : State) (r : Refusal) : exec i s ≠ .refused r := by
  rcases exec_forms i s with ⟨t, h⟩ | ⟨x, h⟩ | ⟨x, h⟩ <;> rw [h]
  · nofun
  · exact x.settle_ne_refused s r
  · exact x.settleCommand_ne_refused s r

/-! ## The engine's step -/

/-- A fetch does not end in a refusal. -/
def Fetched.NotRefused : Fetched → Prop
  | .run _ _ => True
  | .move o => ∀ r, o ≠ .refused r

theorem Fetched.notRefused_run (i : Instr) (s : State) : (Fetched.run i s).NotRefused := trivial

theorem Fetched.notRefused_next (s : State) : (Fetched.move (.next s)).NotRefused := nofun

theorem Fetched.notRefused_fault (f : Fault) : (Fetched.move (.fault f)).NotRefused := nofun

theorem Fetched.notRefused_settle (x : Res State Unit) (s : State) : (Fetched.move (x.settle s)).NotRefused :=
  x.settle_ne_refused s

theorem State.strangeSymbol_ne_refused (t : TableSel) (s : State) (r : Refusal) : s.strangeSymbol t ≠ .refused r := by
  cases t <;> nofun

theorem State.fetchSignature_notRefused (s : State) : s.fetchSignature.NotRefused := by
  unfold State.fetchSignature
  split
  · exact Fetched.notRefused_next _
  · split
    · exact Fetched.notRefused_run _ _
    · exact Fetched.notRefused_next _
  · exact Fetched.notRefused_next _
  · exact Fetched.notRefused_next _
  · exact Fetched.notRefused_fault _

theorem State.fetchHeader_notRefused (s : State) : s.fetchHeader.NotRefused := by
  unfold State.fetchHeader
  split
  · split
    · exact Fetched.notRefused_run _ _
    · exact Fetched.notRefused_next _
  · exact Fetched.notRefused_next _
  · exact Fetched.notRefused_next _
  · exact Fetched.notRefused_fault _

theorem State.fetchSymbol_notRefused (t : TableSel) (s : State) : (s.fetchSymbol t).NotRefused := by
  unfold State.fetchSymbol
  split
  · split
    · exact Fetched.notRefused_run _ _
    · exact State.strangeSymbol_ne_refused t _
  · exact Fetched.notRefused_next _
  · exact Fetched.notRefused_next _
  · exact Fetched.notRefused_fault _

theorem State.fetchCommand_notRefused (w : Half) (s : State) : (s.fetchCommand w).NotRefused := by
  unfold State.fetchCommand
  split
  · exact Fetched.notRefused_run _ _
  · exact Fetched.notRefused_next _

theorem State.fetchPhase_notRefused (s : State) : s.fetchPhase.NotRefused := by
  unfold State.fetchPhase
  cases s.seq.phase with
  | idle | done | error => exact Fetched.notRefused_next _
  | storedHdr | dynHdr => exact Fetched.notRefused_run _ _
  | storedCopy | matchCopy => exact Fetched.notRefused_settle _ _
  | sig => exact s.fetchSignature_notRefused
  | blkHdr => exact s.fetchHeader_notRefused
  | payload => exact s.fetchSymbol_notRefused .ll
  | matchDist => exact s.fetchSymbol_notRefused .d
  | dynLens =>
    dsimp only
    split
    · exact s.fetchSymbol_notRefused .cl
    · exact Fetched.notRefused_settle _ _

theorem State.fetch_notRefused (s : State) : s.fetch.NotRefused := by
  unfold State.fetch
  split
  · exact s.fetchCommand_notRefused _
  · exact s.fetchPhase_notRefused

theorem resume_ne_refused {o : Host.Outcome State Fault Refusal} {r : Refusal} (h : o ≠ .refused r) (s0 : State) :
    resume s0 o ≠ .refused r := by
  cases o with
  | next s => simp only [resume]; split <;> nofun
  | fault f => nofun
  | refused q => exact h

theorem State.engineStep_ne_refused (s : State) (r : Refusal) : s.engineStep ≠ .refused r := by
  have hf := s.awake.fetch_notRefused
  unfold State.engineStep
  cases h : s.awake.fetch with
  | run i s1 => exact resume_ne_refused (exec_ne_refused i s1 r) _
  | move o => rw [h] at hf; exact hf r

/-! ## The host's moves -/

theorem State.busRead_refused_iff {offset : Word} {width : AccessWidth} {s : State} :
    (∃ r, s.busRead offset width = .refused r) ↔ ¬ (width = .word ∧ offset.toNat % 4 = 0) := by
  rw [← wordAccess_iff, State.busRead]
  cases wordAccess offset width
  · simp
  · simp only [Bool.not_true, Bool.false_eq_true, if_false]
    split <;> simp

theorem State.busWrite_refused_iff {offset v : Word} {width : AccessWidth} {s : State} :
    (∃ r, s.busWrite offset width v = .refused r) ↔ ¬ (width = .word ∧ offset.toNat % 4 = 0) := by
  rw [← wordAccess_iff, State.busWrite]
  cases wordAccess offset width <;> simp

theorem State.bindInput_refused_iff {bytes : List Byte} {s : State} :
    (∃ r, s.bindInput bytes = .refused r) ↔ s.busy = true ∧ s.reader.input.isSome = true := by
  rw [State.bindInput, ← Bool.and_eq_true]
  split <;> simp_all

theorem State.issueCommand_refused_iff {w : Half} {s : State} :
    (∃ r, s.issueCommand w = .refused r) ↔ s.port.cmd.isSome = true := by
  rw [State.issueCommand]
  split <;> simp_all

/-- Settles O44: the engine and the instructions refuse nothing, so the first move of the schedule decides. -/
theorem onlyTheHostIsRefused : Obligations.OnlyTheHostIsRefused := by
  refine ⟨exec_ne_refused, fun s => ?_⟩
  cases h : s.port.turns with
  | nil => simp [step_of_noTurn h, State.engineStep_ne_refused]
  | cons t rest =>
    rw [step_of_turn h]
    cases t with
    | engine => simp [State.takeTurn, State.engineStep_ne_refused]
    | bind bytes => simp [State.takeTurn, State.bindInput_refused_iff, State.busy]
    | answer n => simp [State.takeTurn]
    | command w => simp [State.takeTurn, State.issueCommand_refused_iff]
    | write offset width v => simp [State.takeTurn, State.busWrite_refused_iff]
    | read offset width => simp [State.takeTurn, State.busRead_refused_iff]
    | reset => simp [State.takeTurn]

end Sys2Proof.Machine
end

section
/-! PROOFS. The history as a list of cells (10_state R36, 20_memory R66): its canonical form is determined by what it reads
(log 12). -/

namespace Sys2Proof.Machine

/-- A list of cells above a bound has none below it. -/
theorem memoryRead_below {m : List Host.Cell} {low k : Nat} (hm : risingAbove low m = true) (hk : k < low) :
    memoryRead m k = none := by
  cases m with
  | nil => rfl
  | cons c rest =>
    obtain ⟨a, b⟩ := c
    simp only [risingAbove, Bool.and_eq_true, decide_eq_true_eq] at hm
    simp [memoryRead, show k ≠ a by omega, show k < a by omega]

/-- Two rising lists that read alike are equal: the first cell is the least address that reads a byte. -/
theorem risingAbove_ext {m n : List Host.Cell} {low : Nat} (hm : risingAbove low m = true) (hn : risingAbove low n = true)
    (h : ∀ a, memoryRead m a = memoryRead n a) : m = n := by
  induction m generalizing low n with
  | nil =>
    cases n with
    | nil => rfl
    | cons d rest => exact absurd (h d.1) (by simp [memoryRead])
  | cons c m ih =>
    obtain ⟨a, b⟩ := c
    cases n with
    | nil => exact absurd (h a) (by simp [memoryRead])
    | cons d n =>
      obtain ⟨a', b'⟩ := d
      simp only [risingAbove, Bool.and_eq_true, decide_eq_true_eq] at hm hn
      obtain ⟨-, hm⟩ := hm
      obtain ⟨-, hn⟩ := hn
      have haa : a = a' := by
        rcases Nat.lt_trichotomy a a' with hlt | heq | hlt
        · have := h a
          simp [memoryRead, show a ≠ a' by omega, hlt] at this
        · exact heq
        · have := h a'
          simp [memoryRead, show a' ≠ a by omega, hlt] at this
      subst haa
      have hbb : b = b' := by simpa [memoryRead] using h a
      subst hbb
      congr 1
      refine ih hm hn fun k => ?_
      by_cases hk : k < a + 1
      · rw [memoryRead_below hm hk, memoryRead_below hn hk]
      · simpa [memoryRead, show k ≠ a by omega, show ¬ k < a by omega] using h k

/-- Settles O55, by induction on the two rising lists. -/
theorem equalHistoriesAreEqualLists : Obligations.EqualHistoriesAreEqualLists :=
  fun _ _ hm hn h => risingAbove_ext hm hn h

end Sys2Proof.Machine
end

section
/-! PROOFS. What every operation of the reader does to the stream position, with no premise (20_memory R61), and where it waits
on a FetchByte the host has not answered (20_memory R62). -/

namespace Sys2Proof.Machine

/-! ## The stream position -/

/-- An operation of the reader leaves a later reader on the same input, waits only where a FetchByte is not answered, and never
faults. -/
def Reader.Reads {α : Type} (r : Reader) (x : Res Reader α) : Prop :=
  x.Meets (fun _ r' => r.Later r') (fun _ r' => r.Later r') (¬ r.Ready) (fun _ => False)

/-- The rule of sequence for reader operations. -/
theorem Reader.Reads.bind {α β : Type} {r : Reader} {x : Res Reader α} {k : α → Reader → Res Reader β} (h : r.Reads x)
    (hk : ∀ (a : α) (r' : Reader), r'.Reads (k a r')) : r.Reads (x.bind k) :=
  Res.Meets.bind h fun a r' hl =>
    (hk a r').mono (fun _ _ h => hl.trans h) (fun _ _ h => hl.trans h) (fun h hr => h (hr.later hl)) (fun _ h => h)

theorem Reader.reads_ok {α : Type} (a : α) (r : Reader) : r.Reads (.ok a r) := Reader.Later.refl r

theorem Reader.reads_raise {α : Type} (e : ErrKind) (r : Reader) : r.Reads (α := α) (.raise e r) := Reader.Later.refl r

theorem Reader.alignToByte_reads {α : Type} (a : α) (r : Reader) : r.Reads (.ok a r.alignToByte) := r.alignToByte_later

theorem Reader.fetchByte_reads (r : Reader) : r.Reads r.fetchByte :=
  r.fetchByte_meets.mono (fun _ _ h => h.1) (fun _ _ h => h.elim) id (fun _ h => h)

theorem Reader.takeBit_reads (o : BitOrder) (r : Reader) : r.Reads (r.takeBit o) :=
  (r.takeBit_meets o).mono (fun _ _ h => h.1.1) (fun _ r' h => h.1 ▸ Reader.Later.refl r') id (fun _ h => h)

theorem Reader.readBit_reads (o : BitOrder) (r : Reader) : r.Reads (r.readBit o) :=
  (r.takeBit_reads o).bind fun _ r' => r'.reads_ok _

theorem Reader.takeBitsLsb_reads (k i : Nat) (v : Half) (r : Reader) : r.Reads (Reader.takeBitsLsb k i v r) :=
  (Reader.takeBitsLsb_meets k i v r).mono (fun _ _ h => h.1.1) (fun _ _ h => h.1) id (fun _ h => h)

theorem Reader.takeBitsMsb_reads (k : Nat) (v : Half) (r : Reader) : r.Reads (Reader.takeBitsMsb k v r) := by
  induction k generalizing v r with
  | zero => exact r.reads_ok v
  | succ k ih => exact (r.takeBit_reads .msb).bind fun _ r' => ih _ r'

theorem Reader.readBitsLsb_reads (n : Nat) (r : Reader) : r.Reads (r.readBitsLsb n) := by
  unfold Reader.readBitsLsb
  split
  · exact r.reads_raise _
  · exact Reader.takeBitsLsb_reads n 0 0 r

theorem Reader.readBitsMsb_reads (n : Nat) (r : Reader) : r.Reads (r.readBitsMsb n) := by
  unfold Reader.readBitsMsb
  split
  · exact r.reads_raise _
  · exact Reader.takeBitsMsb_reads n 0 r

theorem Reader.readRawByte_reads (r : Reader) : r.Reads r.readRawByte :=
  r.readRawByte_meets.mono (fun _ _ h => h.1.1) (fun _ r' h => h.1 ▸ Reader.Later.refl r') id (fun _ h => h)

theorem Reader.readRawHalf_reads (r : Reader) : r.Reads r.readRawHalf :=
  r.readRawHalf_meets.mono (fun _ _ h => h.1.1) (fun _ _ h => h.1) id (fun _ h => h)

theorem Reader.readSignature_reads (r : Reader) : r.Reads r.readSignature :=
  r.readSignature_meets.mono (fun _ _ h => h.1) (fun _ _ h => h.elim) id (fun _ h => h)

theorem Reader.decodeLoop_reads (t : Table) (fuel c k : Nat) (r : Reader) : r.Reads (r.decodeLoop t fuel c k) := by
  induction fuel generalizing c k r with
  | zero => exact r.reads_raise _
  | succ fuel ih =>
    unfold Reader.decodeLoop
    split
    · exact r.reads_ok _
    · split
      · exact (r.takeBit_reads .lsb).bind fun _ r' => ih _ _ r'
      · exact r.reads_raise _

/-! ## The reader commands -/

/-- A reader command's token is a settled operation of the reader (30_encoding R95). -/
theorem exec_readerCmd {w : Nat} {i : Instr} (h : decode .readerCmd w = .ok i) (s : State) :
    ∃ x : Res Reader Half, s.reader.Reads x ∧ exec i s = (s.withReader x).settleCommand s := by
  simp only [decode, decodeReaderCmd] at h
  split_ifs at h <;> cases h
  · exact ⟨_, s.reader.readBit_reads .lsb, rfl⟩
  · exact ⟨_, s.reader.readBit_reads .msb, rfl⟩
  · exact ⟨_, s.reader.readBitsLsb_reads _, rfl⟩
  · exact ⟨_, s.reader.readBitsMsb_reads _, rfl⟩
  · exact ⟨_, s.reader.readRawByte_reads.bind fun _ r' => r'.reads_ok _, rfl⟩
  · exact ⟨_, s.reader.alignToByte_reads 0, rfl⟩

/-! ## A FetchByte not answered, first -/

theorem Reader.takeBit_unanswered {r : Reader} (o : BitOrder) (hc : r.ccount = 0) (h : Claims.unanswered r) :
    r.takeBit o = .wait := by
  rw [Reader.takeBit, if_pos hc, Reader.fetchByte_wait h, Res.bind_wait]

theorem Reader.readBitsLsb_unanswered {n : Nat} {r : Reader} (hn : 1 ≤ n) (hn' : n ≤ 16) (hc : r.ccount = 0)
    (h : Claims.unanswered r) : r.readBitsLsb n = .wait := by
  obtain ⟨k, rfl⟩ := Nat.exists_eq_add_of_le' hn
  rw [Reader.readBitsLsb, if_neg (by omega), Reader.takeBitsLsb, Reader.takeBit_unanswered .lsb hc h, Res.bind_wait]

theorem Reader.readBitsMsb_unanswered {n : Nat} {r : Reader} (hn : 1 ≤ n) (hn' : n ≤ 16) (hc : r.ccount = 0)
    (h : Claims.unanswered r) : r.readBitsMsb n = .wait := by
  obtain ⟨k, rfl⟩ := Nat.exists_eq_add_of_le' hn
  rw [Reader.readBitsMsb, if_neg (by omega), Reader.takeBitsMsb, Reader.takeBit_unanswered .msb hc h, Res.bind_wait]

/-- A command whose reader operation waits leaves the state as it was. -/
theorem settleCommand_parked {x : Res Reader Half} (h : x = .wait) (s : State) :
    (s.withReader x).settleCommand s = .next (Claims.parked s) := by
  rw [h]; rfl

theorem Reader.readBit_unanswered {r : Reader} (o : BitOrder) (hc : r.ccount = 0) (h : Claims.unanswered r) :
    r.readBit o = .wait := by
  rw [Reader.readBit, Reader.takeBit_unanswered o hc h, Res.bind_wait]

theorem exec_readRawByte_unanswered {s : State} (hc : s.reader.ccount = 0) (h : Claims.unanswered s.reader) :
    exec .readRawByte s = .next (Claims.parked s) :=
  settleCommand_parked (by rw [Reader.readRawByte_wait hc h, Res.bind_wait]) s

/-- Settles O10: each command is one read of the reader, and that read waits. -/
theorem unansweredCommandsWait : Obligations.UnansweredCommandsWait := by
  intro s
  refine ⟨fun hc h => ⟨?_, ?_, exec_readRawByte_unanswered hc h⟩, fun n hn => ⟨fun h => ?_, fun h => ?_⟩⟩
  · exact settleCommand_parked (Reader.readBit_unanswered .lsb hc h) s
  · exact settleCommand_parked (Reader.readBit_unanswered .msb hc h) s
  · exact settleCommand_parked (Reader.readBitsLsb_waits hn h) s
  · exact settleCommand_parked (Reader.readBitsMsb_waits hn h) s

end Sys2Proof.Machine
end

section
/-! PROOFS. Which tokens a format has (30_encoding R81 to R89), and the invariant of the machine (`State.Inv`) kept by every step
of the engine, with no model fault, and by every move of the host. -/

namespace Sys2Proof.Machine

/-! ## The tokens of a format -/

theorem decode_sig {v : Nat} {i : Instr} (h : decode .sig v = .ok i) : i = .sig := by
  simp only [decode] at h
  split_ifs at h
  cases h
  rfl

theorem decode_blkHdr {v : Nat} {i : Instr} (h : decode .blkHdr v = .ok i) :
    ∃ f, i = .btypeStored f ∨ i = .btypeFixed f ∨ i = .btypeDynamic f ∨ i = .btypeReserved f := by
  simp only [decode, decodeBlkHdr] at h
  split_ifs at h
  refine ⟨v % 2 == 1, ?_⟩
  split at h <;> cases h <;> simp

theorem decode_clSymbol {v : Nat} {i : Instr} (h : decode .clSymbol v = .ok i) :
    (∃ l, i = .clLit l) ∨ i = .clRep ∨ i = .clZ3 ∨ i = .clZ11 := by
  simp only [decode, decodeClSymbol] at h
  split_ifs at h <;> cases h <;> simp

/-- Every symbol of the code-length alphabet has a token (30_encoding R87). -/
theorem decode_clSymbol_ok {v : Nat} (h : v < 19) : ∃ i, decode .clSymbol v = .ok i := by
  simp only [decode, decodeClSymbol]
  split_ifs
  · exact ⟨_, rfl⟩
  · exact ⟨_, rfl⟩
  · exact ⟨_, rfl⟩
  · exact ⟨_, rfl⟩
  · omega

theorem lengthTokens_eq : lengthTokens = Claims.lengthRows.map Prod.fst := rfl

theorem distanceTokens_eq : distanceTokens = Claims.distanceRows.map Prod.fst := rfl

theorem decode_llSymbol {v : Nat} {i : Instr} (h : decode .llSymbol v = .ok i) :
    (∃ b, i = .lit b) ∨ i = .eob ∨ (∃ row ∈ Claims.lengthRows, i = row.1) ∨ ∃ odd, i = .llReserved odd := by
  simp only [decode, decodeLlSymbol] at h
  by_cases h256 : v < 256
  · rw [if_pos h256] at h
    cases h
    exact .inl ⟨_, rfl⟩
  rw [if_neg h256] at h
  by_cases heq : v = 256
  · rw [if_pos heq] at h
    cases h
    exact .inr (.inl rfl)
  rw [if_neg heq] at h
  split at h
  · rename_i j hj
    cases h
    obtain ⟨row, hr, rfl⟩ := List.mem_map.1 (lengthTokens_eq ▸ List.mem_of_getElem? hj)
    exact .inr (.inr (.inl ⟨row, hr, rfl⟩))
  · split_ifs at h
    cases h
    exact .inr (.inr (.inr ⟨_, rfl⟩))

theorem decode_dSymbol {v : Nat} {i : Instr} (h : decode .dSymbol v = .ok i) :
    (∃ row ∈ Claims.distanceRows, i = row.1) ∨ ∃ odd, i = .dReserved odd := by
  simp only [decode, decodeDSymbol] at h
  split at h
  · rename_i j hj
    cases h
    obtain ⟨row, hr, rfl⟩ := List.mem_map.1 (distanceTokens_eq ▸ List.mem_of_getElem? hj)
    exact .inl ⟨row, hr, rfl⟩
  · split_ifs at h; cases h
    exact .inr ⟨_, rfl⟩

/-- The bases and extra bits of the lengths: 3 to 258 (44_match_code_tables, section 1). -/
theorem lengthRows_range {row : Instr × Nat × Nat} (h : row ∈ Claims.lengthRows) :
    row.2.2 ≤ 16 ∧ 3 ≤ row.2.1 ∧ row.2.1 + 2 ^ row.2.2 ≤ 259 := by
  revert row; decide

/-- The bases and extra bits of the distances: 1 to 32768 (44_match_code_tables, section 1). -/
theorem distanceRows_range {row : Instr × Nat × Nat} (h : row ∈ Claims.distanceRows) :
    row.2.2 ≤ 16 ∧ 1 ≤ row.2.1 ∧ row.2.1 + 2 ^ row.2.2 ≤ 32769 := by
  revert row; decide

/-! ## Outcomes that lead to a property -/

/-- The outcome is a next state with the property, or a refusal; no fault. -/
structure Leads (P : State → Prop) (o : Host.Outcome State Fault Refusal) : Prop where
  next : ∀ t, o = .next t → P t
  noFault : ∀ f, o ≠ .fault f

theorem Leads.of_next {P : State → Prop} {t : State} (h : P t) : Leads P (.next t) :=
  ⟨fun _ ht => by cases ht; exact h, fun _ hf => nomatch hf⟩

theorem Leads.of_refused (P : State → Prop) (r : Refusal) : Leads P (.refused r) :=
  ⟨fun _ ht => (nomatch ht), fun _ hf => (nomatch hf)⟩

/-- What the engine does with what it fetched: run the instruction, or make the move. -/
def Fetched.outcome : Fetched → Host.Outcome State Fault Refusal
  | .run i s => exec i s
  | .move o => o

theorem resume_leads {P : State → Prop} {s0 : State} {o : Host.Outcome State Fault Refusal} (h : Leads P o)
    (hw : P s0.wait) : Leads P (resume s0 o) := by
  cases o with
  | next t =>
    simp only [resume]
    split
    · exact .of_next hw
    · exact h
  | fault f => exact h
  | refused r => exact h

/-- The engine's step ends as what it fetched does, or waits (log 4). -/
theorem State.engineStep_leads {P : State → Prop} {s : State} (h : Leads P s.awake.fetch.outcome) (hw : P s.awake.wait) :
    Leads P s.engineStep := by
  unfold State.engineStep
  cases hf : s.awake.fetch with
  | run i u => rw [hf] at h; exact resume_leads h hw
  | move o => rw [hf] at h; exact h

/-! ## The invariant -/

/-- The part of the invariant that no phase changes. -/
structure State.Grounded (s : State) : Prop where
  window : s.window.Inv
  inside : s.reader.pos ≤ (s.reader.input.getD []).length

theorem Reader.Later.inside {r r' : Reader} (h : r.Later r') (hp : r.pos ≤ (r.input.getD []).length) :
    r'.pos ≤ (r'.input.getD []).length := by
  obtain ⟨-, -, -, -, hi⟩ := h
  exact hi hp

theorem State.Inv.window {s : State} (h : s.Inv) : s.window.Inv := h.1

theorem State.Inv.inside {s : State} (h : s.Inv) : s.reader.pos ≤ (s.reader.input.getD []).length := h.2.2.1

theorem State.Inv.grounded {s : State} (h : s.Inv) : s.Grounded := ⟨h.window, h.inside⟩

theorem State.Inv.err_iff {s : State} (h : s.Inv) : s.seq.err.isSome = true ↔ s.seq.phase = .error := h.2.1

/-- No ERRCODE outside ERROR. -/
theorem State.Inv.noError {s : State} (h : s.Inv) (hp : s.seq.phase ≠ .error) : s.seq.err = none := by
  cases he : s.seq.err with
  | none => rfl
  | some e => exact absurd (h.err_iff.1 (by rw [he]; rfl)) hp

theorem State.Inv.noError_after {s t : State} (h : s.Inv) (hp : s.seq.phase ≠ .error) (ha : s.After t) : t.seq.err = none :=
  ha.seq ▸ h.noError hp

theorem State.Inv.phase {s : State} (h : s.Inv) : s.block.phaseInv s.window.histValid.toNat s.seq.phase := h.2.2.2

theorem State.Grounded.after {s t : State} (h : s.Grounded) (ha : s.After t) : t.Grounded :=
  ⟨ha.window ▸ h.window, ha.later.inside h.inside⟩

/-- Error entry gives the invariant wherever the window and the position are right (60_exceptions R222). -/
theorem State.Grounded.raise {s : State} (h : s.Grounded) (e : ErrKind) : (s.raise e).Inv :=
  ⟨h.window, by simp, h.inside, trivial⟩

/-- The invariant on entering a phase that is not ERROR. -/
theorem State.Grounded.enter {s : State} {p : Phase} (h : s.Grounded) (hp : s.seq.phase = p) (he : s.seq.err = none)
    (hne : p ≠ .error) (hb : s.block.phaseInv s.window.histValid.toNat p) : s.Inv :=
  ⟨h.window, by simp [he, hp, hne], h.inside, by rw [hp]; exact hb⟩

theorem State.Grounded.goto {s : State} {p : Phase} (h : s.Grounded) (he : s.seq.err = none) (hne : p ≠ .error)
    (hb : s.block.phaseInv s.window.histValid.toNat p) : (s.goto p).Inv :=
  State.Grounded.enter ⟨h.window, h.inside⟩ rfl he hne hb

/-- A step that keeps the sequencer keeps the invariant if the registers its phase reads are still right. -/
theorem State.Inv.keep {s t : State} (h : s.Inv) (ht : t.Grounded) (hs : t.seq = s.seq)
    (hb : t.block.phaseInv t.window.histValid.toNat s.seq.phase) : t.Inv :=
  ⟨ht.window, by rw [hs]; exact h.err_iff, ht.inside, by rw [hs]; exact hb⟩

/-- A reader moved on keeps the invariant. -/
theorem State.Inv.moved {s : State} {r : Reader} (h : s.Inv) (hr : s.reader.Later r) : ({ s with reader := r } : State).Inv :=
  h.keep ⟨h.window, hr.inside h.inside⟩ rfl h.phase

/-- A settled operation keeps the invariant if it answers with it and raises with the window and the position right. -/
theorem Res.Meets.leadsInv {okP : Unit → State → Prop} {raiseP : ErrKind → State → Prop} {waitP : Prop} {s : State}
    {x : Res State Unit} (hx : x.Meets okP raiseP waitP (fun _ => False)) (h : s.Inv) (hok : ∀ a t, okP a t → t.Inv)
    (hraise : ∀ e t, raiseP e t → t.Grounded) : Leads State.Inv (x.settle s) := by
  cases x with
  | ok a t => exact .of_next (hok a t hx)
  | raise e t => exact .of_next ((hraise e t hx).raise e)
  | wait => exact .of_next h
  | fault f => exact hx.elim

/-- A token that waits or raises keeps the invariant. -/
theorem State.MeetsToken.leadsInv {okP : State → Prop} {s : State} {x : Res State Unit} (hx : s.MeetsToken x okP) (h : s.Inv)
    (hok : ∀ t, okP t → t.Inv) : Leads State.Inv (x.settle s) :=
  Res.Meets.leadsInv hx h (fun _ => hok) fun _ _ hr => h.grounded.after hr.1

/-! ## Reader commands -/

/-- A settled reader command keeps the invariant: it only moves the reader on. -/
theorem State.settleCommand_leadsInv {s : State} {x : Res Reader Half} (h : s.Inv) (hx : s.reader.Reads x) :
    Leads State.Inv ((s.withReader x).settleCommand s) := by
  cases x with
  | ok v r => exact .of_next (h.moved hx)
  | raise e r => exact .of_next (h.moved hx)
  | wait => exact .of_next h
  | fault f => exact hx.elim

theorem State.fetchCommand_leadsInv {s : State} (h : s.Inv) (w : Half) : Leads State.Inv (s.fetchCommand w).outcome := by
  unfold State.fetchCommand
  split
  · rename_i i hi
    obtain ⟨x, hx, he⟩ := exec_readerCmd hi s
    rw [Fetched.outcome, he]
    exact State.settleCommand_leadsInv h hx
  · exact .of_next h

/-! ## Frames and blocks -/

/-- END_OF_BLOCK (42_deflate_block R153) keeps the invariant. -/
theorem State.Inv.endOfBlock {s : State} (h : s.Inv) (hp : s.seq.phase ≠ .error) : s.endOfBlock.Inv := by
  unfold State.endOfBlock
  split
  · exact State.Grounded.enter (p := .sig) ⟨h.window, h.inside⟩ rfl (h.noError hp) (by simp) trivial
  · exact State.Grounded.enter (p := .blkHdr) ⟨h.window, h.inside⟩ rfl (h.noError hp) (by simp) trivial

theorem State.Inv.sigMismatch {s : State} (h : s.Inv) (hp : s.seq.phase ≠ .error) : s.sigMismatch.Inv := by
  unfold State.sigMismatch
  split
  · exact State.Grounded.enter (p := .done) ⟨h.window, h.inside⟩ rfl (h.noError hp) (by simp) trivial
  · exact h.grounded.raise _

theorem fixedLlLens_length : fixedLlLens.length = 288 := by
  simp only [fixedLlLens, List.length_append, List.length_replicate]

theorem fixedDLens_length : fixedDLens.length = 32 := by
  simp only [fixedDLens, List.length_replicate]

/-- Both payload tables built from arrays of their alphabets (42_deflate_block R169, R170). -/
theorem State.buildPayloadTables_leadsInv {s u : State} {ll d : List (BitVec 4)} (h : s.Inv) (ha : s.After u)
    (hp : s.seq.phase ≠ .error) (hll : ll.length ≤ 288) (hd : d.length ≤ 32) :
    Leads State.Inv ((u.buildPayloadTables ll d).settle s) := by
  have hu := h.grounded.after ha
  have he := h.noError_after hp ha
  refine (u.buildPayloadTables_meets ll d).leadsInv h ?_ ?_
  · rintro _ t ⟨x, y, hx, hy, rfl⟩
    exact State.Grounded.enter (p := .payload) ⟨hu.window, hu.inside⟩ rfl he (by simp)
      ⟨⟨x, rfl, (build_fits hx).mono hll⟩, ⟨y, rfl, (build_fits hy).mono hd⟩⟩
  · rintro e t ⟨-, hr, hw, -⟩
    exact ⟨hw ▸ hu.window, hr ▸ hu.inside⟩

theorem State.fetchSignature_leadsInv {s : State} (h : s.Inv) (hp : s.seq.phase = .sig) :
    Leads State.Inv s.fetchSignature.outcome := by
  have hm := s.reader.readSignature_meets
  unfold State.fetchSignature
  cases hx : s.reader.readSignature with
  | ok v r =>
    rw [hx] at hm
    have hu := h.moved hm.1
    have hne : ({ s with reader := r } : State).seq.phase ≠ .error := by simp [hp]
    cases v with
    | none => exact .of_next (hu.sigMismatch hne)
    | some v =>
      simp only [State.withReader_ok]
      split
      · rename_i i hi
        cases decode_sig hi
        exact .of_next (State.Grounded.enter (p := .blkHdr) ⟨hu.window, hu.inside⟩ rfl (hu.noError hne) (by simp) trivial)
      · exact .of_next (hu.sigMismatch hne)
  | raise e r => rw [hx] at hm; exact hm.elim
  | wait => exact .of_next h
  | fault f => rw [hx] at hm; exact hm.elim

/-- A fixed block's tables keep the invariant (42_deflate_block R170). -/
theorem execBtypeFixed_leadsInv {s : State} (h : s.Inv) (hp : s.seq.phase ≠ .error) (f : Bool) :
    Leads State.Inv (execBtypeFixed f s) := by
  unfold execBtypeFixed
  exact State.buildPayloadTables_leadsInv (u := s.latchHeader f 1) h ⟨Reader.Later.refl _, id, rfl, rfl, rfl⟩ hp
    fixedLlLens_length.le fixedDLens_length.le

/-- The block types, after a header has been read (42_deflate_block R151). -/
theorem exec_blkHdr_leadsInv {v : Nat} {i : Instr} {s : State} (h : s.Inv) (hp : s.seq.phase = .blkHdr)
    (hi : decode .blkHdr v = .ok i) : Leads State.Inv (exec i s) := by
  have hne : s.seq.phase ≠ .error := by simp [hp]
  obtain ⟨f, rfl | rfl | rfl | rfl⟩ := decode_blkHdr hi
  · exact .of_next (State.Grounded.enter (p := .storedHdr) ⟨h.window, h.inside⟩ rfl (h.noError hne) (by simp) trivial)
  · exact execBtypeFixed_leadsInv h hne f
  · exact .of_next (State.Grounded.enter (p := .dynHdr) ⟨h.window, h.inside⟩ rfl (h.noError hne) (by simp) trivial)
  · exact .of_next (State.Grounded.raise ⟨h.window, h.inside⟩ _)

theorem State.fetchHeader_leadsInv {s : State} (h : s.Inv) (hp : s.seq.phase = .blkHdr) :
    Leads State.Inv s.fetchHeader.outcome := by
  have hm := s.readHeader_meets
  unfold State.fetchHeader
  cases hx : s.readHeader with
  | ok v u =>
    rw [hx] at hm
    obtain ⟨ha, -⟩ := hm
    have hu : u.Inv := h.keep (h.grounded.after ha) ha.seq (by rw [hp]; trivial)
    dsimp only
    split
    · rename_i i hi
      exact exec_blkHdr_leadsInv hu (by rw [ha.seq, hp]) hi
    · exact .of_next (hu.grounded.raise _)
  | raise e u => rw [hx] at hm; exact .of_next ((h.grounded.after hm.1).raise e)
  | wait => exact .of_next h
  | fault f => rw [hx] at hm; exact hm.elim

/-- The stored header keeps the invariant (42_deflate_block R154 to R158). -/
theorem execStoredHdr_leadsInv {s : State} (h : s.Inv) (hp : s.seq.phase ≠ .error) : Leads State.Inv (execStoredHdr s) := by
  refine s.storedHdr_meets.leadsInv h ?_
  rintro t ⟨hb, -, hw, -, -, -, hs⟩
  exact State.Grounded.enter (p := .storedCopy) ⟨hw ▸ h.window, hb.1.inside h.inside⟩ (by rw [hs])
    (by rw [hs]; exact h.noError hp) (by simp) trivial

/-- A step of a stored copy keeps the invariant (42_deflate_block R159). -/
theorem State.storedCopyStep_leadsInv {s : State} (h : s.Inv) (hp : s.seq.phase = .storedCopy) :
    Leads State.Inv (s.storedCopyStep.settle s) := by
  by_cases hr : s.block.srem = 0
  · rw [State.storedCopyStep, if_pos hr]
    exact .of_next (h.endOfBlock (by simp [hp]))
  · refine (State.storedCopyStep_meets hr).leadsInv h ?_ ?_
    · rintro _ t ⟨b, r, hb, -, rfl⟩
      exact h.keep ⟨Window.emit_inv b h.window, hb.1.inside h.inside⟩ rfl (by rw [hp]; trivial)
    · rintro e t ⟨rfl, -⟩
      exact h.grounded

/-! ## The dynamic header and the code lengths -/

/-- The dynamic header keeps the invariant (42_deflate_block R160 to R163). -/
theorem execDynHdr_leadsInv {s : State} (h : s.Inv) (hp : s.seq.phase ≠ .error) : Leads State.Inv (execDynHdr s) := by
  refine s.dynHdr_meets.leadsInv h ?_
  rintro t ⟨u, ha, -, rfl, ht, h1, h2, h3, h4, hli, -⟩
  have hu := h.grounded.after ha
  exact hu.goto (p := .dynLens) (h.noError_after hp ha) (by simp)
    ⟨ht, h1, h2, h3, h4, by simp [hli]⟩

/-- The announced entries lie inside lens (10_state R39). -/
theorem Block.lensInv.total_le {b : Block} (h : b.lensInv) : b.lensTotal ≤ 320 := by
  obtain ⟨-, -, h1, -, h2, -⟩ := h
  simp only [Block.lensTotal]
  omega

/-- The code-length tokens keep the invariant (42_deflate_block R163 to R168). -/
theorem exec_clSymbol_leadsInv {v : Nat} {i : Instr} {s : State} (h : s.Inv) (hp : s.seq.phase = .dynLens)
    (hli : s.block.li.toNat < s.block.lensTotal) (hi : decode .clSymbol v = .ok i) : Leads State.Inv (exec i s) := by
  have hb : s.block.lensInv := by have := h.phase; rwa [hp] at this
  have ht := hb.total_le
  have appended : ∀ t, s.Appended t → t.Inv := by
    rintro t ⟨ha, hbl, hl⟩
    refine h.keep (h.grounded.after ha) ha.seq ?_
    obtain ⟨h1, h2, h3, h4, h5, -⟩ := hb
    rw [hp, hbl]
    exact ⟨h1, h2, h3, h4, h5, hl⟩
  rcases decode_clSymbol hi with ⟨l, rfl⟩ | rfl | rfl | rfl
  · exact (State.appendLens_meets (by omega) ht).leadsInv h appended
  · exact (State.clRep_meets (by omega) ht).leadsInv h appended
  · exact (State.zeroRun_meets (by decide) ht).leadsInv h appended
  · exact (State.zeroRun_meets (by decide) ht).leadsInv h appended

theorem State.dynTables_leadsInv {s : State} (h : s.Inv) (hp : s.seq.phase = .dynLens) :
    Leads State.Inv (s.dynTables.settle s) := by
  obtain ⟨-, -, h1, -, h2, -⟩ : s.block.lensInv := by have := h.phase; rwa [hp] at this
  refine State.buildPayloadTables_leadsInv h (State.After.refl s) (by simp [hp]) ?_ ?_
  · exact (List.length_take_le _ _).trans h1
  · exact (List.length_take_le _ _).trans h2

/-! ## The payload -/

/-- The literal/length tokens keep the invariant (42_deflate_block R171 to R180). -/
theorem exec_llSymbol_leadsInv {v : Nat} {i : Instr} {s : State} (h : s.Inv) (hp : s.seq.phase = .payload)
    (hi : decode .llSymbol v = .ok i) : Leads State.Inv (exec i s) := by
  have hne : s.seq.phase ≠ .error := by simp [hp]
  have hb : s.block.payloadInv := by have := h.phase; rwa [hp] at this
  rcases decode_llSymbol hi with ⟨b, rfl⟩ | rfl | ⟨row, hrow, rfl⟩ | ⟨odd, rfl⟩
  · exact .of_next (h.keep ⟨Window.emit_inv b h.window, h.inside⟩ rfl (by rw [hp]; exact hb))
  · exact .of_next (h.endOfBlock hne)
  · obtain ⟨he, hlo, hhi⟩ := lengthRows_range hrow
    rw [exec_lengthRows hrow]
    refine (State.matchLength_meets he (by omega)).leadsInv h ?_
    rintro t ⟨u, ha, hbl, h1, h2, rfl⟩
    have hu := h.grounded.after ha
    refine hu.goto (p := .matchDist) (h.noError_after hne ha) (by simp) ⟨?_, ?_, ?_⟩
    · rw [hbl]; exact hb
    · omega
    · omega
  · exact .of_next (h.grounded.raise _)

/-- The distance tokens keep the invariant (42_deflate_block R181 to R185). -/
theorem exec_dSymbol_leadsInv {v : Nat} {i : Instr} {s : State} (h : s.Inv) (hp : s.seq.phase = .matchDist)
    (hi : decode .dSymbol v = .ok i) : Leads State.Inv (exec i s) := by
  have hne : s.seq.phase ≠ .error := by simp [hp]
  obtain ⟨hb, hl⟩ : s.block.payloadInv ∧ s.block.lengthInv := by have := h.phase; rwa [hp] at this
  rcases decode_dSymbol hi with ⟨row, hrow, rfl⟩ | ⟨odd, rfl⟩
  · obtain ⟨he, hlo, hhi⟩ := distanceRows_range hrow
    rw [exec_distanceRows hrow]
    refine (State.matchDistance_meets he hlo (by omega)).leadsInv h ?_
    rintro t ⟨u, ha, hbl, h1, h2, rfl⟩
    have hu := h.grounded.after ha
    refine hu.goto (p := .matchCopy) (h.noError_after hne ha) (by simp) ?_
    rw [ha.window]
    refine ⟨?_, ?_, h1, h2, ?_⟩
    · rw [hbl]; exact hb
    · rw [hbl]; exact hl
    · rw [hbl]
  · exact .of_next (h.grounded.raise _)

/-- hist_valid never falls (20_memory R64). -/
theorem Window.Inv.histValid_emit_le {w : Window} (h : w.Inv) (b : Byte) :
    w.histValid.toNat ≤ (w.emit b).histValid.toNat := by
  obtain ⟨-, hmin, -⟩ := h
  have hv : w.histValid.toNat ≤ histSize := by rw [hmin]; exact Nat.min_le_right _ _
  rw [Window.emit_histValid b hv]
  omega

/-- A step of a match copy keeps the invariant (42_deflate_block R184). -/
theorem State.matchCopyStep_leadsInv {s : State} (h : s.Inv) (hp : s.seq.phase = .matchCopy) :
    Leads State.Inv (s.matchCopyStep.settle s) := by
  obtain ⟨hb, hl, hd1, hd2, hm⟩ : s.block.phaseInv s.window.histValid.toNat .matchCopy := hp ▸ h.phase
  by_cases hr : s.block.mrem = 0
  · rw [State.matchCopyStep, if_pos hr]
    exact .of_next (State.Grounded.enter (p := .payload) ⟨h.window, h.inside⟩ rfl (h.noError (by simp [hp])) (by simp) hb)
  · obtain ⟨b, -, hx⟩ := State.matchCopyStep_eq h.window hd1 hd2 hr
    rw [hx]
    refine .of_next (h.keep ⟨Window.emit_inv b h.window, h.inside⟩ rfl ?_)
    rw [hp]
    refine ⟨hb, hl, hd1, hd2.trans (h.window.histValid_emit_le b), ?_⟩
    show (s.block.mrem - 1).toNat ≤ s.block.mlen.toNat
    have := s.block.mrem.isLt
    have : s.block.mrem.toNat ≠ 0 := fun hz => hr (BitVec.eq_of_toNat_eq hz)
    rw [BitVec.toNat_sub]
    simp
    omega

/-- A symbol decoded, then its token: the invariant is kept if the token keeps it (42_deflate_block R163, R171, R181). -/
theorem State.fetchSymbol_leadsInv {n : Nat} {sel : TableSel} {s : State} (h : s.Inv) (hn : n ≤ 512)
    (hcl : sel = .cl → n ≤ 19) (ht : tablePresent n (s.block.table sel))
    (hrun : ∀ (i : Instr) (r : Reader) (y : BitVec 9),
      let u : State := { s with reader := r, block := { s.block with sym := y } }
      u.Inv → decode (symbolFormat sel) y.toNat = .ok i → Leads State.Inv (exec i u)) :
    Leads State.Inv (s.fetchSymbol sel).outcome := by
  have hm := State.decodeInto_meets hn ht
  unfold State.fetchSymbol
  cases hx : s.decodeInto sel with
  | ok _ u =>
    rw [hx] at hm
    obtain ⟨hb, -, hsym, hu⟩ := hm
    have hui : u.Inv := by
      rw [hu]
      exact h.keep ⟨h.window, hb.1.inside h.inside⟩ rfl h.phase
    dsimp only
    split
    · rename_i i hi
      have := hrun i u.reader u.block.sym
      rw [← hu] at this
      exact this hui hi
    · rename_i e he
      cases sel with
      | cl =>
        obtain ⟨i, hi⟩ := decode_clSymbol_ok (hsym.trans_le (hcl rfl))
        rw [symbolFormat, hi] at he
        cases he
      | ll => exact .of_next (hui.grounded.raise _)
      | d => exact .of_next (hui.grounded.raise _)
  | raise e u =>
    rw [hx] at hm
    obtain ⟨hl, -, -, hu⟩ := hm
    exact .of_next (State.Grounded.raise ⟨by rw [hu]; exact h.window, hl.inside h.inside⟩ e)
  | wait => exact .of_next h
  | fault f => rw [hx] at hm; exact hm.elim

/-! ## The engine and the host -/

/-- Phase by phase (43_mszip_frame R207), the engine's own move keeps the invariant and meets no model fault. -/
theorem State.fetchPhase_leadsInv {s : State} (h : s.Inv) : Leads State.Inv s.fetchPhase.outcome := by
  have hph := h.phase
  unfold State.fetchPhase
  cases hp : s.seq.phase with
  | idle | done | error => exact .of_next h
  | sig => exact State.fetchSignature_leadsInv h hp
  | blkHdr => exact State.fetchHeader_leadsInv h hp
  | storedHdr => exact execStoredHdr_leadsInv h (by simp [hp])
  | storedCopy => exact State.storedCopyStep_leadsInv h hp
  | dynHdr => exact execDynHdr_leadsInv h (by simp [hp])
  | dynLens =>
    rw [hp] at hph
    dsimp only
    split
    · rename_i hli
      exact State.fetchSymbol_leadsInv (sel := .cl) h (by decide) (fun _ => le_rfl) hph.1 fun _ _ _ hu hi =>
        exec_clSymbol_leadsInv hu hp hli hi
    · exact State.dynTables_leadsInv h hp
  | payload =>
    rw [hp] at hph
    exact State.fetchSymbol_leadsInv (sel := .ll) h (by decide) (by simp) hph.1 fun _ _ _ hu hi =>
      exec_llSymbol_leadsInv hu hp hi
  | matchDist =>
    rw [hp] at hph
    exact State.fetchSymbol_leadsInv (sel := .d) h (by decide) (by simp) hph.1.2 fun _ _ _ hu hi =>
      exec_dSymbol_leadsInv hu hp hi
  | matchCopy => exact State.matchCopyStep_leadsInv h hp

theorem State.fetch_leadsInv {s : State} (h : s.Inv) : Leads State.Inv s.fetch.outcome := by
  unfold State.fetch
  split
  · exact State.fetchCommand_leadsInv h _
  · exact State.fetchPhase_leadsInv h

/-- The marks of the port are no part of the invariant, so `awake` and `wait` keep it. -/
theorem State.engineStep_leadsInv {s : State} (h : s.Inv) : Leads State.Inv s.engineStep :=
  State.engineStep_leads (State.fetch_leadsInv h) h

/-- An empty OUT and a history of which nothing is valid. -/
theorem Window.inv_of_empty {w : Window} (hh : memoryWf w.hist = true) (ho : w.out = []) (ht : w.outTotal = 0)
    (hp : w.hwp = 0) (hv : w.histValid = 0) : w.Inv := by
  refine ⟨hh, by simp [ho, hv], by simp [ho, hp], by simp [ho, ht], fun d h1 h2 => ?_⟩
  simp [hv] at h2
  omega

/-- Reset is safe (70_reset_and_hazards R250, R251). -/
theorem State.resetCore_inv (s : State) : s.resetCore.Inv :=
  State.Grounded.enter (p := .idle) ⟨Window.inv_of_empty rfl rfl rfl rfl rfl, le_rfl⟩ rfl rfl (by simp) trivial

/-- START is safe (70_reset_and_hazards R252). -/
theorem State.Inv.start {s : State} (h : s.Inv) : s.start.Inv :=
  State.Grounded.enter (p := .sig) ⟨Window.inv_of_empty h.window.1 rfl rfl rfl rfl, Nat.zero_le _⟩ rfl rfl (by simp) trivial

theorem State.Inv.writeReg {s : State} (h : s.Inv) (offset v : Word) : (s.writeReg offset v).Inv := by
  unfold State.writeReg State.writeCtrl
  split_ifs
  · exact s.resetCore_inv
  · exact h.start
  · exact h
  · exact h
  · exact h

/-- Every move of host and engine keeps the invariant and meets no model fault. -/
theorem State.takeTurn_leadsInv {s : State} (h : s.Inv) (t : Turn) : Leads State.Inv (s.takeTurn t) := by
  cases t with
  | engine => exact State.engineStep_leadsInv h
  | bind bytes =>
    simp only [State.takeTurn, State.bindInput]
    split
    · exact .of_refused _ _
    · exact .of_next (h.keep ⟨h.window, Reader.takeBinding_pos_le h.inside⟩ rfl h.phase)
  | answer n => exact .of_next h
  | command w =>
    simp only [State.takeTurn, State.issueCommand]
    split
    · exact .of_refused _ _
    · exact .of_next h
  | write offset width v =>
    simp only [State.takeTurn, State.busWrite]
    split
    · exact .of_refused _ _
    · exact .of_next (h.writeReg offset v)
  | read offset width =>
    simp only [State.takeTurn, State.busRead]
    split_ifs
    · exact .of_refused _ _
    · exact .of_next h
    · exact .of_next h
  | reset => exact .of_next s.resetCore_inv

theorem step_leadsInv {s : State} (h : s.Inv) : Leads State.Inv (step s) := by
  cases ht : s.port.turns with
  | nil => rw [step_of_noTurn ht]; exact State.engineStep_leadsInv h
  | cons t rest => rw [step_of_turn ht]; exact State.takeTurn_leadsInv (s := s.dropTurn rest) h t

/-- Settles O51: the step lemma, by the phase and the token of the engine and by the move of the host. -/
theorem everyStepKeepsTheInvariant : Obligations.EveryStepKeepsTheInvariant :=
  fun _ t h ht => (step_leadsInv h).next t ht

end Sys2Proof.Machine
end

section
/-! PROOFS. What holds of the engine's step with no premise: the history stays canonical (20_memory R66), and a step that waits
has changed nothing (20_memory R62, 93 I9; log 4). One lemma for each operation, in the logic of `State.Runs`. -/

namespace Sys2Proof.Machine

/-! ## Moving on -/

/-- `t` comes after `s`: the reader later on the same input, the mark `waiting` as it was, a canonical history still canonical. -/
structure State.Onward (s t : State) : Prop where
  later : s.reader.Later t.reader
  waiting : t.port.waiting = s.port.waiting
  hist : memoryWf s.window.hist = true → memoryWf t.window.hist = true

theorem State.Onward.trans {a b c : State} (h : a.Onward b) (h' : b.Onward c) : a.Onward c :=
  ⟨h.later.trans h'.later, h'.waiting.trans h.waiting, h'.hist ∘ h.hist⟩

/-- Neither the reader nor the window nor the mark is touched. -/
theorem State.Onward.of_same {s t : State} (hr : t.reader = s.reader) (hw : t.window = s.window)
    (hp : t.port.waiting = s.port.waiting) : s.Onward t :=
  ⟨hr ▸ Reader.Later.refl _, hp, fun h => hw ▸ h⟩

theorem State.Onward.refl (s : State) : s.Onward s := .of_same rfl rfl rfl

/-- Emit keeps the history canonical (20_memory R64). -/
theorem State.Onward.emit (b : Byte) (s : State) : s.Onward (s.emit b) :=
  ⟨Reader.Later.refl _, rfl, memoryWf_write b s.window.hwp.isLt⟩

/-- An operation that leaves later states, and waits only where a FetchByte is not answered. -/
structure State.Runs {α : Type} (s : State) (x : Res State α) : Prop where
  meets : x.Meets (fun _ t => s.Onward t) (fun _ t => s.Onward t) (¬ s.reader.Ready) (fun _ => True)

/-- An operation run from a later state. -/
theorem State.Runs.after {α : Type} {s u : State} {x : Res State α} (hx : u.Runs x) (h : s.Onward u) : s.Runs x :=
  ⟨hx.meets.mono (fun _ _ => h.trans) (fun _ _ => h.trans) (fun hw hr => hw (hr.later h.later)) (fun _ h => h)⟩

/-- An operation run after registers of the block decoder were written. -/
theorem State.Runs.afterBlock {α : Type} {s : State} {b : Block} {x : Res State α}
    (hx : ({ s with block := b } : State).Runs x) : s.Runs x := hx.after (.of_same rfl rfl rfl)

/-- The rule of sequence. -/
theorem State.Runs.bind {α β : Type} {s : State} {x : Res State α} {k : α → State → Res State β} (h : s.Runs x)
    (hk : ∀ (a : α) (u : State), u.Runs (k a u)) : s.Runs (x.bind k) :=
  ⟨Res.Meets.bind h.meets fun a u hu => ((hk a u).after hu).meets⟩

theorem State.runs_ok {α : Type} {s t : State} (a : α) (h : s.Onward t) : s.Runs (.ok a t) := ⟨h⟩

theorem State.runs_raise {α : Type} {s t : State} (e : ErrKind) (h : s.Onward t) : s.Runs (α := α) (.raise e t) := ⟨h⟩

theorem State.runs_fault {α : Type} (s : State) (f : Fault) : s.Runs (α := α) (.fault f) := ⟨trivial⟩

/-- A reader operation inside the machine. -/
theorem Reader.Reads.runs {α : Type} {s : State} {x : Res Reader α} (h : s.reader.Reads x) : s.Runs (s.withReader x) := by
  cases x with
  | ok a r => exact State.runs_ok a ⟨h, rfl, id⟩
  | raise e r => exact State.runs_raise e ⟨h, rfl, id⟩
  | wait => exact ⟨h⟩
  | fault f => exact s.runs_fault f

/-! ## One lemma for each operation -/

theorem State.readExtra_runs (base e : Nat) (s : State) : s.Runs (s.readExtra base e) :=
  (s.reader.readBitsLsb_reads e).runs.bind fun _ u => State.runs_ok _ (.refl u)

theorem State.decodeInto_runs (sel : TableSel) (s : State) : s.Runs (s.decodeInto sel) := by
  unfold State.decodeInto
  split
  · exact s.runs_fault _
  · exact (s.reader.decodeLoop_reads _ _ _ _).runs.bind fun _ u => State.runs_ok _ (.of_same rfl rfl rfl)

theorem State.buildInto_runs (sel : TableSel) (lens : List (BitVec 4)) (s : State) : s.Runs (s.buildInto sel lens) := by
  unfold State.buildInto
  split
  · exact State.runs_ok _ (.of_same rfl rfl rfl)
  · exact State.runs_raise _ (.of_same rfl rfl rfl)

theorem State.buildPayloadTables_runs (ll d : List (BitVec 4)) (s : State) : s.Runs (s.buildPayloadTables ll d) :=
  (s.buildInto_runs .ll ll).bind fun _ u => (u.buildInto_runs .d d).bind fun _ _ => State.runs_ok _ (.of_same rfl rfl rfl)

theorem State.appendLens_runs (v : BitVec 4) (r : Nat) (s : State) : s.Runs (s.appendLens v r) := by
  unfold State.appendLens
  split
  · exact s.runs_fault _
  · exact State.runs_ok _ (.of_same rfl rfl rfl)

theorem State.runFill_runs (v : BitVec 4) (r : Nat) (s : State) : s.Runs (s.runFill v r) := by
  unfold State.runFill
  split
  · exact State.runs_raise _ (.refl s)
  · exact s.appendLens_runs v r

theorem State.repeatPrevious_runs (r : Nat) (s : State) : s.Runs (s.repeatPrevious r) := by
  unfold State.repeatPrevious
  split
  · exact s.runFill_runs _ r
  · exact s.runs_fault _

theorem State.readSlen_runs (s : State) : s.Runs s.readSlen :=
  s.reader.readRawHalf_reads.runs.bind fun _ _ => State.runs_ok _ (.of_same rfl rfl rfl)

theorem State.readSnlen_runs (s : State) : s.Runs s.readSnlen :=
  s.reader.readRawHalf_reads.runs.bind fun _ _ => State.runs_ok _ (.of_same rfl rfl rfl)

theorem State.startStoredCopy_runs (s : State) : s.Runs s.startStoredCopy := by
  unfold State.startStoredCopy
  split
  · exact State.runs_raise _ (.refl s)
  · exact State.runs_ok _ (.of_same rfl rfl rfl)

theorem State.readCounts_runs (s : State) : s.Runs s.readCounts :=
  (s.readExtra_runs 257 5).bind fun _ _ => State.Runs.bind (.afterBlock (State.readExtra_runs 1 5 _)) fun _ _ =>
    State.Runs.bind (.afterBlock (State.readExtra_runs 4 4 _)) fun _ _ => State.runs_ok _ (.of_same rfl rfl rfl)

theorem State.readClLens_runs (order : List (Fin 19)) (s : State) : s.Runs (State.readClLens order s) := by
  induction order generalizing s with
  | nil => exact State.runs_ok _ (.refl s)
  | cons i rest ih => exact (s.reader.readBitsLsb_reads 3).runs.bind fun _ _ => .afterBlock (ih _)

theorem State.readClArray_runs (s : State) : s.Runs s.readClArray := .afterBlock (State.readClLens_runs _ _)

theorem State.startDynLens_runs (s : State) : s.Runs s.startDynLens :=
  (s.buildInto_runs .cl _).bind fun _ _ => State.runs_ok _ (.of_same rfl rfl rfl)

theorem State.matchLength_runs (base e : Nat) (s : State) : s.Runs (s.matchLength base e) :=
  (s.readExtra_runs base e).bind fun _ _ => State.runs_ok _ (.of_same rfl rfl rfl)

theorem State.startMatchCopy_runs (s : State) : s.Runs s.startMatchCopy := by
  unfold State.startMatchCopy
  split
  · exact State.runs_raise _ (.refl s)
  · exact State.runs_ok _ (.of_same rfl rfl rfl)

theorem State.matchDistance_runs (base e : Nat) (s : State) : s.Runs (s.matchDistance base e) :=
  (s.readExtra_runs base e).bind fun _ _ => .afterBlock (State.startMatchCopy_runs _)

theorem State.endOfBlock_onward (s : State) : s.Onward s.endOfBlock := by
  unfold State.endOfBlock
  split <;> exact .of_same rfl rfl rfl

theorem State.sigMismatch_onward (s : State) : s.Onward s.sigMismatch := by
  unfold State.sigMismatch
  split <;> exact .of_same rfl rfl rfl

theorem State.storedCopyStep_runs (s : State) : s.Runs s.storedCopyStep := by
  unfold State.storedCopyStep
  split
  · exact State.runs_ok _ s.endOfBlock_onward
  · exact s.reader.readRawByte_reads.runs.bind fun b u => State.runs_ok _ ((State.Onward.emit b u).trans (.of_same rfl rfl rfl))

theorem State.matchCopyStep_runs (s : State) : s.Runs s.matchCopyStep := by
  unfold State.matchCopyStep
  split
  · exact State.runs_ok _ (.of_same rfl rfl rfl)
  · split
    · exact s.runs_fault _
    · rename_i b _
      exact State.runs_ok _ ((State.Onward.emit b s).trans (.of_same rfl rfl rfl))

theorem State.readHeader_runs (s : State) : s.Runs s.readHeader :=
  (s.reader.readBitsLsb_reads 1).runs.bind fun _ _ =>
    State.Runs.bind (.afterBlock (Reader.readBitsLsb_reads 2 _).runs) fun _ u => State.runs_ok _ (.refl u)

/-! ## Outcomes -/

/-- A next state comes after `s`, or is `s` waiting in a FetchByte that is not answered. -/
def State.MovesOn (s : State) (o : Host.Outcome State Fault Refusal) : Prop :=
  ∀ t, o = .next t → s.Onward t ∨ (t = s.wait ∧ ¬ s.reader.Ready)

theorem State.Onward.movesOn {s t : State} (h : s.Onward t) : s.MovesOn (.next t) := by
  rintro _ ⟨⟩
  exact .inl h

theorem State.movesOn_fault (s : State) (f : Fault) : s.MovesOn (.fault f) :=
  fun _ h => (nomatch h)

theorem State.movesOn_wait {s : State} (h : ¬ s.reader.Ready) : s.MovesOn (.next s.wait) := by
  rintro _ ⟨⟩
  exact .inr ⟨rfl, h⟩

theorem State.Onward.raise {s t : State} (h : s.Onward t) (e : ErrKind) : s.Onward (t.raise e) :=
  h.trans (.of_same rfl rfl rfl)

theorem State.Runs.settle {s : State} {x : Res State Unit} (h : s.Runs x) : s.MovesOn (x.settle s) := by
  cases x with
  | ok _ t => exact State.Onward.movesOn h.meets
  | raise e t => exact (State.Onward.raise h.meets e).movesOn
  | wait => exact State.movesOn_wait h.meets
  | fault f => exact s.movesOn_fault f

theorem State.Runs.settleCommand {s : State} {x : Res State Half} (h : s.Runs x) : s.MovesOn (x.settleCommand s) := by
  have completed : ∀ {t : State} (c : Completion), s.Onward t → s.Onward (t.complete c) := fun _ ht =>
    ht.trans (.of_same rfl rfl rfl)
  cases x with
  | ok v t => exact (completed _ h.meets).movesOn
  | raise e t => exact (completed _ h.meets).movesOn
  | wait => exact State.movesOn_wait h.meets
  | fault f => exact s.movesOn_fault f

/-! ## Instructions -/

theorem execBtypeFixed_movesOn (f : Bool) (s : State) : s.MovesOn (execBtypeFixed f s) := by
  unfold execBtypeFixed
  exact State.Runs.settle ((State.buildPayloadTables_runs _ _ (s.latchHeader f 1)).after (.of_same rfl rfl rfl))

theorem execStoredHdr_movesOn (s : State) : s.MovesOn (execStoredHdr s) :=
  State.Runs.settle ((s.reader.alignToByte_reads ()).runs.bind fun _ u => u.readSlen_runs.bind fun _ v =>
    v.readSnlen_runs.bind fun _ w => w.startStoredCopy_runs)

theorem execDynHdr_movesOn (s : State) : s.MovesOn (execDynHdr s) :=
  State.Runs.settle (s.readCounts_runs.bind fun _ u => u.readClArray_runs.bind fun _ v => v.startDynLens_runs)

theorem execClRep_movesOn (s : State) : s.MovesOn (execClRep s) := by
  refine State.Runs.settle ?_
  split
  · exact State.runs_raise _ (.refl s)
  · exact (s.readExtra_runs 3 2).bind fun r u => u.repeatPrevious_runs r

/-- Every instruction moves on or waits. -/
theorem exec_movesOn (i : Instr) (s : State) : s.MovesOn (exec i s) := by
  by_cases hl : i ∈ Claims.lengthRows.map Prod.fst
  · obtain ⟨row, hr, rfl⟩ := List.mem_map.1 hl
    rw [exec_lengthRows hr]
    exact (s.matchLength_runs _ _).settle
  by_cases hd : i ∈ Claims.distanceRows.map Prod.fst
  · obtain ⟨row, hr, rfl⟩ := List.mem_map.1 hd
    rw [exec_distanceRows hr]
    exact (s.matchDistance_runs _ _).settle
  cases i with
  | sig => exact State.Onward.movesOn ⟨Reader.Later.refl _, rfl, id⟩
  | btypeStored | btypeDynamic | btypeReserved | llReserved | dReserved => exact State.Onward.movesOn (.of_same rfl rfl rfl)
  | lit b => exact (State.Onward.emit b s).movesOn
  | eob => exact s.endOfBlock_onward.movesOn
  | btypeFixed f => exact execBtypeFixed_movesOn f s
  | storedHdr => exact execStoredHdr_movesOn s
  | dynHdr => exact execDynHdr_movesOn s
  | clLit v => exact (s.appendLens_runs v 1).settle
  | clRep => exact execClRep_movesOn s
  | clZ3 => exact ((s.readExtra_runs 3 3).bind fun r u => u.runFill_runs 0 r).settle
  | clZ11 => exact ((s.readExtra_runs 11 7).bind fun r u => u.runFill_runs 0 r).settle
  | readBitLsb => exact (s.reader.readBit_reads .lsb).runs.settleCommand
  | readBitMsb => exact (s.reader.readBit_reads .msb).runs.settleCommand
  | readBitsLsb n => exact (s.reader.readBitsLsb_reads n.toNat).runs.settleCommand
  | readBitsMsb n => exact (s.reader.readBitsMsb_reads n.toNat).runs.settleCommand
  | readRawByte => exact (s.reader.readRawByte_reads.bind fun _ r => r.reads_ok _).runs.settleCommand
  | align => exact (s.reader.alignToByte_reads 0).runs.settleCommand
  | buildTable sel lens => exact (s.buildInto_runs sel lens).settle
  | decodeSymbol sel => exact (s.decodeInto_runs sel).settle
  | _ => simp [Claims.lengthRows, Claims.distanceRows] at hl hd

/-! ## The engine's step -/

/-- What was fetched: an instruction on a later state, or a move that moves on. -/
def Fetched.MovesOn (s : State) : Fetched → Prop
  | .run _ u => s.Onward u
  | .move o => s.MovesOn o

theorem State.strangeSymbol_movesOn {s u : State} (h : s.Onward u) (sel : TableSel) : s.MovesOn (u.strangeSymbol sel) := by
  cases sel with
  | cl => exact s.movesOn_fault _
  | ll => exact (h.raise _).movesOn
  | d => exact (h.raise _).movesOn

theorem State.fetchSignature_movesOn (s : State) : s.fetchSignature.MovesOn s := by
  have hx := s.reader.readSignature_reads.runs.meets
  unfold State.fetchSignature
  split <;> rename_i heq <;> rw [heq] at hx
  · exact (State.Onward.trans hx (State.sigMismatch_onward _)).movesOn
  · split
    · exact hx
    · exact (State.Onward.trans hx (State.sigMismatch_onward _)).movesOn
  · exact (State.Onward.raise hx _).movesOn
  · exact State.movesOn_wait hx
  · exact s.movesOn_fault _

theorem State.fetchHeader_movesOn (s : State) : s.fetchHeader.MovesOn s := by
  have hx := s.readHeader_runs.meets
  unfold State.fetchHeader
  split <;> rename_i heq <;> rw [heq] at hx
  · split
    · exact hx
    · exact (State.Onward.raise hx _).movesOn
  · exact (State.Onward.raise hx _).movesOn
  · exact State.movesOn_wait hx
  · exact s.movesOn_fault _

theorem State.fetchSymbol_movesOn (sel : TableSel) (s : State) : (s.fetchSymbol sel).MovesOn s := by
  have hx := (s.decodeInto_runs sel).meets
  unfold State.fetchSymbol
  split <;> rename_i heq <;> rw [heq] at hx
  · split
    · exact hx
    · exact State.strangeSymbol_movesOn hx sel
  · exact (State.Onward.raise hx _).movesOn
  · exact State.movesOn_wait hx
  · exact s.movesOn_fault _

theorem State.fetchCommand_movesOn (w : Half) (s : State) : (s.fetchCommand w).MovesOn s := by
  unfold State.fetchCommand
  split
  · exact .refl s
  · exact State.Onward.movesOn (.of_same rfl rfl rfl)

theorem State.fetchPhase_movesOn (s : State) : s.fetchPhase.MovesOn s := by
  unfold State.fetchPhase
  cases s.seq.phase with
  | idle | done | error => exact (State.Onward.refl s).movesOn
  | storedHdr | dynHdr => exact .refl s
  | storedCopy => exact s.storedCopyStep_runs.settle
  | matchCopy => exact s.matchCopyStep_runs.settle
  | sig => exact s.fetchSignature_movesOn
  | blkHdr => exact s.fetchHeader_movesOn
  | payload => exact s.fetchSymbol_movesOn .ll
  | matchDist => exact s.fetchSymbol_movesOn .d
  | dynLens =>
    dsimp only
    split
    · exact s.fetchSymbol_movesOn .cl
    · exact (s.buildPayloadTables_runs _ _).settle

theorem State.fetch_movesOn (s : State) : s.fetch.MovesOn s := by
  unfold State.fetch
  split
  · exact s.fetchCommand_movesOn _
  · exact s.fetchPhase_movesOn

/-- An instruction that waits inside a step leaves the state the step began with (log 4). -/
theorem resume_movesOn {s u : State} {o : Host.Outcome State Fault Refusal} (hs : s.port.waiting = false) (hu : s.Onward u)
    (h : u.MovesOn o) : s.MovesOn (resume s o) := by
  cases o with
  | fault f => exact s.movesOn_fault f
  | refused r => exact fun _ ht => (nomatch ht)
  | next t =>
    simp only [resume]
    rcases h t rfl with ht | ⟨rfl, hw⟩
    · rw [ht.waiting, hu.waiting, hs]
      exact (hu.trans ht).movesOn
    · exact State.movesOn_wait fun hr => hw (hr.later hu.later)

/-- An engine step moves on, or leaves the state it began with waiting on a FetchByte that is not answered. -/
theorem State.engineStep_movesOn (s : State) : s.awake.MovesOn s.engineStep := by
  have hf := s.awake.fetch_movesOn
  unfold State.engineStep
  cases hx : s.awake.fetch with
  | run i u => rw [hx] at hf; exact resume_movesOn rfl hf (exec_movesOn i u)
  | move o => rw [hx] at hf; exact hf

/-! ## The history -/

theorem State.engineStep_keeps_memoryWf {s t : State} (h : memoryWf s.window.hist = true) (ht : s.engineStep = .next t) :
    memoryWf t.window.hist = true := by
  rcases s.engineStep_movesOn t ht with ho | ⟨rfl, -⟩
  · exact ho.hist h
  · exact h

/-- The host touches the history by reset alone, which empties it (70_reset_and_hazards R250, R252; log 12). -/
theorem State.writeReg_keeps_memoryWf {s : State} (h : memoryWf s.window.hist = true) (offset v : Word) :
    memoryWf (s.writeReg offset v).window.hist = true := by
  unfold State.writeReg State.writeCtrl
  split_ifs
  · exact memoryWf_reset
  · exact h
  · exact h
  · exact h
  · exact h

theorem State.takeTurn_keeps_memoryWf {s u : State} {t : Turn} (h : memoryWf s.window.hist = true)
    (ht : s.takeTurn t = .next u) : memoryWf u.window.hist = true := by
  cases t with
  | engine => exact State.engineStep_keeps_memoryWf h ht
  | bind bytes =>
    simp only [State.takeTurn, State.bindInput] at ht
    split at ht <;> cases ht
    exact h
  | answer n => cases ht; exact h
  | command w =>
    simp only [State.takeTurn, State.issueCommand] at ht
    split at ht <;> cases ht
    exact h
  | write offset width v =>
    simp only [State.takeTurn, State.busWrite] at ht
    split at ht <;> cases ht
    exact State.writeReg_keeps_memoryWf h offset v
  | read offset width =>
    simp only [State.takeTurn, State.busRead] at ht
    split_ifs at ht <;> cases ht
    · exact h
    · exact h
  | reset => cases ht; exact memoryWf_reset

/-- Settles O54: the engine writes the history by Emit alone, the host by reset alone. -/
theorem historyStaysCanonical : Obligations.HistoryStaysCanonical := by
  intro s t h ht
  cases hs : s.port.turns with
  | nil => exact State.engineStep_keeps_memoryWf h (step_of_noTurn hs ▸ ht)
  | cons turn rest => exact State.takeTurn_keeps_memoryWf (s := s.dropTurn rest) h (step_of_turn hs ▸ ht)

/-! ## Steps that wait first -/

/-- A step whose instruction waits leaves the state parked. -/
theorem State.engineStep_parked_of_run {s u : State} {i : Instr} (hf : s.awake.fetch = .run i u)
    (he : exec i u = .next (Claims.parked u)) : s.engineStep = .next (Claims.parked s) := by
  simp only [State.engineStep, hf, he]
  rfl

/-- A step whose fetch waits leaves the state parked. -/
theorem State.engineStep_parked_of_move {s : State} (hf : s.awake.fetch = .move (.next s.awake.wait)) :
    s.engineStep = .next (Claims.parked s) := by
  simp only [State.engineStep, hf]
  rfl

theorem State.fetch_command {s : State} {w : Half} {i : Instr} (hc : s.port.cmd = some w)
    (hi : decode .readerCmd w.toNat = .ok i) : s.fetch = .run i s := by
  simp only [State.fetch, hc, State.fetchCommand, hi]

theorem State.fetch_phase {s : State} (hc : s.port.cmd = none) : s.fetch = s.fetchPhase := by
  simp only [State.fetch, hc]

theorem State.fetchSignature_wait {s : State} (h : s.reader.readSignature = .wait) :
    s.fetchSignature = .move (.next s.wait) := by
  simp only [State.fetchSignature, h, State.withReader_wait]

theorem State.fetchHeader_wait {s : State} (h : s.readHeader = .wait) : s.fetchHeader = .move (.next s.wait) := by
  simp only [State.fetchHeader, h]

theorem State.fetchSymbol_wait {s : State} {sel : TableSel} (h : s.decodeInto sel = .wait) :
    s.fetchSymbol sel = .move (.next s.wait) := by
  simp only [State.fetchSymbol, h]

/-- A node inside the trie is no leaf. -/
theorem leafAt_of_innerNode {t : Table} {c : List Bool} (h : Claims.innerNode t c) : leafAt t (msbValue c) c.length = none := by
  cases hl : leafAt t (msbValue c) c.length with
  | none => rfl
  | some sym =>
    obtain ⟨e, he, -, hlen, hcode⟩ := leafAt_some hl
    exact absurd ⟨hlen, hcode⟩ (h.1 e he)

/-- A node inside the trie goes on. -/
theorem continues_of_innerNode {t : Table} {c : List Bool} (h : Claims.innerNode t c) :
    continues t (msbValue c) c.length = true := by
  obtain ⟨-, e, he, hlen, hcode⟩ := h
  exact List.any_eq_true.2 ⟨e, he, by simp [hlen, hcode]⟩

/-- One bit of a decode at a node inside the trie (41_huffman R136). -/
theorem Reader.decodeLoop_innerNode {t : Table} {c : List Bool} (h : Claims.innerNode t c) (fuel : Nat) (r : Reader) :
    r.decodeLoop t (fuel + 1) (msbValue c) c.length =
      (r.takeBit .lsb).bind fun b r1 => r1.decodeLoop t fuel (2 * msbValue c + b.toNat) (c.length + 1) := by
  rw [Reader.decodeLoop, leafAt_of_innerNode h, if_pos (continues_of_innerNode h)]

/-- A decode that starts with a bit, of a byte not answered. -/
theorem State.decodeInto_unanswered {sel : TableSel} {s : State} (h : Claims.symbolNeedsByte (s.block.table sel) s.reader)
    (hu : Claims.unanswered s.reader) : s.decodeInto sel = .wait := by
  obtain ⟨hc, x, hx, hi⟩ := h
  have hd : s.reader.decodeSymbol x = .wait := by
    rw [Reader.decodeSymbol]
    exact (Reader.decodeLoop_innerNode hi _ _).trans (by rw [Reader.takeBit_unanswered .lsb hc hu, Res.bind_wait])
  simp only [State.decodeInto, hx, hd, State.withReader_wait, Res.bind_wait]

theorem Reader.readSignature_unanswered {r : Reader} (h : Claims.unanswered r) : r.readSignature = .wait := by
  rw [Reader.readSignature, Reader.fetchByte_wait (r := r.alignToByte) h, Res.bind_wait]

theorem State.readHeader_unanswered {s : State} (hc : s.reader.ccount = 0) (h : Claims.unanswered s.reader) :
    s.readHeader = .wait := by
  rw [State.readHeader, Reader.readBitsLsb_unanswered (by decide) (by decide) hc h, State.withReader_wait, Res.bind_wait]

theorem execStoredHdr_unanswered {s : State} (h : Claims.unanswered s.reader) :
    exec .storedHdr s = .next (Claims.parked s) := by
  show execStoredHdr s = _
  rw [execStoredHdr, State.withReader_ok, Res.bind_ok, State.readSlen, Reader.readRawHalf,
    Reader.readRawByte_wait (r := s.reader.alignToByte) rfl h]
  rfl

theorem execDynHdr_unanswered {s : State} (hc : s.reader.ccount = 0) (h : Claims.unanswered s.reader) :
    exec .dynHdr s = .next (Claims.parked s) := by
  show execDynHdr s = _
  rw [execDynHdr, State.readCounts, State.readExtra, Reader.readBitsLsb_unanswered (by decide) (by decide) hc h]
  rfl

theorem State.storedCopyStep_unanswered {s : State} (hr : s.block.srem ≠ 0) (hc : s.reader.ccount = 0)
    (h : Claims.unanswered s.reader) : s.storedCopyStep = .wait := by
  rw [State.storedCopyStep, if_neg hr, Reader.readRawByte_wait hc h]
  rfl

theorem decode_readBitsLsb {n : Nat} (hn : n ≤ 16) :
    decode .readerCmd (0x1000 + n) = .ok (.readBitsLsb (BitVec.ofNat 5 n)) := by
  interval_cases n <;> rfl

theorem decode_readBitsMsb {n : Nat} (hn : n ≤ 16) :
    decode .readerCmd (0x1100 + n) = .ok (.readBitsMsb (BitVec.ofNat 5 n)) := by
  interval_cases n <;> rfl

/-- A command that needs a byte waits where it is not answered. -/
theorem exec_command_unanswered {w : Half} {s : State} (hc : s.reader.ccount = 0) (h : Claims.unanswered s.reader)
    (hw : w = 0x0000 ∨ w = 0x0100 ∨ w = 0x2000 ∨ ∃ n, 1 ≤ n ∧ n ≤ 16 ∧ (w.toNat = 0x1000 + n ∨ w.toNat = 0x1100 + n)) :
    ∃ i, decode .readerCmd w.toNat = .ok i ∧ exec i s = .next (Claims.parked s) := by
  rcases hw with rfl | rfl | rfl | ⟨n, h1, h16, hn | hn⟩
  · exact ⟨.readBitLsb, rfl, settleCommand_parked (Reader.readBit_unanswered .lsb hc h) s⟩
  · exact ⟨.readBitMsb, rfl, settleCommand_parked (Reader.readBit_unanswered .msb hc h) s⟩
  · exact ⟨.readRawByte, rfl, exec_readRawByte_unanswered hc h⟩
  · have h5 : (BitVec.ofNat 5 n).toNat = n := by simp; omega
    have hx := Reader.readBitsLsb_unanswered (h1.trans_eq h5.symm) (h5.trans_le h16) hc h
    exact ⟨.readBitsLsb (BitVec.ofNat 5 n), hn ▸ decode_readBitsLsb h16, settleCommand_parked hx s⟩
  · have h5 : (BitVec.ofNat 5 n).toNat = n := by simp; omega
    have hx := Reader.readBitsMsb_unanswered (h1.trans_eq h5.symm) (h5.trans_le h16) hc h
    exact ⟨.readBitsMsb (BitVec.ofNat 5 n), hn ▸ decode_readBitsMsb h16, settleCommand_parked hx s⟩

/-- A step that needs a FetchByte first waits where it is not answered. -/
theorem State.engineStep_unanswered {s : State} (hu : Claims.unanswered s.reader) (hn : Claims.needsByte s) :
    s.engineStep = .next (Claims.parked s) := by
  unfold Claims.needsByte at hn
  cases hc : s.port.cmd with
  | some w =>
    rw [hc] at hn
    obtain ⟨i, hi, he⟩ := exec_command_unanswered (s := s.awake) hn.1 hu hn.2
    exact State.engineStep_parked_of_run (State.fetch_command (s := s.awake) hc hi) he
  | none =>
    have hf : s.awake.fetch = s.awake.fetchPhase := State.fetch_phase (s := s.awake) hc
    rw [hc] at hn
    unfold State.fetchPhase at hf
    rw [State.awake_seq] at hf
    cases hp : s.seq.phase <;> rw [hp] at hn hf
    case idle | matchCopy | done | error => exact hn.elim
    case sig =>
      exact State.engineStep_parked_of_move (hf.trans (State.fetchSignature_wait (Reader.readSignature_unanswered hu)))
    case blkHdr =>
      exact State.engineStep_parked_of_move (hf.trans (State.fetchHeader_wait (State.readHeader_unanswered hn hu)))
    case storedHdr => exact State.engineStep_parked_of_run hf (execStoredHdr_unanswered hu)
    case dynHdr => exact State.engineStep_parked_of_run hf (execDynHdr_unanswered hn hu)
    case storedCopy =>
      refine State.engineStep_parked_of_move (hf.trans ?_)
      rw [State.storedCopyStep_unanswered (s := s.awake) hn.2 hn.1 hu]
      rfl
    case dynLens =>
      refine State.engineStep_parked_of_move (hf.trans ?_)
      exact (if_pos hn.1).trans (State.fetchSymbol_wait (State.decodeInto_unanswered (sel := .cl) hn.2 hu))
    case payload =>
      exact State.engineStep_parked_of_move (hf.trans (State.fetchSymbol_wait (State.decodeInto_unanswered (sel := .ll) hn hu)))
    case matchDist =>
      exact State.engineStep_parked_of_move (hf.trans (State.fetchSymbol_wait (State.decodeInto_unanswered (sel := .d) hn hu)))

/-- Settles O48: a step that moves on clears the mark, so a step that ends waiting is the other case of
`engineStep_movesOn`; a step that needs a byte first waits phase by phase. -/
theorem waitingChangesNothing : Obligations.WaitingChangesNothing := by
  refine ⟨fun s t hs ht hw => ?_, fun s hs hu hn => (step_of_noTurn hs).trans (State.engineStep_unanswered hu hn)⟩
  rcases s.engineStep_movesOn t (step_of_noTurn hs ▸ ht) with ho | ⟨rfl, hr⟩
  · rw [ho.waiting] at hw
    cases hw
  · exact ⟨rfl, fun hp ha => hr ⟨ha, hp⟩⟩

end Sys2Proof.Machine
end

section
/-! PROOFS. The engine's own reads that reach a FetchByte not answered, at their first byte or a later one (20_memory R62): each
waits, and a stored copy emits what is offered before it does. -/

namespace Sys2Proof.Machine

/-! ## Bytes offered -/

/-- Nothing offered and the end not delivered: the next FetchByte is not answered. -/
theorem Reader.unanswered_of_nil {r : Reader} (ha : ¬ r.answered) (h : r.bytesOffered = []) : Claims.unanswered r := by
  cases hi : r.input with
  | none => exact .inl hi
  | some bytes =>
    simp [Reader.answered, Reader.bytesOffered, hi] at ha h
    exact .inr (by omega)

/-- The next byte offered: the host has answered it, and the others are offered after it. -/
theorem Reader.bytesOffered_cons {r : Reader} {b : Byte} {rest : List Byte} (h : r.bytesOffered = b :: rest) :
    r.pos < r.granted ∧ (r.input.getD [])[r.pos]? = some b ∧ ({ r with pos := r.pos + 1 } : Reader).bytesOffered = rest := by
  have hlt : r.pos < ((r.input.getD []).take r.granted).length := by
    by_contra hn
    rw [Reader.bytesOffered, List.drop_eq_nil_of_le (by omega)] at h
    cases h
  rw [Reader.bytesOffered, List.drop_eq_getElem_cons hlt] at h
  injection h with hb hr
  rw [List.length_take] at hlt
  refine ⟨by omega, ?_, hr⟩
  rw [← hb, List.getElem_take, List.getElem?_eq_getElem]

theorem Reader.fetchByte_offered {r : Reader} {b : Byte} {rest : List Byte} (h : r.bytesOffered = b :: rest) :
    r.fetchByte = .ok (some b) { r with pos := r.pos + 1 } := by
  obtain ⟨hg, hb, -⟩ := Reader.bytesOffered_cons h
  cases hi : r.input with
  | none => simp [hi] at hb
  | some bytes => exact (Reader.fetchByte_some hi hg (by simpa [hi] using hb)).trans (by rw [hi])

theorem Reader.readRawByte_offered {r : Reader} {b : Byte} {rest : List Byte} (hc : r.ccount = 0)
    (h : r.bytesOffered = b :: rest) : r.readRawByte = .ok b { r with pos := r.pos + 1 } := by
  obtain ⟨hg, hb, -⟩ := Reader.bytesOffered_cons h
  exact Reader.readRawByte_some hg hc hb

/-- Fewer than the signature's two bytes are offered (43_mszip_frame R200). -/
theorem Reader.readSignature_waits {r : Reader} (ha : ¬ r.answered) (hl : r.bytesOffered.length < 2) :
    r.readSignature = .wait := by
  rw [Reader.readSignature]
  cases h0 : r.bytesOffered with
  | nil => rw [Reader.fetchByte_wait (r := r.alignToByte) (Reader.unanswered_of_nil ha h0), Res.bind_wait]
  | cons b rest =>
    obtain ⟨-, -, h1⟩ := Reader.bytesOffered_cons h0
    obtain rfl : rest = [] := List.eq_nil_of_length_eq_zero (by rw [h0, List.length_cons] at hl; omega)
    rw [Reader.fetchByte_offered (r := r.alignToByte) h0, Res.bind_ok]
    dsimp only
    rw [Reader.fetchByte_wait, Res.bind_wait]
    exact Reader.unanswered_of_nil (r := { r.alignToByte with pos := r.pos + 1 }) ha h1

/-- A raw field of two bytes, of which fewer are offered, or both are. -/
theorem Reader.readRawHalf_offered {r : Reader} (hc : r.ccount = 0) (ha : ¬ r.answered) :
    r.readRawHalf = .wait ∨ ∃ v, r.readRawHalf = .ok v { r with pos := r.pos + 2 } ∧
      r.bytesOffered.length = ({ r with pos := r.pos + 2 } : Reader).bytesOffered.length + 2 := by
  rw [Reader.readRawHalf]
  cases h0 : r.bytesOffered with
  | nil => exact .inl (by rw [Reader.readRawByte_wait hc (Reader.unanswered_of_nil ha h0), Res.bind_wait])
  | cons b0 rest =>
    obtain ⟨-, -, h1⟩ := Reader.bytesOffered_cons h0
    rw [Reader.readRawByte_offered hc h0, Res.bind_ok]
    cases rest with
    | nil =>
      refine .inl ?_
      rw [Reader.readRawByte_wait (r := { r with pos := r.pos + 1 }) hc (Reader.unanswered_of_nil ha h1), Res.bind_wait]
    | cons b1 rest =>
      obtain ⟨-, -, h2⟩ := Reader.bytesOffered_cons h1
      rw [Reader.readRawByte_offered (r := { r with pos := r.pos + 1 }) hc h1, Res.bind_ok]
      exact .inr ⟨_, rfl, by simp only [List.length_cons, ← h2]⟩

/-- Two raw fields of which fewer than four bytes are offered: the first waits, or the second does. -/
theorem Reader.readRawHalf_twice_waits {r : Reader} (hc : r.ccount = 0) (ha : ¬ r.answered) (hl : r.bytesOffered.length < 4) :
    r.readRawHalf = .wait ∨ ∃ v, r.readRawHalf = .ok v { r with pos := r.pos + 2 } ∧
      ({ r with pos := r.pos + 2 } : Reader).readRawHalf = .wait := by
  rcases Reader.readRawHalf_offered hc ha with h0 | ⟨v, h0, hn0⟩
  · exact .inl h0
  · rcases Reader.readRawHalf_offered (r := { r with pos := r.pos + 2 }) hc ha with h1 | ⟨w, -, hn1⟩
    · exact .inr ⟨v, h0, h1⟩
    · omega

/-- A stored header of which fewer than four bytes are offered (42_deflate_block R156). -/
theorem execStoredHdr_waits {s : State} (ha : ¬ s.reader.answered) (hl : s.reader.bytesOffered.length < 4) :
    exec .storedHdr s = .next (Claims.parked s) := by
  show execStoredHdr s = _
  rw [execStoredHdr, State.withReader_ok, Res.bind_ok, State.readSlen]
  rcases Reader.readRawHalf_twice_waits (r := s.reader.alignToByte) rfl ha hl with h | ⟨v, h, h'⟩
  · rw [h]; rfl
  · simp only [h, State.withReader_ok, Res.bind_ok, State.readSnlen, h']
    rfl

/-! ## A stored copy -/

theorem emitAll_out (bytes : List Byte) (w : Window) : (Claims.emitAll bytes w).out = w.out ++ bytes := by
  induction bytes generalizing w with
  | nil => simp [Claims.emitAll]
  | cons b bytes ih =>
    rw [show Claims.emitAll (b :: bytes) w = Claims.emitAll bytes (w.emit b) from rfl, ih]
    simp

/-- The state after one byte of a stored copy (42_deflate_block R159). -/
def State.storedByte (b : Byte) (s : State) : State :=
  { s.awake with
    reader := { s.reader with pos := s.reader.pos + 1 }
    window := s.window.emit b
    block := { s.block with srem := s.block.srem - 1 } }

@[simp] theorem State.storedByte_reader (b : Byte) (s : State) :
    (s.storedByte b).reader = { s.reader with pos := s.reader.pos + 1 } := rfl
@[simp] theorem State.storedByte_window (b : Byte) (s : State) : (s.storedByte b).window = s.window.emit b := rfl
@[simp] theorem State.storedByte_block (b : Byte) (s : State) :
    (s.storedByte b).block = { s.block with srem := s.block.srem - 1 } := rfl
@[simp] theorem State.storedByte_seq (b : Byte) (s : State) : (s.storedByte b).seq = s.seq := rfl

/-- A step of a stored copy whose byte is offered. -/
theorem step_storedCopy {s : State} {b : Byte} {rest : List Byte} (hal : s.engineAlone) (hp : s.seq.phase = .storedCopy)
    (hc : s.reader.ccount = 0) (hr : s.block.srem ≠ 0) (hb : s.reader.bytesOffered = b :: rest) :
    step s = .next (s.storedByte b) := by
  have hx := Reader.readRawByte_offered hc hb
  have hf : s.awake.fetch = .move (s.awake.storedCopyStep.settle s.awake) := by
    rw [State.fetch_phase (s := s.awake) hal.2, State.fetchPhase, State.awake_seq, hp]
  rw [step_of_noTurn hal.1]
  simp only [State.engineStep, hf, State.storedCopyStep, State.awake_block, if_neg hr, State.awake_reader, hx]
  rfl

theorem core_run_succ {s t : State} (h : step s = .next t) (n : Nat) :
    Sys2Proof.core.run (n + 1) s = Sys2Proof.core.run n t := by
  have h' : Sys2Proof.core.step s = .next t := h
  refine (Host.Core.run.eq_2 Sys2Proof.core s n).trans ?_
  rw [h']

/-- A stored copy emits the bytes that are offered, one a step (42_deflate_block R159). -/
theorem run_storedCopy (bytes : List Byte) {s : State} {rest : List Byte} (hal : s.engineAlone)
    (hp : s.seq.phase = .storedCopy) (hc : s.reader.ccount = 0) (hb : s.reader.bytesOffered = bytes ++ rest)
    (hn : bytes.length ≤ s.block.srem.toNat) :
    ∃ t : State, Sys2Proof.core.run bytes.length s = .next t ∧ t.engineAlone ∧
      t.window = Claims.emitAll bytes s.window ∧
      t.reader = { s.reader with pos := s.reader.pos + bytes.length } ∧ t.reader.bytesOffered = rest ∧
      t.block = { s.block with srem := s.block.srem - BitVec.ofNat 16 bytes.length } ∧ t.seq = s.seq := by
  induction bytes generalizing s with
  | nil => exact ⟨s, rfl, hal, rfl, rfl, hb, by simp, rfl⟩
  | cons b bytes ih =>
    have hlt := s.block.srem.isLt
    rw [List.length_cons] at hn
    have hr : s.block.srem ≠ 0 := fun hz => by simp [hz] at hn
    have hsub : (s.block.srem - 1).toNat = s.block.srem.toNat - 1 := by
      rw [BitVec.toNat_sub]; simp; omega
    obtain ⟨-, -, hb'⟩ := Reader.bytesOffered_cons hb
    obtain ⟨t, ht, hta, htw, htr, hto, htb, hts⟩ := ih (s := s.storedByte b) hal hp hc hb' (by
      rw [State.storedByte_block, hsub]; omega)
    refine ⟨t, (core_run_succ (step_storedCopy hal hp hc hr hb) _).trans ht, hta, htw, ?_, hto, ?_, hts⟩
    · rw [htr, State.storedByte_reader, List.length_cons, Nat.add_comm bytes.length 1, ← Nat.add_assoc]
    · have hs : s.block.srem - 1 - BitVec.ofNat 16 bytes.length = s.block.srem - BitVec.ofNat 16 (bytes.length + 1) := by
        bv_omega
      rw [htb, State.storedByte_block, List.length_cons, ← hs]

/-! ## Bits offered -/

/-- A read of `m + n` bits that waits: in the first `m`, or after them. -/
theorem Reader.waits_split {o : BitOrder} {m n : Nat} {r : Reader} (h : r.waits o (m + n)) :
    r.waits o m ∨ (r.readable o m ∧ (r.advance o m).waits o n) := by
  by_cases hm : m ≤ (r.bitsOffered o).length
  · exact .inr ⟨⟨h.2.1, hm⟩, Reader.waits_advance h hm⟩
  · exact .inl ⟨h.1, h.2.1, by omega⟩

/-- Fewer than the header's three bits are offered (42_deflate_block R150). -/
theorem State.readHeader_waits {s : State} (h : s.reader.waits .lsb 3) : s.readHeader = .wait := by
  rw [State.readHeader]
  rcases Reader.waits_split (m := 1) (n := 2) h with h | ⟨hr, h⟩
  · rw [Reader.readBitsLsb_waits (by decide) h, State.withReader_wait, Res.bind_wait]
  · rw [Reader.readBitsLsb_readable (by decide) hr, State.withReader_ok, Res.bind_ok]
    dsimp only
    rw [Reader.readBitsLsb_waits (by decide) h, State.withReader_wait, Res.bind_wait]

/-- Fewer than the 14 bits of the three counts are offered (42_deflate_block R160). -/
theorem State.readCounts_waits {s : State} (h : s.reader.waits .lsb 14) : s.readCounts = .wait := by
  rw [State.readCounts]
  rcases Reader.waits_split (m := 5) (n := 9) h with h | ⟨hr, h⟩
  · rw [State.readExtra_waits (by decide) h, Res.bind_wait]
  · rw [State.readExtra_readable (by decide) hr, Res.bind_ok]
    rcases Reader.waits_split (m := 5) (n := 4) h with h | ⟨hr, h⟩
    · rw [State.readExtra_waits (by decide) h, Res.bind_wait]
    · rw [State.readExtra_readable (by decide) hr, Res.bind_ok, State.readExtra_waits (by decide) h, Res.bind_wait]

/-- The three counts, where their 14 bits can be read (42_deflate_block R160). -/
theorem State.readCounts_readable {s : State} (h : s.reader.readable .lsb 14) :
    s.readCounts = .ok () { s with
      reader := s.reader.advance .lsb 14
      block := { s.block with
        hlit := BitVec.ofNat 9 (257 + s.reader.field 5)
        hdist := BitVec.ofNat 6 (1 + (s.reader.advance .lsb 5).field 5)
        hclen := BitVec.ofNat 5 (4 + (s.reader.advance .lsb 10).field 4) } } := by
  have h1 : s.reader.readable .lsb 5 := ⟨h.1, by have := h.2; omega⟩
  have h9 : (s.reader.advance .lsb 5).readable .lsb 9 := Reader.readable_advance h
  have h2 : (s.reader.advance .lsb 5).readable .lsb 5 := ⟨h9.1, by have := h9.2; omega⟩
  have h3 : (s.reader.advance .lsb 10).readable .lsb 4 := Reader.readable_advance h
  rw [State.readCounts, State.readExtra_readable (by decide) h1, Res.bind_ok, State.readExtra_readable (by decide) h2,
    Res.bind_ok]
  simp only [Reader.advance_advance]
  rw [State.readExtra_readable (by decide) h3, Res.bind_ok]
  simp only [Reader.advance_advance]

/-- Fewer than the code-length fields' bits are offered (42_deflate_block R161). -/
theorem State.readClLens_waits {order : List (Fin 19)} {s : State} (h : s.reader.waits .lsb (3 * order.length)) :
    State.readClLens order s = .wait := by
  induction order generalizing s with
  | nil => exact absurd h.2.2 (by simp)
  | cons i rest ih =>
    rw [State.readClLens]
    rcases Reader.waits_split (m := 3) (n := 3 * rest.length) (by rwa [List.length_cons, Nat.mul_succ, Nat.add_comm] at h)
      with h | ⟨hr, h⟩
    · rw [Reader.readBitsLsb_waits (by decide) h, State.withReader_wait, Res.bind_wait]
    · rw [Reader.readBitsLsb_readable (by decide) hr, State.withReader_ok, Res.bind_ok]
      exact ih h

/-- A dynamic header not wholly offered (42_deflate_block R160, R161). -/
theorem execDynHdr_waits {s : State}
    (h : s.reader.waits .lsb (14 + 3 * (4 + lsbValue (((s.reader.bitsAhead .lsb).drop 10).take 4)))) :
    exec .dynHdr s = .next (Claims.parked s) := by
  show execDynHdr s = _
  rw [execDynHdr]
  rcases Reader.waits_split h with h | ⟨hr, h⟩
  · rw [State.readCounts_waits h]; rfl
  · have h10 : s.reader.readable .lsb 10 := ⟨hr.1, by have := hr.2; omega⟩
    have hfield : lsbValue (((s.reader.bitsAhead .lsb).drop 10).take 4) = (s.reader.advance .lsb 10).field 4 := by
      rw [Reader.field, Reader.bitsAhead_advance h10]
    have hlt := Reader.field_lt 4 (s.reader.advance .lsb 10)
    rw [hfield] at h
    rw [State.readCounts_readable hr, Res.bind_ok, State.readClArray, State.readClLens_waits]
    · rfl
    · have hlen : (clOrder.take (4 + (s.reader.advance .lsb 10).field 4)).length =
          4 + (s.reader.advance .lsb 10).field 4 := by
        rw [List.length_take, show clOrder.length = 19 from rfl]; omega
      have hmod : (4 + (s.reader.advance .lsb 10).field 4) % 2 ^ 5 = 4 + (s.reader.advance .lsb 10).field 4 :=
        Nat.mod_eq_of_lt (by omega)
      simp only [BitVec.toNat_ofNat, hmod, hlen]
      exact h

/-- A run token whose extra bits are not all offered (42_deflate_block R165 to R167). -/
theorem exec_runRows_waits {row : Instr × Nat × Nat} {s : State} (hrow : row ∈ Claims.runRows)
    (hli : row.1 = .clRep → s.block.li ≠ 0) (h : s.reader.waits .lsb row.2.2) :
    exec row.1 s = .next (Claims.parked s) := by
  simp only [Claims.runRows, List.mem_cons, List.not_mem_nil, or_false] at hrow
  rcases hrow with rfl | rfl | rfl
  · show execClRep s = _
    rw [execClRep, if_neg (hli rfl), State.readExtra_waits (by decide) h]; rfl
  · show execClZ3 s = _
    rw [execClZ3, State.readExtra_waits (by decide) h]; rfl
  · show execClZ11 s = _
    rw [execClZ11, State.readExtra_waits (by decide) h]; rfl

/-- A half of a match whose extra bits are not all offered (42_deflate_block R180, R182). -/
theorem exec_matchRows_waits {row : Instr × Nat × Nat} {s : State} (hrow : row ∈ Claims.lengthRows ++ Claims.distanceRows)
    (h : s.reader.waits .lsb row.2.2) : exec row.1 s = .next (Claims.parked s) := by
  rcases List.mem_append.1 hrow with hrow | hrow
  · rw [exec_lengthRows hrow, State.matchLength, State.readExtra_waits (lengthRows_range hrow).1 h]; rfl
  · rw [exec_distanceRows hrow, State.matchDistance, State.readExtra_waits (distanceRows_range hrow).1 h]; rfl

/-! ## A symbol decode -/

/-- What is offered after some of it was read. -/
theorem Reader.bitsOffered_advance {o : BitOrder} {n : Nat} {r : Reader} (h : r.readable o n) :
    (r.advance o n).bitsOffered o = (r.bitsOffered o).drop n := by
  obtain ⟨rest, hrest⟩ := Reader.bitsOffered_append o r
  obtain ⟨rest', hrest'⟩ := Reader.bitsOffered_append o (r.advance o n)
  have happ : (r.advance o n).bitsOffered o ++ rest' = (r.bitsOffered o).drop n ++ rest := by
    rw [← hrest', Reader.bitsAhead_advance h, hrest, List.drop_append_of_le_length h.2]
  exact List.append_inj_left happ (by rw [Reader.bitsOffered_length_advance h.2, List.length_drop])

/-- The fold of `longestCode` bounds the value it starts from and every length. -/
theorem foldl_max_len_ge (t : Table) (m : Nat) :
    m ≤ t.foldl (fun m e => max m e.len) m ∧ ∀ e ∈ t, e.len ≤ t.foldl (fun m e => max m e.len) m := by
  induction t generalizing m with
  | nil => simp
  | cons d t ih =>
    obtain ⟨h1, h2⟩ := ih (max m d.len)
    exact ⟨(le_max_left _ _).trans h1, List.forall_mem_cons.2 ⟨(le_max_right _ _).trans h1, h2⟩⟩

theorem le_longestCode {t : Table} {e : Entry} (he : e ∈ t) : e.len ≤ longestCode t := (foldl_max_len_ge t 0).2 e he

theorem msbValue_concat (c : List Bool) (b : Bool) : msbValue (c ++ [b]) = 2 * msbValue c + b.toNat := by
  simp [msbValue]

/-- A decode that stays inside the trie on every bit offered waits for the next (41_huffman R136). -/
theorem Reader.decodeLoop_waits {t : Table} {fuel : Nat} {c : List Bool} {r : Reader} (ha : ¬ r.answered)
    (ho : r.orderFits .lsb) (hf : longestCode t < fuel + c.length)
    (hi : ∀ j, j ≤ (r.bitsOffered .lsb).length → Claims.innerNode t (c ++ (r.bitsOffered .lsb).take j)) :
    r.decodeLoop t fuel (msbValue c) c.length = .wait := by
  have hc : Claims.innerNode t c := by simpa using hi 0 (Nat.zero_le _)
  induction fuel generalizing c r with
  | zero =>
    obtain ⟨-, e, he, hlen, -⟩ := hc
    have := le_longestCode he
    omega
  | succ fuel ih =>
    rw [Reader.decodeLoop_innerNode hc]
    cases hb : r.bitsOffered .lsb with
    | nil => rw [Reader.takeBit_waits ⟨ha, ho, by simp [hb]⟩, Res.bind_wait]
    | cons b rest =>
      have hr : r.readable .lsb 1 := ⟨ho, by simp [hb]⟩
      obtain ⟨more, hmore⟩ := Reader.bitsOffered_append .lsb r
      rw [hb, List.cons_append] at hmore
      have hrest : (r.advance .lsb 1).bitsOffered .lsb = rest := by rw [Reader.bitsOffered_advance hr, hb]; rfl
      have inner : ∀ j, j ≤ rest.length → Claims.innerNode t ((c ++ [b]) ++ rest.take j) := by
        intro j hj
        have := hi (j + 1) (by rw [hb, List.length_cons]; omega)
        rwa [hb, List.take_succ_cons, List.append_cons] at this
      rw [(Reader.takeBit_readable hr hmore).1, Res.bind_ok, ← msbValue_concat,
        show c.length + 1 = (c ++ [b]).length by simp]
      refine ih (by simpa [Reader.answered] using ha) (Reader.advance_orderFits 1 ho) ?_ ?_ ?_
      · rw [List.length_append, List.length_singleton]; omega
      · rw [hrest]; exact inner
      · simpa using inner 0 (Nat.zero_le _)

theorem exec_decodeSymbol_waits {sel : TableSel} {t : Table} {s : State} (ht : s.block.table sel = some t)
    (ha : ¬ s.reader.answered) (ho : s.reader.orderFits .lsb)
    (hi : ∀ j, j ≤ (s.reader.bitsOffered .lsb).length → Claims.innerNode t ((s.reader.bitsOffered .lsb).take j)) :
    exec (.decodeSymbol sel) s = .next (Claims.parked s) := by
  have hd : s.reader.decodeSymbol t = .wait :=
    Reader.decodeLoop_waits (c := []) ha ho (by simp) (by simpa using hi)
  show execDecodeSymbol sel s = _
  simp only [execDecodeSymbol, State.decodeInto, ht, hd]
  rfl

/-! ## The engine's reads -/

/-- Settles O36: read by read, each waits where a FetchByte it reaches is not answered. -/
theorem unansweredTokensWait : Obligations.UnansweredTokensWait := by
  intro s
  refine ⟨?_, ?_, execStoredHdr_waits, ?_, execDynHdr_waits, fun _ => exec_runRows_waits, fun _ => exec_matchRows_waits,
    fun _ _ => exec_decodeSymbol_waits⟩
  · intro hal hp ha hl
    refine (step_of_noTurn hal.1).trans (State.engineStep_parked_of_move ?_)
    rw [State.fetch_phase (s := s.awake) hal.2, State.fetchPhase, State.awake_seq, hp]
    exact State.fetchSignature_wait (s := s.awake) (Reader.readSignature_waits ha hl)
  · intro hal hp h
    refine (step_of_noTurn hal.1).trans (State.engineStep_parked_of_move ?_)
    rw [State.fetch_phase (s := s.awake) hal.2, State.fetchPhase, State.awake_seq, hp]
    exact State.fetchHeader_wait (s := s.awake) (State.readHeader_waits h)
  · intro hal hp hc ha hl
    obtain ⟨t, ht, hta, htw, htr, hto, htb, hts⟩ :=
      run_storedCopy s.reader.bytesOffered (rest := []) hal hp hc (by simp) hl.le
    refine ⟨t, ht, htw, by rw [htw, emitAll_out], htr, htb, hts, ?_⟩
    have hu : Claims.unanswered t.reader := Reader.unanswered_of_nil (by rw [htr]; exact ha) hto
    refine (step_of_noTurn hta.1).trans (State.engineStep_unanswered hu ?_)
    simp only [Claims.needsByte, hta.2, hts, hp]
    refine ⟨by rw [htr]; exact hc, ?_⟩
    rw [htb]
    have hlt := s.block.srem.isLt
    bv_omega

end Sys2Proof.Machine
end

section
/-! PROOFS. The decoder and the encoder of 30_encoding are inverse to each other, and the reader command words with no
instruction are the ones R96 lists. -/

namespace Sys2Proof.Machine

/-! ## From the instruction to its bits and back -/

/-- An instruction has one value, so it decodes back where that value does. -/
theorem decodesBack_of_encode {i : Instr} {f : Format} {v : Nat} (he : encode i = some (f, v)) (hd : decode f v = .ok i) :
    ∀ f' v', encode i = some (f', v') → decode f' v' = .ok i := by
  intro f' v' h
  cases he.symm.trans h
  exact hd

/-- The symbol of a code-length literal is its length (30_encoding R87). -/
theorem decode_clLit (l : BitVec 4) : decode .clSymbol l.toNat = .ok (.clLit l) := by
  rw [decode, decodeClSymbol, if_pos l.isLt, BitVec.ofNat_toNat, BitVec.setWidth_eq]

/-- The symbol of a literal is its byte (30_encoding R88). -/
theorem decode_lit (b : Byte) : decode .llSymbol b.toNat = .ok (.lit b) := by
  rw [decode, decodeLlSymbol, if_pos b.isLt, BitVec.ofNat_toNat, BitVec.setWidth_eq]

theorem decode_readBitsLsb_toNat {n : BitVec 5} (h : n.toNat ≤ 16) :
    decode .readerCmd (0x1000 + n.toNat) = .ok (.readBitsLsb n) := by
  rw [decode_readBitsLsb h, BitVec.ofNat_toNat, BitVec.setWidth_eq]

theorem decode_readBitsMsb_toNat {n : BitVec 5} (h : n.toNat ≤ 16) :
    decode .readerCmd (0x1100 + n.toNat) = .ok (.readBitsMsb n) := by
  rw [decode_readBitsMsb h, BitVec.ofNat_toNat, BitVec.setWidth_eq]

/-- The decoder undoes the encoder on every well-formed instruction; one with no operand, or only a flag, by evaluating its
words. -/
theorem decode_encode {i : Instr} (hwf : i.wellFormed = true) : ∀ f v, encode i = some (f, v) → decode f v = .ok i := by
  cases i with
  | btypeStored f | btypeFixed f | btypeDynamic f | btypeReserved f => cases f <;> exact decodesBack_of_encode rfl rfl
  | clLit l => exact decodesBack_of_encode rfl (decode_clLit l)
  | lit b => exact decodesBack_of_encode rfl (decode_lit b)
  | llReserved odd | dReserved odd => cases odd <;> exact decodesBack_of_encode rfl rfl
  | readBitsLsb n => exact decodesBack_of_encode rfl (decode_readBitsLsb_toNat (of_decide_eq_true hwf))
  | readBitsMsb n => exact decodesBack_of_encode rfl (decode_readBitsMsb_toNat (of_decide_eq_true hwf))
  | buildTable | decodeSymbol => exact fun _ _ h => nomatch h
  | _ => exact decodesBack_of_encode rfl rfl

/-- Only BUILD and DECODE have no bits. -/
theorem encode_isSome_or_internal (i : Instr) :
    (encode i).isSome = true ∨ (∃ t lens, i = .buildTable t lens) ∨ ∃ t, i = .decodeSymbol t := by
  cases i with
  | buildTable t lens => exact .inr (.inl ⟨t, lens, rfl⟩)
  | decodeSymbol t => exact .inr (.inr ⟨t, rfl⟩)
  | _ => exact .inl rfl

/-- Settles O1: `decode_encode` by the instruction, and BUILD and DECODE are the two without bits. -/
theorem encodedWordDecodesBack : Obligations.EncodedWordDecodesBack :=
  fun i hwf => ⟨decode_encode hwf, encode_isSome_or_internal i⟩

/-! ## From the bits to the instruction and back -/

/-- A well-formed instruction with this value in this format. -/
def EncodesTo (i : Instr) (f : Format) (v : Nat) : Prop := i.wellFormed = true ∧ encode i = some (f, v)

theorem EncodesTo.of_eq {i : Instr} {f : Format} {u v : Nat} (h : EncodesTo i f u) (huv : u = v) : EncodesTo i f v :=
  huv ▸ h

/-- BTYPE above BFINAL is the block header (30_encoding R82). -/
theorem blkHdr_fields {v k : Nat} (hk : v / 2 = k) : 2 * k + (v % 2 == 1).toNat = v := by
  have hbit : (v % 2 == 1).toNat = v % 2 := by
    rcases Nat.mod_two_eq_zero_or_one v with h | h <;> rw [h] <;> rfl
  rw [hbit, ← hk, Nat.div_add_mod]

theorem decodeBlkHdr_encodesTo {v : Nat} {i : Instr} (h : decodeBlkHdr v = .ok i) : EncodesTo i .blkHdr v := by
  rw [decodeBlkHdr] at h
  split at h
  · cases h
  split at h <;> cases h
  next h0 => exact .of_eq ⟨rfl, rfl⟩ (blkHdr_fields h0)
  next h1 => exact .of_eq ⟨rfl, rfl⟩ (blkHdr_fields h1)
  next h2 => exact .of_eq ⟨rfl, rfl⟩ (blkHdr_fields h2)
  next n0 n1 n2 =>
    rw [imp_false] at n0 n1 n2
    exact .of_eq ⟨rfl, rfl⟩ (blkHdr_fields (show v / 2 = 3 by omega))

theorem toNat_ofNat_of_lt {k v : Nat} (h : v < 2 ^ k) : (BitVec.ofNat k v).toNat = v := by
  rw [BitVec.toNat_ofNat, Nat.mod_eq_of_lt h]

theorem decodeClSymbol_encodesTo {v : Nat} {i : Instr} (h : decodeClSymbol v = .ok i) : EncodesTo i .clSymbol v := by
  rw [decodeClSymbol] at h
  split_ifs at h with hl h16 h17 h18 <;> cases h
  · exact .of_eq ⟨rfl, rfl⟩ (toNat_ofNat_of_lt hl)
  · exact .of_eq ⟨rfl, rfl⟩ h16.symm
  · exact .of_eq ⟨rfl, rfl⟩ h17.symm
  · exact .of_eq ⟨rfl, rfl⟩ h18.symm

/-- The length tokens stand at their symbols (30_encoding R88). -/
theorem lengthToken_encodesTo : ∀ j : Fin lengthTokens.length, EncodesTo lengthTokens[j] .llSymbol (257 + j.val) := by
  unfold EncodesTo
  decide

/-- The distance tokens stand at their symbols (30_encoding R89). -/
theorem distanceToken_encodesTo : ∀ j : Fin distanceTokens.length, EncodesTo distanceTokens[j] .dSymbol j.val := by
  unfold EncodesTo
  decide

theorem decodeLlSymbol_encodesTo {v : Nat} {i : Instr} (h : decodeLlSymbol v = .ok i) : EncodesTo i .llSymbol v := by
  rw [decodeLlSymbol] at h
  split at h
  next hb =>
    cases h
    exact .of_eq ⟨rfl, rfl⟩ (toNat_ofNat_of_lt hb)
  split at h
  next heob =>
    cases h
    exact .of_eq ⟨rfl, rfl⟩ heob.symm
  split at h
  next hv =>
    cases h
    obtain ⟨hj, rfl⟩ := List.getElem?_eq_some_iff.1 hv
    exact .of_eq (lengthToken_encodesTo ⟨v - 257, hj⟩) (show 257 + (v - 257) = v by omega)
  next hv =>
    have hlong : 29 ≤ v - 257 := List.getElem?_eq_none_iff.1 hv
    split at h <;> cases h
    obtain rfl | rfl : v = 286 ∨ v = 287 := by omega
    · exact ⟨rfl, rfl⟩
    · exact ⟨rfl, rfl⟩

theorem decodeDSymbol_encodesTo {v : Nat} {i : Instr} (h : decodeDSymbol v = .ok i) : EncodesTo i .dSymbol v := by
  rw [decodeDSymbol] at h
  split at h
  next hv =>
    cases h
    obtain ⟨hj, rfl⟩ := List.getElem?_eq_some_iff.1 hv
    exact distanceToken_encodesTo ⟨v, hj⟩
  next hv =>
    have hlong : 30 ≤ v := List.getElem?_eq_none_iff.1 hv
    split at h <;> cases h
    obtain rfl | rfl : v = 30 ∨ v = 31 := by omega
    · exact ⟨rfl, rfl⟩
    · exact ⟨rfl, rfl⟩

/-- OP, ORD and N are the command word where every other bit is 0 (30_encoding R95). -/
theorem readerCmd_fields {w op ord n : Nat} (hzero : ¬ (w / 512 % 8 ≠ 0 ∨ w / 32 % 8 ≠ 0)) (hop : w / 4096 = op)
    (hord : w / 256 % 2 = ord) (hn : w % 32 = n) : 4096 * op + 256 * ord + n = w := by
  omega

theorem decodeReaderCmd_encodesTo {w : Nat} {i : Instr} (h : decodeReaderCmd w = .ok i) : EncodesTo i .readerCmd w := by
  have hn : w % 32 = (BitVec.ofNat 5 (w % 32)).toNat := (toNat_ofNat_of_lt (show w % 32 < 2 ^ 5 by omega)).symm
  simp only [decodeReaderCmd] at h
  split_ifs at h with hzero h0 hord h1 hord h2 h3 <;> cases h
  · exact .of_eq ⟨rfl, rfl⟩ (readerCmd_fields hzero h0.1 hord h0.2)
  · exact .of_eq ⟨rfl, rfl⟩ (readerCmd_fields hzero h0.1 (Nat.mod_two_ne_zero.1 hord) h0.2)
  · exact .of_eq ⟨decide_eq_true (hn ▸ h1.2), rfl⟩ (readerCmd_fields hzero h1.1 hord hn)
  · exact .of_eq ⟨decide_eq_true (hn ▸ h1.2), rfl⟩ (readerCmd_fields hzero h1.1 (Nat.mod_two_ne_zero.1 hord) hn)
  · exact .of_eq ⟨rfl, rfl⟩ (readerCmd_fields hzero h2.1 h2.2.1 h2.2.2)
  · exact .of_eq ⟨rfl, rfl⟩ (readerCmd_fields hzero h3.1 h3.2.1 h3.2.2)

theorem decode_encodesTo {f : Format} {v : Nat} {i : Instr} (h : decode f v = .ok i) : EncodesTo i f v := by
  cases f with
  | sig | stored | dynHdr =>
    simp only [decode] at h
    split at h <;> cases h
    next hv => exact .of_eq ⟨rfl, rfl⟩ hv.symm
  | blkHdr => exact decodeBlkHdr_encodesTo h
  | clSymbol => exact decodeClSymbol_encodesTo h
  | llSymbol => exact decodeLlSymbol_encodesTo h
  | dSymbol => exact decodeDSymbol_encodesTo h
  | readerCmd => exact decodeReaderCmd_encodesTo h
  | internal => cases h

/-- Settles O2, format by format. -/
theorem decodedWordEncodesBack : Obligations.DecodedWordEncodesBack := fun _ _ _ => decode_encodesTo

/-! ## The reserved reader commands -/

/-- The command words R96 reserves. -/
def reservedCommand (w : Nat) : Prop :=
  4 ≤ w / 4096 ∨ (w / 4096 = 1 ∧ 17 ≤ w % 32) ∨ (w / 4096 ≠ 1 ∧ w % 32 ≠ 0) ∨
    (w / 256 % 2 = 1 ∧ (w / 4096 = 2 ∨ w / 4096 = 3)) ∨ w / 512 % 8 ≠ 0 ∨ w / 32 % 8 ≠ 0

theorem decode_readerCmd_reserved_iff (w : Nat) :
    decode .readerCmd w = .error .reservedReaderCommand ↔ reservedCommand w := by
  simp only [decode, decodeReaderCmd, reservedCommand]
  split
  next hzero => exact iff_of_true rfl (by omega)
  split
  next h0 => exact iff_of_false nofun (by omega)
  split
  next h1 => exact iff_of_false nofun (by omega)
  split
  next h2 => exact iff_of_false nofun (by omega)
  split
  next h3 => exact iff_of_false nofun (by omega)
  next => exact iff_of_true rfl (by omega)

theorem Reader.readBitsLsb_tooMany {n : Nat} (h : 16 < n) (r : Reader) : r.readBitsLsb n = .raise .badReaderCommand r :=
  if_pos h

theorem Reader.readBitsMsb_tooMany {n : Nat} (h : 16 < n) (r : Reader) : r.readBitsMsb n = .raise .badReaderCommand r :=
  if_pos h

/-- A command whose reader operation raises completes with the error where the raise left the reader (60_exceptions R227). -/
theorem settleCommand_raised {x : Res Reader Half} {e : ErrKind} {r : Reader} (h : x = .raise e r) (s : State) :
    (s.withReader x).settleCommand s = .next (Claims.finish s r (.error e)) := by
  rw [h]; rfl

theorem State.fetch_badCommand {s : State} {w : Half} {e : DecodeError} (hc : s.port.cmd = some w)
    (hw : decode .readerCmd w.toNat = .error e) :
    s.fetch = .move (.next (Claims.finish s s.reader (.error .badReaderCommand))) := by
  simp only [State.fetch, hc, State.fetchCommand, hw]
  rfl

theorem State.engineStep_badCommand {s : State} {w : Half} {e : DecodeError} (hc : s.port.cmd = some w)
    (hw : decode .readerCmd w.toNat = .error e) :
    s.engineStep = .next (Claims.finish s.awake s.reader (.error .badReaderCommand)) := by
  rw [State.engineStep, State.fetch_badCommand (s := s.awake) hc hw]
  rfl

/-- Settles O4: a read refuses n > 16 before any bit, and the words the decoder refuses are R96's list. -/
theorem reservedReaderCommands : Obligations.ReservedReaderCommands := by
  refine ⟨fun s n hn => ⟨?_, ?_⟩, fun w => ?_⟩
  · exact settleCommand_raised (Reader.readBitsLsb_tooMany hn s.reader) s
  · exact settleCommand_raised (Reader.readBitsMsb_tooMany hn s.reader) s
  · have hlisted := decode_readerCmd_reserved_iff w.toNat
    exact ⟨hlisted.symm, fun h s ht hc =>
      (step_of_noTurn ht).trans (State.engineStep_badCommand hc (hlisted.2 h))⟩

/-- Settles O3: one evaluation of the decoder for each word. -/
theorem specWordsDecode : Obligations.SpecWordsDecode := by
  unfold Obligations.SpecWordsDecode
  decide

end Sys2Proof.Machine
end

section
/-! PROOFS. The reader commands (40_bitreader R111 to R118): what each one's read of the reader delivers or raises, and the frame
all six share. -/

namespace Sys2Proof.Machine

/-! ## A command's read -/

/-- A command whose reader operation answers completes with the value and the reader it left (30_encoding R95). -/
theorem settleCommand_answered {x : Res Reader Half} {v : Half} {r : Reader} (h : x = .ok v r) (s : State) :
    (s.withReader x).settleCommand s = .next (Claims.finish s r (.value v)) := by
  rw [h]; rfl

/-! ## One bit -/

theorem bitValue_eq_bitResult (b : Bool) : bitValue b = Claims.bitResult b := by cases b <;> rfl

/-- FetchByte of an answered byte of INPUT (20_memory R60). -/
theorem Reader.fetchByte_answered {r : Reader} {b : Byte} (hg : r.pos < r.granted)
    (hb : (r.input.getD [])[r.pos]? = some b) : r.fetchByte = .ok (some b) { r with pos := r.pos + 1 } := by
  cases hi : r.input with
  | none => simp [hi] at hb
  | some bytes => exact (Reader.fetchByte_some hi hg (by simpa [hi] using hb)).trans (by rw [hi])

/-- TakeBit opens the next byte where the carry is empty (40_bitreader R111). -/
theorem Reader.takeBit_opens {r : Reader} {b : Byte} (o : BitOrder) (hc : r.ccount = 0) (hg : r.pos < r.granted)
    (hb : (r.input.getD [])[r.pos]? = some b) :
    r.takeBit o = .ok (bitOf o b 8) { r with pos := r.pos + 1, curByte := b, corder := o, ccount := 7 } := by
  rw [Reader.takeBit, if_pos hc, Reader.fetchByte_answered hg hb, Res.bind_ok]

/-- TakeBit of a carry in its own order (40_bitreader R111). -/
theorem Reader.takeBit_carry {o : BitOrder} {r : Reader} (hc : r.ccount ≠ 0) (ho : r.corder = o) :
    r.takeBit o = .ok (bitOf o r.curByte r.ccount.toNat) { r with ccount := r.ccount - 1 } := by
  rw [Reader.takeBit, if_neg hc, if_neg (not_not_intro ho)]

/-- Nothing is ahead of an empty carry at the answered end of INPUT. -/
theorem Reader.short_of_end {o : BitOrder} {r : Reader} (hc : r.ccount = 0) (ha : r.answered)
    (hp : r.pos = (r.input.getD []).length) : r.short o 1 :=
  ⟨ha, .inl hc, hp.le, by rw [Reader.bitsAhead_length, hc, hp]; simp⟩

theorem Reader.readBit_answered {o : BitOrder} {r r' : Reader} {b : Bool} (h : r.takeBit o = .ok b r') :
    r.readBit o = .ok (Claims.bitResult b) r' := by
  rw [Reader.readBit, h, Res.bind_ok, bitValue_eq_bitResult]

theorem Reader.readBit_raised {o : BitOrder} {r r' : Reader} {e : ErrKind} (h : r.takeBit o = .raise e r') :
    r.readBit o = .raise e r' := by
  rw [Reader.readBit, h, Res.bind_raise]

/-- A carry of the other order does not fit. -/
theorem Reader.not_orderFits {o o' : BitOrder} {r : Reader} (hc : r.ccount ≠ 0) (ho : r.corder = o') (hne : o' ≠ o) :
    ¬ r.orderFits o :=
  not_or.2 ⟨hc, fun h => hne (ho.symm.trans h)⟩

/-- The four cases of TakeBit as the end of a command that reads one bit in order `o` (40_bitreader R111 to R113). -/
theorem settleCommand_readBit {o o' : BitOrder} (hne : o' ≠ o) (s : State) :
    (s.reader.ccount = 0 → s.reader.pos < s.reader.granted → ∀ b, (s.reader.input.getD [])[s.reader.pos]? = some b →
      (s.withReader (s.reader.readBit o)).settleCommand s = .next (Claims.finish s
        { s.reader with pos := s.reader.pos + 1, curByte := b, corder := o, ccount := 7 }
        (.value (Claims.bitResult (bitOf o b 8))))) ∧
    (s.reader.ccount = 0 → s.reader.answered → s.reader.pos = (s.reader.input.getD []).length →
      (s.withReader (s.reader.readBit o)).settleCommand s =
        .next (Claims.finish s s.reader (.error .unexpectedEndOfInput))) ∧
    (s.reader.ccount ≠ 0 → s.reader.corder = o →
      (s.withReader (s.reader.readBit o)).settleCommand s = .next (Claims.finish s
        { s.reader with ccount := s.reader.ccount - 1 }
        (.value (Claims.bitResult (bitOf o s.reader.curByte s.reader.ccount.toNat))))) ∧
    (s.reader.ccount ≠ 0 → s.reader.corder = o' →
      (s.withReader (s.reader.readBit o)).settleCommand s = .next (Claims.finish s s.reader (.error .bitOrderMix))) := by
  refine ⟨fun hc hg b hb => ?_, fun hc ha hp => ?_, fun hc ho => ?_, fun hc ho => ?_⟩
  · exact settleCommand_answered (Reader.readBit_answered (Reader.takeBit_opens o hc hg hb)) s
  · exact settleCommand_raised (Reader.readBit_raised (Reader.takeBit_short (Reader.short_of_end hc ha hp))) s
  · exact settleCommand_answered (Reader.readBit_answered (Reader.takeBit_carry hc ho)) s
  · exact settleCommand_raised (Reader.readBit_raised (Reader.takeBit_mix (Reader.not_orderFits hc ho hne))) s

/-- Settles O5: READ_BIT_LSB is that command LSB-first, and a fresh byte's first bit is bit 8 - 8. -/
theorem readBitLsb : Obligations.ReadBitLsb := fun s => settleCommand_readBit (o := .lsb) (by decide) s

/-- Settles O6: READ_BIT_MSB is that command MSB-first, and a fresh byte's first bit is bit 8 - 1. -/
theorem readBitMsb : Obligations.ReadBitMsb := fun s => settleCommand_readBit (o := .msb) (by decide) s

/-! ## Several bits -/

/-- A field of at least one bit meets the carry's order at its first (40_bitreader R114). -/
theorem Reader.readBitsLsb_mix {n : Nat} {r : Reader} (h1 : 1 ≤ n) (h16 : n ≤ 16) (h : ¬ r.orderFits .lsb) :
    r.readBitsLsb n = .raise .bitOrderMix r := by
  obtain ⟨k, rfl⟩ := Nat.exists_eq_add_of_le' h1
  rw [Reader.readBitsLsb, if_neg (by omega), Reader.takeBitsLsb, Reader.takeBit_mix h, Res.bind_raise]

/-- A field of at least one bit meets the carry's order at its first (40_bitreader R115). -/
theorem Reader.readBitsMsb_mix {n : Nat} {r : Reader} (h1 : 1 ≤ n) (h16 : n ≤ 16) (h : ¬ r.orderFits .msb) :
    r.readBitsMsb n = .raise .bitOrderMix r := by
  obtain ⟨k, rfl⟩ := Nat.exists_eq_add_of_le' h1
  rw [Reader.readBitsMsb, if_neg (by omega), Reader.takeBitsMsb, Reader.takeBit_mix h, Res.bind_raise]

theorem one_le_toNat_of_ne_zero {w : Nat} {n : BitVec w} (h : n ≠ 0) : 1 ≤ n.toNat :=
  Nat.one_le_iff_ne_zero.2 fun hz => h (BitVec.eq_of_toNat_eq (by simpa using hz))

/-- Settles O7: the loop of ReadBitsLSB where its bits can be read, where it has none, where the input ends inside it, at a carry
of the other order, and where it is not begun. -/
theorem readBitsLsb : Obligations.ReadBitsLsb := by
  refine fun s n => ⟨fun hn h => ?_, ?_, fun hn h => ?_, fun h0 hn h => ?_, fun hn => ?_⟩
  · exact settleCommand_answered (Reader.readBitsLsb_readable hn h) s
  · rintro rfl; rfl
  · exact settleCommand_raised (Reader.readBitsLsb_short hn h) s
  · exact settleCommand_raised (Reader.readBitsLsb_mix (one_le_toNat_of_ne_zero h0) hn h) s
  · exact settleCommand_raised (Reader.readBitsLsb_tooMany hn s.reader) s

/-- Settles O8: the same five cases of ReadBitsMSB. -/
theorem readBitsMsb : Obligations.ReadBitsMsb := by
  refine fun s n => ⟨fun hn h => ?_, ?_, fun hn h => ?_, fun h0 hn h => ?_, fun hn => ?_⟩
  · exact settleCommand_answered (Reader.readBitsMsb_readable hn h) s
  · rintro rfl; rfl
  · exact settleCommand_raised (Reader.readBitsMsb_short hn h) s
  · exact settleCommand_raised (Reader.readBitsMsb_mix (one_le_toNat_of_ne_zero h0) hn h) s
  · exact settleCommand_raised (Reader.readBitsMsb_tooMany hn s.reader) s

/-! ## A raw byte and the discarded carry -/

/-- ReadRawByte with bits in the carry (40_bitreader R116). -/
theorem Reader.readRawByte_misaligned {r : Reader} (h : r.ccount ≠ 0) : r.readRawByte = .raise .misalignedRawRead r :=
  if_pos h

/-- Settles O9: ReadRawByte's three outcomes, the byte zero-extended. -/
theorem readRawByte : Obligations.ReadRawByte := by
  refine fun s => ⟨fun hc => ?_, fun hc hg b hb => ?_, fun hc ha hp => ?_⟩
  · exact settleCommand_raised (by rw [Reader.readRawByte_misaligned hc, Res.bind_raise]) s
  · exact settleCommand_answered (by rw [Reader.readRawByte_some hg hc hb, Res.bind_ok]) s
  · exact settleCommand_raised (by rw [Reader.readRawByte_end ha hc hp, Res.bind_raise]) s

/-- Settles O11: AlignToByte always answers. -/
theorem alignDiscardsTheCarry : Obligations.AlignDiscardsTheCarry := fun s => settleCommand_answered rfl s

/-! ## The frame of the six commands -/

/-- The six reader commands (40_bitreader R112 to R118). -/
def isReaderCommand (i : Instr) : Prop :=
  i = .readBitLsb ∨ i = .readBitMsb ∨ (∃ n, i = .readBitsLsb n) ∨ (∃ n, i = .readBitsMsb n) ∨ i = .readRawByte ∨ i = .align

theorem decode_readerCmd {w : Nat} {i : Instr} (h : decode .readerCmd w = .ok i) : isReaderCommand i := by
  simp only [decode, decodeReaderCmd] at h
  split_ifs at h <;> cases h <;> simp [isReaderCommand]

/-- A reader command is a settled operation of the reader, which raises UnexpectedEndOfInput only with the reader spent. -/
theorem exec_readerCommand {i : Instr} (h : isReaderCommand i) (s : State) :
    ∃ x : Res Reader Half, s.reader.Reads x ∧ x.EndsSpent ∧ exec i s = (s.withReader x).settleCommand s := by
  rcases h with rfl | rfl | ⟨n, rfl⟩ | ⟨n, rfl⟩ | rfl | rfl
  · exact ⟨_, s.reader.readBit_reads .lsb, (s.reader.takeBit_endsSpent .lsb).bind fun _ _ => trivial, rfl⟩
  · exact ⟨_, s.reader.readBit_reads .msb, (s.reader.takeBit_endsSpent .msb).bind fun _ _ => trivial, rfl⟩
  · exact ⟨_, s.reader.readBitsLsb_reads _, s.reader.readBitsLsb_endsSpent _, rfl⟩
  · exact ⟨_, s.reader.readBitsMsb_reads _, s.reader.readBitsMsb_endsSpent _, rfl⟩
  · exact ⟨_, s.reader.readRawByte_reads.bind fun _ r => r.reads_ok _,
      s.reader.readRawByte_endsSpent.bind fun _ _ => trivial, rfl⟩
  · exact ⟨_, s.reader.alignToByte_reads 0, trivial, rfl⟩

/-- How a settled reader command ends: complete, with the reader moved on, or waiting; a completion with UnexpectedEndOfInput
leaves the reader spent (40_bitreader R120). -/
theorem settleCommand_cases {s t : State} {x : Res Reader Half} (hx : s.reader.Reads x) (hs : x.EndsSpent)
    (h : (s.withReader x).settleCommand s = .next t) :
    (∃ r c, t = Claims.finish s r c ∧ s.reader.Later r ∧ (c = .error .unexpectedEndOfInput → r.Spent)) ∨ t = s.wait := by
  cases x with
  | ok v r => cases h; exact .inl ⟨r, _, rfl, hx, nofun⟩
  | raise e r =>
    cases h
    refine .inl ⟨r, _, rfl, hx, fun hc => ?_⟩
    cases hc
    exact hs rfl
  | wait => cases h; exact .inr rfl
  | fault f => cases h

/-- Settles O12: a command completes with the reader moved on or waits, and no other part of the state is in either. -/
theorem readerCommandsFrame : Obligations.ReaderCommandsFrame := by
  intro i s t hi ht
  obtain ⟨x, hx, hs, he⟩ := exec_readerCommand hi s
  obtain ⟨r, c, rfl, ⟨hin, hgr, hpos, hbits, -⟩, -⟩ | rfl := settleCommand_cases hx hs (he ▸ ht)
  · exact ⟨hin, hgr, hpos, hbits, rfl, rfl, rfl, rfl, rfl, rfl, rfl⟩
  · exact ⟨rfl, rfl, le_rfl, le_rfl, rfl, rfl, rfl, rfl, rfl, rfl, rfl⟩

end Sys2Proof.Machine
end

section
/-! PROOFS. What one step of the engine may change, with no premise: the stream goes on, OUT grows, ERRCODE changes on error entry
alone (20_memory R61, R65; 60_exceptions R222), and UnexpectedEndOfInput finds the reader spent (40_bitreader R120). -/

namespace Sys2Proof.Machine

/-! ## States inside a token and at its end -/

/-- `t` is `s` inside a token: the reader moved on, the block decoder's registers and the port's marks perhaps written. -/
structure State.Quiet (s t : State) : Prop where
  later : s.reader.Later t.reader
  window : t.window = s.window
  seq : t.seq = s.seq
  bound : t.port.bound = s.port.bound

theorem State.Quiet.trans {a b c : State} (h : a.Quiet b) (h' : b.Quiet c) : a.Quiet c :=
  ⟨h.later.trans h'.later, h'.window.trans h.window, h'.seq.trans h.seq, h'.bound.trans h.bound⟩

/-- The reader is not touched. -/
theorem State.Quiet.of_same {s t : State} (hr : t.reader = s.reader) (hw : t.window = s.window) (hs : t.seq = s.seq)
    (hb : t.port.bound = s.port.bound) : s.Quiet t :=
  ⟨hr ▸ Reader.Later.refl _, hw, hs, hb⟩

/-- Registers of the block decoder written. -/
theorem State.quiet_block (s : State) (b : Block) : s.Quiet { s with block := b } := .of_same rfl rfl rfl rfl

theorem State.Quiet.refl (s : State) : s.Quiet s := .of_same rfl rfl rfl rfl

theorem State.After.quiet {s t : State} (h : s.After t) : s.Quiet t := ⟨h.later, h.window, h.seq, by rw [h.port]⟩

/-- `t` is `s` after error entry: the output and the sequencer's other latches are as they were, and the input is used up where
the error says so (60_exceptions R222, 40_bitreader R120). -/
structure State.EntersError (s t : State) : Prop where
  phase : t.seq.phase = .error
  window : t.window = s.window
  frames : t.seq.frames = s.seq.frames
  nlenMismatch : t.seq.nlenMismatch = s.seq.nlenMismatch
  spent : t.seq.err = some .unexpectedEndOfInput → t.reader.Spent

/-- `t` is where one step of the engine may lead from `s`. -/
structure State.Forward (s t : State) : Prop where
  later : s.reader.Later t.reader
  bound : t.port.bound = s.port.bound
  out : t.window.out = s.window.out ∨ ∃ b, t.window = s.window.emit b
  frames : t.seq.frames = s.seq.frames ∨ t.seq.frames = s.seq.frames + 1
  nlenMismatch : s.seq.nlenMismatch = true → t.seq.nlenMismatch = true
  cfgStrict : t.seq.cfgStrict = s.seq.cfgStrict
  strict : t.seq.strict = s.seq.strict
  err : t.seq.err = s.seq.err ∨ s.EntersError t

/-- A step goes on from a state inside its token. -/
theorem State.Quiet.trans_forward {s u t : State} (h : s.Quiet u) (h' : u.Forward t) : s.Forward t := by
  obtain ⟨hl, hw, hs, hb⟩ := h
  obtain ⟨hl', hb', ho, hf, hn, hc, hst, he⟩ := h'
  rw [hw] at ho
  rw [hs] at hf hn hc hst he
  refine ⟨hl.trans hl', hb'.trans hb, ho, hf, hn, hc, hst, he.imp id ?_⟩
  rintro ⟨hp, hw', hf', hn', hsp⟩
  exact ⟨hp, hw'.trans hw, by rw [hf', hs], by rw [hn', hs], hsp⟩

theorem State.Quiet.forward {s t : State} (h : s.Quiet t) : s.Forward t :=
  h.trans_forward ⟨Reader.Later.refl _, rfl, .inl rfl, .inl rfl, id, rfl, rfl, .inl rfl⟩

/-- Error entry (60_exceptions R222). -/
theorem State.Quiet.raise {s t : State} {e : ErrKind} (h : s.Quiet t) (he : e = .unexpectedEndOfInput → t.reader.Spent) :
    s.Forward (t.raise e) :=
  h.trans_forward ⟨Reader.Later.refl _, rfl, .inl rfl, .inl rfl, id, rfl, rfl, .inr ⟨rfl, rfl, rfl, rfl, fun h => he (by cases h; rfl)⟩⟩

/-- Error entry with any other error. -/
theorem State.Quiet.raiseOther {s t : State} {e : ErrKind} (h : s.Quiet t) (he : e ≠ .unexpectedEndOfInput) :
    s.Forward (t.raise e) :=
  h.raise fun h' => absurd h' he

theorem State.Quiet.goto {s t : State} (h : s.Quiet t) (p : Phase) : s.Forward (t.goto p) :=
  h.trans_forward ⟨Reader.Later.refl _, rfl, .inl rfl, .inl rfl, id, rfl, rfl, .inl rfl⟩

/-- Emit (20_memory R64). -/
theorem State.emit_forward (b : Byte) (s : State) : s.Forward (s.emit b) :=
  ⟨Reader.Later.refl _, rfl, .inr ⟨b, rfl⟩, .inl rfl, id, rfl, rfl, .inl rfl⟩

/-- END_OF_BLOCK (42_deflate_block R153): one frame more, or none. -/
theorem State.endOfBlock_forward (s : State) : s.Forward s.endOfBlock := by
  unfold State.endOfBlock
  split
  · exact ⟨Reader.Later.refl _, rfl, .inl rfl, .inr rfl, id, rfl, rfl, .inl rfl⟩
  · exact (s.quiet_block _).goto _

theorem State.Quiet.sigMismatch {s t : State} (h : s.Quiet t) : s.Forward t.sigMismatch := by
  unfold State.sigMismatch
  split
  · exact h.goto _
  · exact h.raiseOther (by simp)

/-! ## Outcomes -/

/-- A next state is one a step may lead to. -/
def State.GoesForward (s : State) (o : Host.Outcome State Fault Refusal) : Prop := ∀ t, o = .next t → s.Forward t

theorem State.Forward.goesForward {s t : State} (h : s.Forward t) : s.GoesForward (.next t) := by
  rintro _ ⟨⟩
  exact h

theorem State.goesForward_fault (s : State) (f : Fault) : s.GoesForward (.fault f) := fun _ h => nomatch h

theorem State.wait_quiet (s : State) : s.Quiet s.wait := .of_same rfl rfl rfl rfl

theorem State.awake_quiet (s : State) : s.Quiet s.awake := .of_same rfl rfl rfl rfl

theorem State.wait_goesForward (s : State) : s.GoesForward (.next s.wait) := s.wait_quiet.forward.goesForward

/-- A settled operation goes forward where it answers so, raises inside its token, and finds the reader spent where it raises
UnexpectedEndOfInput. -/
theorem Res.Meets.goesForward {s : State} {x : Res State Unit} {okP : Unit → State → Prop} {raiseP : ErrKind → State → Prop}
    {waitP : Prop} {faultP : Fault → Prop} (hx : x.Meets okP raiseP waitP faultP) (hr : x.EndsRead)
    (hok : ∀ a t, okP a t → s.Forward t) (hraise : ∀ e t, raiseP e t → s.Quiet t) : s.GoesForward (x.settle s) := by
  cases x with
  | ok a t => exact (hok a t hx).goesForward
  | raise e t => exact ((hraise e t hx).raise hr).goesForward
  | wait => exact s.wait_goesForward
  | fault f => exact s.goesForward_fault f

theorem State.MeetsToken.goesForward {s : State} {x : Res State Unit} {okP : State → Prop} (hx : s.MeetsToken x okP)
    (hr : x.EndsRead) (hok : ∀ t, okP t → s.Forward t) : s.GoesForward (x.settle s) :=
  Res.Meets.goesForward hx hr (fun _ => hok) fun _ _ h => h.1.quiet

/-! ## Operations that stay inside their token, a model fault not shut out -/

/-- The operation answers and raises inside the token. -/
def State.StaysQuiet {α : Type} (s : State) (x : Res State α) : Prop :=
  x.Meets (fun _ t => s.Quiet t) (fun _ t => s.Quiet t) True (fun _ => True)

/-- The rule of sequence. -/
theorem State.StaysQuiet.bind {α β : Type} {s : State} {x : Res State α} {k : α → State → Res State β} (h : s.StaysQuiet x)
    (hk : ∀ (a : α) (u : State), u.StaysQuiet (k a u)) : s.StaysQuiet (x.bind k) :=
  Res.Meets.bind h fun a u hu => (hk a u).mono (fun _ _ => hu.trans) (fun _ _ => hu.trans) id fun _ => id

theorem Reader.Reads.staysQuiet {α : Type} {s : State} {x : Res Reader α} (h : s.reader.Reads x) :
    s.StaysQuiet (s.withReader x) := by
  cases x with
  | ok a r => exact ⟨h, rfl, rfl, rfl⟩
  | raise e r => exact ⟨h, rfl, rfl, rfl⟩
  | wait => trivial
  | fault f => trivial

theorem State.StaysQuiet.goesForward {s : State} {x : Res State Unit} (hx : s.StaysQuiet x) (hr : x.EndsRead) :
    s.GoesForward (x.settle s) :=
  Res.Meets.goesForward hx hr (fun _ _ h => h.forward) fun _ _ h => h

theorem State.readExtra_staysQuiet (base e : Nat) (s : State) : s.StaysQuiet (s.readExtra base e) :=
  (s.reader.readBitsLsb_reads e).staysQuiet.bind fun _ u => .refl u

theorem State.decodeInto_staysQuiet (sel : TableSel) (s : State) : s.StaysQuiet (s.decodeInto sel) := by
  unfold State.decodeInto
  split
  · trivial
  · exact (s.reader.decodeLoop_reads _ _ _ _).staysQuiet.bind fun _ _ => .of_same rfl rfl rfl rfl

theorem State.buildInto_staysQuiet (sel : TableSel) (lens : List (BitVec 4)) (s : State) :
    s.StaysQuiet (s.buildInto sel lens) := by
  unfold State.buildInto
  split <;> exact .of_same rfl rfl rfl rfl

theorem State.appendLens_staysQuiet (v : BitVec 4) (r : Nat) (s : State) : s.StaysQuiet (s.appendLens v r) := by
  unfold State.appendLens
  split
  · trivial
  · exact .of_same rfl rfl rfl rfl

theorem State.runFill_staysQuiet (v : BitVec 4) (r : Nat) (s : State) : s.StaysQuiet (s.runFill v r) := by
  unfold State.runFill
  split
  · exact .refl s
  · exact s.appendLens_staysQuiet v r

theorem State.repeatPrevious_staysQuiet (r : Nat) (s : State) : s.StaysQuiet (s.repeatPrevious r) := by
  unfold State.repeatPrevious
  split
  · exact s.runFill_staysQuiet _ r
  · trivial

/-! ## UnexpectedEndOfInput in the tokens' operations -/

theorem State.repeatPrevious_endsRead (r : Nat) (s : State) : (s.repeatPrevious r).EndsRead := by
  unfold State.repeatPrevious
  split
  · exact s.runFill_endsRead _ r
  · trivial

theorem State.startMatchCopy_endsRead (s : State) : s.startMatchCopy.EndsRead := by
  unfold State.startMatchCopy
  split
  · exact Res.EndsRead.raise (by simp) _
  · trivial

theorem State.matchLength_endsRead (base e : Nat) (s : State) : (s.matchLength base e).EndsRead :=
  (s.readExtra_endsRead base e).bind fun _ _ => trivial

theorem State.matchDistance_endsRead (base e : Nat) (s : State) : (s.matchDistance base e).EndsRead :=
  (s.readExtra_endsRead base e).bind fun _ _ => State.startMatchCopy_endsRead _

theorem State.readHeader_endsRead (s : State) : s.readHeader.EndsRead :=
  ((s.reader.readBitsLsb_endsSpent 1).withReader s).bind fun _ _ =>
    ((Reader.readBitsLsb_endsSpent 2 _).withReader _).bind fun _ _ => trivial

/-! ## Instructions -/

/-- Both payload tables built, then PAYLOAD (42_deflate_block R169, R170). -/
theorem State.Quiet.buildPayloadTables {s u : State} (h : s.Quiet u) (ll d : List (BitVec 4)) :
    s.GoesForward ((u.buildPayloadTables ll d).settle s) := by
  refine (u.buildPayloadTables_meets ll d).goesForward (u.buildPayloadTables_endsRead ll d) ?_ ?_
  · rintro _ t ⟨x, y, -, -, rfl⟩
    exact (h.trans (u.quiet_block _)).goto _
  · rintro e t ⟨-, hr, hw, hs, hp⟩
    exact h.trans (.of_same hr hw hs (by rw [hp]))

theorem execBtypeFixed_goesForward (f : Bool) (s : State) : s.GoesForward (execBtypeFixed f s) := by
  unfold execBtypeFixed
  exact State.Quiet.buildPayloadTables (s.quiet_block _) fixedLlLens fixedDLens

theorem execStoredHdr_goesForward (s : State) : s.GoesForward (execStoredHdr s) := by
  refine s.storedHdr_meets.goesForward ?_ ?_
  · exact Res.EndsRead.bind (.ok () _) fun _ u => u.readSlen_endsRead.bind fun _ v => v.readSnlen_endsRead.bind fun _ w =>
      w.startStoredCopy_endsRead
  · rintro t ⟨hb, -, hw, hp, -, hn, hs⟩
    exact ⟨hb.1, by rw [hp], .inl (by rw [hw]), .inl (by rw [hs]), hn, by rw [hs], by rw [hs], .inl (by rw [hs])⟩

theorem execDynHdr_goesForward (s : State) : s.GoesForward (execDynHdr s) := by
  refine s.dynHdr_meets.goesForward ?_ ?_
  · exact s.readCounts_endsRead.bind fun _ u => Res.EndsRead.bind (State.readClLens_endsRead _ _) fun _ v =>
      (v.buildInto_endsRead .cl _).bind fun _ _ => trivial
  · rintro t ⟨u, ha, -, rfl, -⟩
    exact ha.quiet.goto _

theorem execClRep_goesForward (s : State) : s.GoesForward (execClRep s) := by
  unfold execClRep
  split
  · exact State.Forward.goesForward ((State.Quiet.refl s).raiseOther (by simp))
  · refine State.StaysQuiet.goesForward ?_ ?_
    · exact (s.readExtra_staysQuiet 3 2).bind fun r u => u.repeatPrevious_staysQuiet r
    · exact (s.readExtra_endsRead 3 2).bind fun r u => u.repeatPrevious_endsRead r

/-- A run of zeros (42_deflate_block R166, R167). -/
theorem State.zeroRun_goesForward (base e : Nat) (s : State) :
    s.GoesForward (((s.readExtra base e).bind fun r u => u.runFill 0 r).settle s) :=
  State.StaysQuiet.goesForward ((s.readExtra_staysQuiet base e).bind fun r u => u.runFill_staysQuiet 0 r)
    ((s.readExtra_endsRead base e).bind fun r u => u.runFill_endsRead 0 r)

theorem exec_lengthRows_goesForward {row : Instr × Nat × Nat} (h : row ∈ Claims.lengthRows) (s : State) :
    s.GoesForward (exec row.1 s) := by
  obtain ⟨he, -, hb⟩ := lengthRows_range h
  rw [exec_lengthRows h]
  refine (State.matchLength_meets he (by omega)).goesForward (s.matchLength_endsRead _ _) ?_
  rintro t ⟨u, ha, -, -, -, rfl⟩
  exact ha.quiet.goto _

theorem exec_distanceRows_goesForward {row : Instr × Nat × Nat} (h : row ∈ Claims.distanceRows) (s : State) :
    s.GoesForward (exec row.1 s) := by
  obtain ⟨he, h1, hb⟩ := distanceRows_range h
  rw [exec_distanceRows h]
  refine (State.matchDistance_meets he h1 (by omega)).goesForward (s.matchDistance_endsRead _ _) ?_
  rintro t ⟨u, ha, -, -, -, rfl⟩
  exact ha.quiet.goto _

theorem exec_readerCommand_goesForward {i : Instr} (h : isReaderCommand i) (s : State) : s.GoesForward (exec i s) := by
  obtain ⟨x, hx, hs, he⟩ := exec_readerCommand h s
  intro t ht
  obtain ⟨r, c, rfl, hl, -⟩ | rfl := settleCommand_cases hx hs (he ▸ ht)
  · exact State.Quiet.forward ⟨hl, rfl, rfl, rfl⟩
  · exact s.wait_quiet.forward

/-- Every instruction goes forward. -/
theorem exec_goesForward (i : Instr) (s : State) : s.GoesForward (exec i s) := by
  by_cases hl : i ∈ Claims.lengthRows.map Prod.fst
  · obtain ⟨row, hr, rfl⟩ := List.mem_map.1 hl
    exact exec_lengthRows_goesForward hr s
  by_cases hd : i ∈ Claims.distanceRows.map Prod.fst
  · obtain ⟨row, hr, rfl⟩ := List.mem_map.1 hd
    exact exec_distanceRows_goesForward hr s
  by_cases hc : isReaderCommand i
  · exact exec_readerCommand_goesForward hc s
  cases i with
  | sig =>
    exact State.Forward.goesForward
      ⟨Reader.Later.refl _, rfl, .inl rfl, .inl rfl, id, rfl, rfl, .inl rfl⟩
  | btypeStored | btypeDynamic => exact State.Forward.goesForward ((s.quiet_block _).goto _)
  | btypeReserved => exact State.Forward.goesForward ((s.quiet_block _).raiseOther (by simp))
  | llReserved | dReserved => exact State.Forward.goesForward ((State.Quiet.refl s).raiseOther (by simp))
  | lit b => exact (s.emit_forward b).goesForward
  | eob => exact s.endOfBlock_forward.goesForward
  | btypeFixed f => exact execBtypeFixed_goesForward f s
  | storedHdr => exact execStoredHdr_goesForward s
  | dynHdr => exact execDynHdr_goesForward s
  | clLit v => exact (s.appendLens_staysQuiet v 1).goesForward (s.appendLens_endsRead v 1)
  | clRep => exact execClRep_goesForward s
  | clZ3 => exact s.zeroRun_goesForward 3 3
  | clZ11 => exact s.zeroRun_goesForward 11 7
  | buildTable sel lens => exact (s.buildInto_staysQuiet sel lens).goesForward (s.buildInto_endsRead sel lens)
  | decodeSymbol sel => exact (s.decodeInto_staysQuiet sel).goesForward (s.decodeInto_endsRead sel)
  | _ => simp [Claims.lengthRows, Claims.distanceRows, isReaderCommand] at hl hd hc

/-! ## The engine's step -/

theorem State.storedCopyStep_goesForward (s : State) : s.GoesForward (s.storedCopyStep.settle s) := by
  by_cases hr : s.block.srem = 0
  · rw [State.storedCopyStep, if_pos hr]
    exact s.endOfBlock_forward.goesForward
  · refine (State.storedCopyStep_meets hr).goesForward s.storedCopyStep_endsRead ?_ ?_
    · rintro _ t ⟨b, r, hb, -, rfl⟩
      exact ⟨hb.1, rfl, .inr ⟨b, rfl⟩, .inl rfl, id, rfl, rfl, .inl rfl⟩
    · rintro e t ⟨rfl, -⟩
      exact .refl t

theorem State.matchCopyStep_goesForward (s : State) : s.GoesForward (s.matchCopyStep.settle s) := by
  unfold State.matchCopyStep
  split
  · exact ((State.Quiet.refl s).goto _).goesForward
  · split
    · exact s.goesForward_fault _
    · rename_i b _
      exact State.Forward.goesForward ⟨Reader.Later.refl _, rfl, .inr ⟨b, rfl⟩, .inl rfl, id, rfl, rfl, .inl rfl⟩

/-- What was fetched: an instruction on a state inside its token, or a move that goes forward. -/
def Fetched.GoesForward (s : State) : Fetched → Prop
  | .run _ u => s.Quiet u
  | .move o => s.GoesForward o

theorem State.strangeSymbol_goesForward {s u : State} (h : s.Quiet u) (sel : TableSel) :
    s.GoesForward (u.strangeSymbol sel) := by
  cases sel with
  | cl => exact s.goesForward_fault _
  | ll | d => exact (h.raiseOther (by simp)).goesForward

theorem State.fetchSignature_goesForward (s : State) : s.fetchSignature.GoesForward s := by
  have hm := s.reader.readSignature_meets
  unfold State.fetchSignature
  cases hx : s.reader.readSignature with
  | ok v r =>
    rw [hx] at hm
    have hu : s.Quiet { s with reader := r } := ⟨hm.1, rfl, rfl, rfl⟩
    cases v with
    | none => exact hu.sigMismatch.goesForward
    | some v =>
      simp only [State.withReader_ok]
      split
      · exact hu
      · exact hu.sigMismatch.goesForward
  | raise e r => rw [hx] at hm; exact hm.elim
  | wait => exact s.wait_goesForward
  | fault f => exact s.goesForward_fault f

theorem State.fetchHeader_goesForward (s : State) : s.fetchHeader.GoesForward s := by
  have hm := s.readHeader_meets
  have hr := s.readHeader_endsRead
  unfold State.fetchHeader
  cases hx : s.readHeader with
  | ok v u =>
    rw [hx] at hm
    dsimp only
    split
    · exact hm.1.quiet
    · exact (hm.1.quiet.raiseOther (by simp)).goesForward
  | raise e u =>
    rw [hx] at hm hr
    exact (hm.1.quiet.raise hr).goesForward
  | wait => exact s.wait_goesForward
  | fault f => exact s.goesForward_fault f

theorem State.fetchSymbol_goesForward (sel : TableSel) (s : State) : (s.fetchSymbol sel).GoesForward s := by
  have hm := s.decodeInto_staysQuiet sel
  have hr := s.decodeInto_endsRead sel
  unfold State.fetchSymbol
  cases hx : s.decodeInto sel with
  | ok v u =>
    rw [hx] at hm
    dsimp only
    split
    · exact hm
    · exact State.strangeSymbol_goesForward hm sel
  | raise e u =>
    rw [hx] at hm hr
    exact (State.Quiet.raise hm hr).goesForward
  | wait => exact s.wait_goesForward
  | fault f => exact s.goesForward_fault f

theorem State.fetchCommand_goesForward (w : Half) (s : State) : (s.fetchCommand w).GoesForward s := by
  unfold State.fetchCommand
  split
  · exact .refl s
  · exact State.Forward.goesForward (State.Quiet.forward (.of_same rfl rfl rfl rfl))

/-- Phase by phase (43_mszip_frame R207). -/
theorem State.fetchPhase_goesForward (s : State) : s.fetchPhase.GoesForward s := by
  unfold State.fetchPhase
  cases s.seq.phase with
  | idle | done | error => exact (State.Quiet.refl s).forward.goesForward
  | storedHdr | dynHdr => exact .refl s
  | storedCopy => exact s.storedCopyStep_goesForward
  | matchCopy => exact s.matchCopyStep_goesForward
  | sig => exact s.fetchSignature_goesForward
  | blkHdr => exact s.fetchHeader_goesForward
  | payload => exact s.fetchSymbol_goesForward .ll
  | matchDist => exact s.fetchSymbol_goesForward .d
  | dynLens =>
    dsimp only
    split
    · exact s.fetchSymbol_goesForward .cl
    · exact (State.Quiet.refl s).buildPayloadTables _ _

theorem State.fetch_goesForward (s : State) : s.fetch.GoesForward s := by
  unfold State.fetch
  split
  · exact s.fetchCommand_goesForward _
  · exact s.fetchPhase_goesForward

theorem resume_goesForward {s : State} {o : Host.Outcome State Fault Refusal} (h : s.GoesForward o) :
    s.GoesForward (resume s o) := by
  cases o with
  | next t =>
    simp only [resume]
    split
    · exact s.wait_goesForward
    · exact h
  | fault f => exact h
  | refused r => exact h

/-- One step of the engine goes forward: what it fetches is inside a token, and the token's instruction goes on from there. -/
theorem State.engineStep_goesForward (s : State) : s.GoesForward s.engineStep := by
  have hf := s.awake.fetch_goesForward
  suffices h : s.awake.GoesForward s.engineStep from
    fun t ht => s.awake_quiet.trans_forward (h t ht)
  unfold State.engineStep
  cases hx : s.awake.fetch with
  | run i u =>
    rw [hx] at hf
    exact resume_goesForward fun t ht => hf.trans_forward (exec_goesForward i u t ht)
  | move o => rw [hx] at hf; exact hf

theorem step_forward {s t : State} (hs : s.port.turns = []) (ht : step s = .next t) : s.Forward t :=
  s.engineStep_goesForward t (step_of_noTurn hs ▸ ht)

/-- Settles O49: every step of the engine goes forward, and ERRCODE changes on error entry alone. -/
theorem engineOnlyMovesForward : Obligations.EngineOnlyMovesForward := by
  intro s t hs ht
  obtain ⟨⟨hin, hgr, hpos, hbits, -⟩, hbound, hout, hframes, hnlen, hcfg, hstrict, herr⟩ := step_forward hs ht
  refine ⟨hin, hbound, hgr, hpos, hbits, hout, hframes, hnlen, hcfg, hstrict, fun hne => ?_⟩
  obtain ⟨hp, hw, hf, hn, -⟩ := herr.resolve_left hne
  exact ⟨hp, hw, hf, hn⟩

/-! ## UnexpectedEndOfInput -/

/-- A pending command that completes with UnexpectedEndOfInput leaves the reader spent (40_bitreader R120). -/
theorem State.engineStep_command_spent {s t : State} {w : Half} (hc : s.port.cmd = some w) (ht : s.engineStep = .next t)
    (hd : t.port.cmd = none) (hr : t.port.result = some (.error .unexpectedEndOfInput)) : t.reader.Spent := by
  cases hi : decode .readerCmd w.toNat with
  | error e =>
    rw [State.engineStep_badCommand hc hi] at ht
    cases ht
    cases hr
  | ok i =>
    have hf : s.awake.fetch = .run i s.awake := State.fetch_command (s := s.awake) hc hi
    obtain ⟨x, hx, hs, he⟩ := exec_readerCommand (decode_readerCmd hi) s.awake
    simp only [State.engineStep, hf] at ht
    cases hu : exec i s.awake with
    | next u =>
      rw [hu] at ht
      obtain ⟨r, c, rfl, -, hsp⟩ | rfl := settleCommand_cases hx hs (he ▸ hu)
      · cases ht
        cases hr
        exact hsp rfl
      · cases ht
        cases hc.symm.trans hd
    | fault f => rw [hu] at ht; cases ht
    | refused r => rw [hu] at ht; cases ht

/-- A spent reader inside its INPUT has fetched every byte of it. -/
theorem Reader.Spent.pos_eq {r : Reader} (h : r.Spent) (hp : r.pos ≤ (r.input.getD []).length) :
    r.pos = (r.input.getD []).length := by
  obtain ⟨-, -, hle⟩ := h
  exact hp.antisymm hle

/-- Settles O52: the engine enters ERROR with that error only with the reader spent, and so does a command complete; the
invariant keeps the position inside INPUT. -/
theorem exhaustionLeavesNothingUnread : Obligations.ExhaustionLeavesNothingUnread := by
  intro s t hi hs ht hend
  have hspent : t.reader.Spent := by
    rcases hend with ⟨hne, he⟩ | ⟨hc, hd, hr⟩
    · rcases (step_forward hs ht).err with hsame | hraised
      · exact absurd (hsame.symm.trans he) hne
      · exact hraised.spent he
    · obtain ⟨w, hw⟩ := Option.isSome_iff_exists.1 hc
      exact State.engineStep_command_spent hw (step_of_noTurn hs ▸ ht) hd hr
  have hpos := hspent.pos_eq ((step_leadsInv hi).next t ht).inside
  obtain ⟨hcc, hin, -⟩ := hspent
  exact ⟨hcc, hin, hpos⟩

end Sys2Proof.Machine
end

section
/-! PROOFS. Canonical codes (41_huffman R131 to R133, R135): where the codes of a length end says whether the lengths are
over-subscribed, what Build assigns, and why no code is the start of another. -/

namespace Sys2Proof.Machine

/-! ## Where the codes of a length end -/

/-- One past the last code of a length: its first code and the number of its symbols. -/
def codesEnd (lens : List (BitVec 4)) (len : Nat) : Nat := firstCode lens len + lengthCount lens len

theorem codesEnd_zero (lens : List (BitVec 4)) : codesEnd lens 0 = 0 := rfl

theorem firstCode_succ (lens : List (BitVec 4)) (len : Nat) : firstCode lens (len + 1) = 2 * codesEnd lens len := rfl

theorem codesEnd_succ (lens : List (BitVec 4)) (len : Nat) :
    codesEnd lens (len + 1) = 2 * codesEnd lens len + lengthCount lens (len + 1) := rfl

/-- The codes used up at a length use up twice as many at the next. -/
theorem codesEnd_mul_pow_le (lens : List (BitVec 4)) {m n : Nat} (h : m ≤ n) :
    codesEnd lens m * 2 ^ (n - m) ≤ codesEnd lens n := by
  induction n, h using Nat.le_induction with
  | base => simp
  | succ n hmn ih =>
    rw [codesEnd_succ, Nat.succ_sub hmn, pow_succ, ← mul_assoc]
    omega

/-- The codes of a longer length start after every continuation of the codes of a shorter one. -/
theorem codesEnd_mul_pow_le_firstCode (lens : List (BitVec 4)) {m n : Nat} (h : m < n) :
    codesEnd lens m * 2 ^ (n - m) ≤ firstCode lens n := by
  obtain ⟨k, rfl⟩ : ∃ k, n = k + 1 := ⟨n - 1, by omega⟩
  have := codesEnd_mul_pow_le lens (Nat.le_of_lt_succ h)
  rw [firstCode_succ, Nat.succ_sub (Nat.le_of_lt_succ h), pow_succ, ← mul_assoc]
  omega

/-- Codes that fit a length fit every shorter one. -/
theorem codesEnd_le_of_le {lens : List (BitVec 4)} {m n : Nat} (h : m ≤ n) (hn : codesEnd lens n ≤ 2 ^ n) :
    codesEnd lens m ≤ 2 ^ m := by
  refine Nat.le_of_mul_le_mul_right (c := 2 ^ (n - m)) ?_ (by positivity)
  calc codesEnd lens m * 2 ^ (n - m) ≤ codesEnd lens n := codesEnd_mul_pow_le lens h
    _ ≤ 2 ^ n := hn
    _ = 2 ^ m * 2 ^ (n - m) := by rw [← pow_add, Nat.add_sub_cancel' h]

/-! ## Symbols of a length -/

theorem lengthCount_append (a b : List (BitVec 4)) (len : Nat) :
    lengthCount (a ++ b) len = lengthCount a len + lengthCount b len := by
  unfold lengthCount
  split
  · rfl
  · exact List.countP_append

theorem lengthCount_singleton (l : BitVec 4) (len : Nat) :
    lengthCount [l] len = if len ≠ 0 ∧ l.toNat = len then 1 else 0 := by
  by_cases h : len = 0 <;> simp [lengthCount, h, List.countP_singleton]

/-- The symbols before the next. -/
theorem lengthCount_take_succ {lens : List (BitVec 4)} {s : Nat} (hs : s < lens.length) (len : Nat) :
    lengthCount (lens.take (s + 1)) len =
      lengthCount (lens.take s) len + if len ≠ 0 ∧ lens[s].toNat = len then 1 else 0 := by
  rw [List.take_succ_eq_append_getElem hs, lengthCount_append, lengthCount_singleton]

theorem lengthCount_take_mono (lens : List (BitVec 4)) (len : Nat) {s t : Nat} (h : s ≤ t) :
    lengthCount (lens.take s) len ≤ lengthCount (lens.take t) len := by
  unfold lengthCount
  split
  · exact le_rfl
  · exact (List.take_sublist_take_left h).countP_le

/-- A symbol of a length is one more of that length than were before it. -/
theorem lengthCount_take_lt {lens : List (BitVec 4)} {s t : Nat} (hs : s < lens.length) (h : s < t) (h0 : lens[s].toNat ≠ 0) :
    lengthCount (lens.take s) lens[s].toNat < lengthCount (lens.take t) lens[s].toNat := by
  have hstep := lengthCount_take_succ hs lens[s].toNat
  rw [if_pos ⟨h0, rfl⟩] at hstep
  have := lengthCount_take_mono lens lens[s].toNat (s := s + 1) h
  omega

/-! ## The Kraft sum -/

/-- How many codes of length `len` continue a code of length `l`, or are it. -/
def continuations (len : Nat) (l : BitVec 4) : Nat := if l = 0 ∨ len < l.toNat then 0 else 2 ^ (len - l.toNat)

theorem continuations_zero (l : BitVec 4) : continuations 0 l = 0 := by
  unfold continuations
  rw [if_pos]
  by_cases h : l = 0
  · exact .inl h
  · exact .inr (one_le_toNat_of_ne_zero h)

/-- One bit longer: each continuation splits in two, and the codes of that length come in. -/
theorem continuations_succ (len : Nat) (l : BitVec 4) :
    continuations (len + 1) l = 2 * continuations len l + if len + 1 ≠ 0 ∧ l.toNat = len + 1 then 1 else 0 := by
  unfold continuations
  by_cases h0 : l = 0
  · simp [h0]
  rcases lt_trichotomy l.toNat (len + 1) with hlt | heq | hgt
  · have hle : l.toNat ≤ len := Nat.le_of_lt_succ hlt
    rw [if_neg (not_or.2 ⟨h0, hlt.not_gt⟩), if_neg (not_or.2 ⟨h0, hle.not_gt⟩), if_neg (fun h => hlt.ne h.2),
      Nat.succ_sub hle, pow_succ, Nat.mul_comm, Nat.add_zero]
  · rw [if_neg (not_or.2 ⟨h0, heq.le.not_gt⟩), if_pos (.inr (heq ▸ Nat.lt_succ_self len)),
      if_pos ⟨Nat.succ_ne_zero len, heq⟩, heq, Nat.sub_self]
    rfl
  · rw [if_pos (.inr hgt), if_pos (.inr (Nat.lt_of_succ_lt hgt)), if_neg fun h => hgt.ne' h.2]

theorem sum_continuations_succ (lens : List (BitVec 4)) (len : Nat) :
    (lens.map (continuations (len + 1))).sum = 2 * (lens.map (continuations len)).sum + lengthCount lens (len + 1) := by
  induction lens with
  | nil => simp [lengthCount]
  | cons l lens ih =>
    rw [List.map_cons, List.map_cons, List.sum_cons, List.sum_cons, ih, continuations_succ,
      ← List.singleton_append, lengthCount_append, lengthCount_singleton]
    omega

/-- The codes of a length end after the continuations of every code so far. -/
theorem codesEnd_eq_sum (lens : List (BitVec 4)) (len : Nat) : codesEnd lens len = (lens.map (continuations len)).sum := by
  induction len with
  | zero => simp [codesEnd_zero, funext continuations_zero]
  | succ len ih => rw [codesEnd_succ, ih, sum_continuations_succ]

/-- The Kraft sum, times 2^15, is where the codes of the greatest length end. -/
theorem codesEnd_fifteen (lens : List (BitVec 4)) : codesEnd lens 15 = kraftSum lens := by
  rw [codesEnd_eq_sum, kraftSum]
  congr 1
  refine List.map_congr_left fun l _ => ?_
  have : ¬ 15 < l.toNat := by have := l.isLt; omega
  simp only [continuations, this, or_false]

/-! ## The over-subscription check -/

/-- `left` after a length is the room behind the codes of that length (41_huffman R133). -/
theorem leftStaysNonneg_iff {lens : List (BitVec 4)} {len : Nat} (n : Nat) (h : codesEnd lens len ≤ 2 ^ len) :
    leftStaysNonneg lens (List.range' (len + 1) n) ((2 ^ len : Nat) - codesEnd lens len) = true ↔
      codesEnd lens (len + n) ≤ 2 ^ (len + n) := by
  induction n generalizing len with
  | zero => simp [leftStaysNonneg, h]
  | succ n ih =>
    have hleft : (2 * ((2 ^ len : Nat) - codesEnd lens len) - lengthCount lens (len + 1) : Int) =
        (2 ^ (len + 1) : Nat) - codesEnd lens (len + 1) := by
      rw [codesEnd_succ, pow_succ]; push_cast; ring
    rw [List.range'_succ, leftStaysNonneg, hleft, Nat.add_comm n 1, ← Nat.add_assoc]
    by_cases hfit : codesEnd lens (len + 1) ≤ 2 ^ (len + 1)
    · rw [if_neg (by omega), ih hfit]
    · rw [if_pos (by omega)]
      have := mt (codesEnd_le_of_le (lens := lens) (Nat.le_add_right (len + 1) n)) hfit
      simp only [this, Bool.false_eq_true]

/-- The check raises exactly where the Kraft sum exceeds 1 (41_huffman R133). -/
theorem oversubscribed_iff (lens : List (BitVec 4)) : oversubscribed lens = true ↔ 2 ^ 15 < kraftSum lens := by
  have h := leftStaysNonneg_iff (lens := lens) (len := 0) 15 (by simp [codesEnd_zero])
  rw [Nat.zero_add, codesEnd_fifteen] at h
  rw [oversubscribed, Bool.not_eq_true', ← Bool.not_eq_true, ← not_le, ← h]
  rfl

/-! ## The assignment loop -/

/-- The code the assignment loop gives next at a length, before symbol `sym`. -/
def nextCode (lens : List (BitVec 4)) (sym len : Nat) : Nat := firstCode lens len + lengthCount (lens.take sym) len

/-- The closed form's count of earlier symbols is the loop's. -/
theorem canonicalCode_eq {lens : List (BitVec 4)} {sym : Nat} (h : (lens.getD sym 0).toNat ≠ 0) :
    canonicalCode lens sym = nextCode lens sym (lens.getD sym 0).toNat := by
  rw [canonicalCode, nextCode, lengthCount, if_neg h]
  congr 2
  funext l
  rw [Bool.eq_iff_iff, beq_iff_eq, beq_iff_eq, BitVec.toNat_inj]

theorem nextCodesFrom_eq (lens : List (BitVec 4)) (len n : Nat) :
    nextCodesFrom lens (List.range' (len + 1) n) (firstCode lens len) = (List.range' (len + 1) n).map (firstCode lens) := by
  induction n generalizing len with
  | zero => rfl
  | succ n ih =>
    have hcode : (firstCode lens len + lengthCount lens (len + 1 - 1)) <<< 1 = firstCode lens (len + 1) := by
      rw [Nat.shiftLeft_eq, Nat.add_sub_cancel, firstCode_succ, codesEnd]; omega
    rw [List.range'_succ, nextCodesFrom, hcode, ih, List.map_cons]

/-- Before the first symbol the loop holds the first code of each length. -/
theorem nextCodes_eq (lens : List (BitVec 4)) : nextCodes lens = (List.range 16).map (nextCode lens 0) := by
  have hfirst : nextCode lens 0 = firstCode lens := by
    funext len
    simp [nextCode, lengthCount]
  rw [nextCodes, hfirst]
  exact congrArg (0 :: ·) (nextCodesFrom_eq lens 0 15)

/-- After a symbol without a code nothing changes. -/
theorem nextCode_succ_of_eq_zero {lens : List (BitVec 4)} {s : Nat} (hs : s < lens.length) (h : lens[s] = 0) :
    nextCode lens (s + 1) = nextCode lens s := by
  funext len
  rw [nextCode, lengthCount_take_succ hs, if_neg (by rw [h]; rintro ⟨h0, rfl⟩; exact h0 rfl)]
  rfl

/-- After a symbol the next code of its length is one higher. -/
theorem set_nextCode {lens : List (BitVec 4)} {s : Nat} (hs : s < lens.length) (h : lens[s].toNat ≠ 0) :
    ((List.range 16).map (nextCode lens s)).set lens[s].toNat (nextCode lens s lens[s].toNat + 1) =
      (List.range 16).map (nextCode lens (s + 1)) := by
  refine List.ext_getElem (by simp) fun i _ _ => ?_
  simp only [List.getElem_set, List.getElem_map, List.getElem_range, nextCode, lengthCount_take_succ hs]
  by_cases hi : lens[s].toNat = i
  · rw [if_pos hi, if_pos ⟨hi ▸ h, hi⟩, hi]; rfl
  · rw [if_neg hi, if_neg fun hc => hi hc.2]; rfl

/-- The entry of a symbol in the canonical table, if it has a code. -/
def canonicalEntry (lens : List (BitVec 4)) (s : Nat) : Option Entry :=
  if lens.getD s 0 = 0 then none else some { code := canonicalCode lens s, len := (lens.getD s 0).toNat, sym := s }

/-- The assignment loop from a symbol on makes the canonical entries from there on (41_huffman R131). -/
theorem assignCodes_eq {lens : List (BitVec 4)} (rest : List (BitVec 4)) {s : Nat} (h : lens.drop s = rest) :
    assignCodes rest s ((List.range 16).map (nextCode lens s)) =
      (List.range' s rest.length).filterMap (canonicalEntry lens) := by
  induction rest generalizing s with
  | nil => rfl
  | cons l rest ih =>
    have hs : s < lens.length := by
      by_contra hge
      simp [List.drop_eq_nil_of_le (not_lt.1 hge)] at h
    obtain ⟨hl, hrest⟩ := List.cons.inj ((List.drop_eq_getElem_cons hs).symm.trans h)
    have hgetD : lens.getD s 0 = l := by rw [List.getD_eq_getElem _ _ hs, hl]
    rw [assignCodes, List.length_cons, List.range'_succ, List.filterMap_cons]
    by_cases h0 : l = 0
    · rw [if_pos h0, canonicalEntry, if_pos (hgetD.trans h0), ← nextCode_succ_of_eq_zero hs (hl.trans h0)]
      exact ih hrest
    · have hne := Nat.one_le_iff_ne_zero.1 (one_le_toNat_of_ne_zero h0)
      have hcode : ((List.range 16).map (nextCode lens s)).getD l.toNat 0 = canonicalCode lens s := by
        rw [canonicalCode_eq (hgetD ▸ hne), hgetD, List.getD_eq_getElem _ _ (by simpa using l.isLt)]
        simp
      have hset := set_nextCode hs (hl ▸ hne)
      rw [hl] at hset
      rw [if_neg h0, canonicalEntry, if_neg (hgetD ▸ h0), hcode, canonicalCode_eq (hgetD ▸ hne), hgetD]
      exact congrArg _ ((congrArg _ hset).trans (ih hrest))

/-- Build makes the canonical table exactly where the Kraft sum does not exceed 1 (41_huffman R131, R133). -/
theorem build_eq (lens : List (BitVec 4)) :
    build lens = if 2 ^ 15 < kraftSum lens then none else some (Claims.canonicalTable lens) := by
  have hassign : assignCodes lens 0 (nextCodes lens) = Claims.canonicalTable lens := by
    rw [nextCodes_eq, assignCodes_eq lens rfl, ← List.range_eq_range']
    rfl
  simp only [build, oversubscribed_iff, hassign]

/-! ## No code starts another -/

/-- An entry of the canonical table: its length is its symbol's, and its code the next one at that length. -/
theorem mem_canonicalTable {lens : List (BitVec 4)} {e : Entry} (h : e ∈ Claims.canonicalTable lens) :
    ∃ hs : e.sym < lens.length, e.len = lens[e.sym].toNat ∧ e.len ≠ 0 ∧ e.code = nextCode lens e.sym e.len := by
  obtain ⟨s, hs, he⟩ := List.mem_filterMap.1 h
  rw [List.mem_range] at hs
  split at he
  · cases he
  · next h0 =>
    have hne := Nat.one_le_iff_ne_zero.1 (one_le_toNat_of_ne_zero h0)
    cases he
    exact ⟨hs, by rw [List.getD_eq_getElem _ _ hs], hne, canonicalCode_eq hne⟩

/-- A code lies before the end of the codes of its length. -/
theorem code_lt_codesEnd {lens : List (BitVec 4)} {e : Entry} (h : e ∈ Claims.canonicalTable lens) :
    e.code < codesEnd lens e.len := by
  obtain ⟨hs, hlen, hne, hcode⟩ := mem_canonicalTable h
  have := lengthCount_take_lt hs hs (hlen ▸ hne)
  rw [List.take_length, ← hlen] at this
  rw [hcode, nextCode, codesEnd]
  omega

/-- A symbol's code is below the codes of later symbols of its length. -/
theorem code_lt_code {lens : List (BitVec 4)} {e f : Entry} (he : e ∈ Claims.canonicalTable lens)
    (hf : f ∈ Claims.canonicalTable lens) (hlen : e.len = f.len) (hsym : e.sym < f.sym) : e.code < f.code := by
  obtain ⟨hs, hl, hne, hcode⟩ := mem_canonicalTable he
  obtain ⟨-, -, -, hcode'⟩ := mem_canonicalTable hf
  have := lengthCount_take_lt hs hsym (hl ▸ hne)
  rw [← hl] at this
  rw [hcode, hcode', ← hlen, nextCode, nextCode]
  omega

/-- Symbols of one length with one code are one symbol. -/
theorem eq_of_code_eq {lens : List (BitVec 4)} {e f : Entry} (he : e ∈ Claims.canonicalTable lens)
    (hf : f ∈ Claims.canonicalTable lens) (hlen : e.len = f.len) (hcode : e.code = f.code) : e = f := by
  rcases lt_trichotomy e.sym f.sym with hlt | heq | hgt
  · exact absurd hcode (code_lt_code he hf hlen hlt).ne
  · cases e; cases f; simp_all
  · exact absurd hcode.symm (code_lt_code hf he hlen.symm hgt).ne

/-- The first bits of a longer code are no code: they lie at or past the end of the codes of their length. -/
theorem code_lt_shiftRight {lens : List (BitVec 4)} {e f : Entry} (he : e ∈ Claims.canonicalTable lens)
    (hf : f ∈ Claims.canonicalTable lens) (hlen : e.len < f.len) : e.code < f.code >>> (f.len - e.len) := by
  obtain ⟨-, -, -, hcode⟩ := mem_canonicalTable hf
  refine (code_lt_codesEnd he).trans_le ?_
  rw [Nat.shiftRight_eq_div_pow, Nat.le_div_iff_mul_le (by positivity)]
  calc codesEnd lens e.len * 2 ^ (f.len - e.len) ≤ firstCode lens f.len := codesEnd_mul_pow_le_firstCode lens hlen
    _ ≤ f.code := hcode ▸ Nat.le_add_right _ _

/-- No code of the table is the start of another (41_huffman R132). -/
def PrefixFree (t : Table) : Prop :=
  ∀ e ∈ t, ∀ f ∈ t, e.len ≤ f.len → f.code >>> (f.len - e.len) = e.code → e = f

theorem canonicalTable_prefixFree (lens : List (BitVec 4)) : PrefixFree (Claims.canonicalTable lens) := by
  intro e he f hf hle hcode
  rcases hle.eq_or_lt with heq | hlt
  · exact eq_of_code_eq he hf heq (by simpa [heq] using hcode.symm)
  · exact absurd hcode (code_lt_shiftRight he hf hlt).ne'

/-- A table that was built is the canonical one, of lengths that are not over-subscribed. -/
theorem build_some {lens : List (BitVec 4)} {t : Table} (h : build lens = some t) :
    kraftSum lens ≤ 2 ^ 15 ∧ t = Claims.canonicalTable lens := by
  rw [build_eq] at h
  split at h
  · cases h
  · next hk => exact ⟨not_lt.1 hk, (Option.some.inj h).symm⟩

/-- Every code of a built table fits its length. -/
theorem code_lt_pow {lens : List (BitVec 4)} {t : Table} {e : Entry} (h : build lens = some t) (he : e ∈ t) :
    e.code < 2 ^ e.len := by
  obtain ⟨hk, rfl⟩ := build_some h
  obtain ⟨hs, hlen, -⟩ := mem_canonicalTable he
  have h15 : e.len ≤ 15 := by rw [hlen]; exact Nat.le_of_lt_succ (BitVec.isLt _)
  exact (code_lt_codesEnd he).trans_le (codesEnd_le_of_le h15 (codesEnd_fifteen lens ▸ hk))

theorem build_prefixFree {lens : List (BitVec 4)} {t : Table} (h : build lens = some t) : PrefixFree t :=
  (build_some h).2 ▸ canonicalTable_prefixFree lens

/-- Settles O15: the codes of a length end by 2^length, and those of a longer length start past all they continue. -/
theorem codesArePrefixFree : Obligations.CodesArePrefixFree :=
  fun _ _ h => ⟨fun _ => code_lt_pow h, build_prefixFree h⟩

/-! ## BUILD -/

/-- BUILD of a table. -/
theorem exec_buildTable_some {lens : List (BitVec 4)} {x : Table} (h : build lens = some x) (t : TableSel) (s : State) :
    exec (.buildTable t lens) s = .next { s with block := s.block.setTable t (some x) } := by
  show execBuildTable t lens s = _
  rw [execBuildTable, State.buildInto, h, Res.settle_ok]

/-- BUILD of no table. -/
theorem exec_buildTable_none {lens : List (BitVec 4)} (h : build lens = none) (t : TableSel) (s : State) :
    exec (.buildTable t lens) s =
      .next (Claims.failAt { s with block := s.block.setTable t none } s.reader .invalidHuffmanTable) := by
  show execBuildTable t lens s = _
  rw [execBuildTable, State.buildInto, h, Res.settle_raise]
  rfl

theorem build_eq_none_iff (lens : List (BitVec 4)) : build lens = none ↔ 2 ^ 15 < kraftSum lens := by
  rw [build_eq, ite_eq_left_iff]
  simp only [reduceCtorEq, imp_false, not_not]

theorem build_of_kraftSum_le {lens : List (BitVec 4)} (h : kraftSum lens ≤ 2 ^ 15) :
    build lens = some (Claims.canonicalTable lens) := by rw [build_eq, if_neg (not_lt.2 h)]

/-- Settles O13: `left` goes negative exactly where the Kraft sum exceeds 1. -/
theorem oversubscribedBuildIsRefused : Obligations.OversubscribedBuildIsRefused :=
  fun lens => ⟨build_eq_none_iff lens, fun t s h => exec_buildTable_none ((build_eq_none_iff lens).2 h) t s⟩

/-- Settles O14: the assignment loop gives the canonical codes. -/
theorem buildAssignsCanonicalCodes : Obligations.BuildAssignsCanonicalCodes :=
  fun _ t s h => ⟨build_of_kraftSum_le h, exec_buildTable_some (build_of_kraftSum_le h) t s⟩

theorem kraftSum_replicate_zero (n : Nat) : kraftSum (List.replicate n 0) = 0 := by simp [kraftSum]

/-- Symbols without a length have no entry. -/
theorem canonicalTable_replicate_zero (n : Nat) : Claims.canonicalTable (List.replicate n 0) = [] :=
  List.filterMap_eq_nil_iff.2 fun s _ => if_pos (by simp)

/-- Settles O18: the Kraft sum of no length is 0, and no symbol has an entry. -/
theorem allZeroLengthsBuildTheEmptyTable : Obligations.AllZeroLengthsBuildTheEmptyTable := by
  intro n t s
  have h : build (List.replicate n 0) = some [] := by
    rw [build_of_kraftSum_le (by rw [kraftSum_replicate_zero]; omega), canonicalTable_replicate_zero]
  exact exec_buildTable_some h t s

end Sys2Proof.Machine
end

section
/-! PROOFS. DECODE (41_huffman R136, R137): a walk down the trie, one bit of the stream a node, and where it stops: at a code,
at an empty branch, or inside the trie where the input ends. -/

namespace Sys2Proof.Machine

/-! ## The value of code bits -/

theorem codeBits_length (c k : Nat) : (codeBits c k).length = k := by simp [codeBits]

/-- The first bits of a code are the code without its low bits. -/
theorem msbValue_codeBits_take {c j k : Nat} (hc : c < 2 ^ k) (hj : j ≤ k) :
    msbValue ((codeBits c k).take j) = c >>> (k - j) := by
  induction j with
  | zero => rw [Nat.sub_zero, Nat.shiftRight_eq_zero c k hc]; rfl
  | succ j ih =>
    have hlen : j < (codeBits c k).length := by rw [codeBits_length]; omega
    have hbit : (codeBits c k)[j] = c.testBit (k - (j + 1)) := by
      simp only [codeBits, List.getElem_map, List.getElem_range]
      congr 1; omega
    have hshift : c >>> (k - j) = c >>> (k - (j + 1)) / 2 := by
      rw [show k - j = k - (j + 1) + 1 by omega, Nat.shiftRight_succ]
    rw [List.take_succ_eq_append_getElem hlen, msbValue_concat, ih (by omega), hbit, hshift, Nat.toNat_testBit,
      ← Nat.shiftRight_eq_div_pow]
    omega

/-! ## The walk -/

/-- A decode whose next bits stay inside the trie goes on after them (41_huffman R136). -/
theorem Reader.decodeLoop_walk {t : Table} {bits more : List Bool} {c : List Bool} {fuel : Nat} {r : Reader}
    (hr : r.readable .lsb bits.length) (hb : r.bitsAhead .lsb = bits ++ more)
    (hi : ∀ j, j < bits.length → Claims.innerNode t (c ++ bits.take j)) :
    r.decodeLoop t (bits.length + fuel) (msbValue c) c.length =
      (r.advance .lsb bits.length).decodeLoop t fuel (msbValue (c ++ bits)) (c ++ bits).length := by
  induction bits generalizing c r with
  | nil => simp [Reader.advance_zero]
  | cons b bits ih =>
    have hc : Claims.innerNode t c := by simpa using hi 0 (Nat.succ_pos _)
    rw [List.length_cons, Nat.add_comm bits.length 1] at hr
    obtain ⟨hbit, hrest⟩ := Reader.takeBit_readable ⟨hr.1, by have := hr.2; omega⟩ hb
    have inner : ∀ j, j < bits.length → Claims.innerNode t ((c ++ [b]) ++ bits.take j) := by
      intro j hj
      have := hi (j + 1) (Nat.succ_lt_succ hj)
      rwa [List.take_succ_cons, List.append_cons] at this
    rw [List.length_cons, Nat.add_right_comm, Reader.decodeLoop_innerNode hc, hbit, Res.bind_ok, ← msbValue_concat,
      show c.length + 1 = (c ++ [b]).length by simp, ih (Reader.readable_advance hr) hrest inner, Reader.advance_advance,
      List.append_cons c b bits, Nat.add_comm 1]

/-- A decode comes to every node whose start lies inside the trie, and its fuel has not run out there. -/
theorem Reader.decodeSymbol_walk {t : Table} {bits more : List Bool} {r : Reader} (hr : r.readable .lsb bits.length)
    (hb : r.bitsAhead .lsb = bits ++ more) (hi : ∀ j, j < bits.length → Claims.innerNode t (bits.take j)) :
    ∃ fuel, r.decodeSymbol t = (r.advance .lsb bits.length).decodeLoop t (fuel + 1) (msbValue bits) bits.length := by
  have hfuel : bits.length ≤ longestCode t := by
    rcases Nat.eq_zero_or_pos bits.length with h0 | hpos
    · omega
    · obtain ⟨-, e, he, hlen, -⟩ := hi (bits.length - 1) (by omega)
      have := le_longestCode he
      rw [List.length_take] at hlen
      omega
  refine ⟨longestCode t - bits.length, ?_⟩
  rw [Reader.decodeSymbol, show longestCode t + 1 = bits.length + (longestCode t - bits.length + 1) by omega]
  exact Reader.decodeLoop_walk (c := []) hr hb hi

/-! ## The ends of the walk -/

/-- A code ends the decode with its symbol. -/
theorem Reader.decodeLoop_leaf {t : Table} {c k sym : Nat} (h : leafAt t c k = some sym) (fuel : Nat) (r : Reader) :
    r.decodeLoop t (fuel + 1) c k = .ok sym r := by
  rw [Reader.decodeLoop, h]

/-- An empty branch ends the decode with InvalidHuffmanTable, no further bit read (60_exceptions R224). -/
theorem Reader.decodeLoop_emptyBranch {t : Table} {c : List Bool} (h : Claims.emptyBranch t c) (fuel : Nat) (r : Reader) :
    r.decodeLoop t (fuel + 1) (msbValue c) c.length = .raise .invalidHuffmanTable r := by
  have hleaf : leafAt t (msbValue c) c.length = none := by
    refine Option.eq_none_iff_forall_ne_some.2 fun sym hsym => ?_
    obtain ⟨e, he, -, hlen, hcode⟩ := leafAt_some hsym
    exact h e he ⟨hlen.ge, by simp [hlen, hcode]⟩
  have hcont : ¬ continues t (msbValue c) c.length = true := by
    intro hc
    obtain ⟨e, he, hgoes⟩ := List.any_eq_true.1 hc
    rw [Bool.and_eq_true, decide_eq_true_iff, beq_iff_eq] at hgoes
    exact h e he ⟨hgoes.1.le, hgoes.2⟩
  rw [Reader.decodeLoop, hleaf, if_neg hcont]

/-- The end of the input inside the trie. -/
theorem Reader.decodeLoop_short {t : Table} {c : List Bool} {r : Reader} (h : Claims.innerNode t c) (hr : r.short .lsb 1)
    (fuel : Nat) : r.decodeLoop t (fuel + 1) (msbValue c) c.length = .raise .unexpectedEndOfInput r := by
  rw [Reader.decodeLoop_innerNode h, Reader.takeBit_short hr, Res.bind_raise]

/-! ## Codes of a table that is `PrefixFree` -/

/-- A code of a table that is `PrefixFree` is the leaf of its own symbol. -/
theorem leafAt_of_mem {t : Table} {e : Entry} (ht : PrefixFree t) (he : e ∈ t) : leafAt t e.code e.len = some e.sym := by
  cases hl : leafAt t e.code e.len with
  | none =>
    rw [leafAt, Option.map_eq_none_iff, List.find?_eq_none] at hl
    simpa using hl e he
  | some sym =>
    obtain ⟨f, hf, rfl, hlen, hcode⟩ := leafAt_some hl
    rw [ht f hf e he hlen.le (by simp [hlen, hcode])]

/-- The bits before the last of a code are inside the trie of a table that is `PrefixFree`. -/
theorem innerNode_take_codeBits {t : Table} {e : Entry} {j : Nat} (ht : PrefixFree t) (he : e ∈ t) (hc : e.code < 2 ^ e.len)
    (hj : j < e.len) : Claims.innerNode t ((codeBits e.code e.len).take j) := by
  have hlen : ((codeBits e.code e.len).take j).length = j := by rw [List.length_take, codeBits_length]; omega
  rw [Claims.innerNode, hlen, msbValue_codeBits_take hc hj.le]
  refine ⟨?_, e, he, hj, rfl⟩
  rintro f hf ⟨rfl, hcode⟩
  rw [ht f hf e he hj.le hcode.symm] at hj
  exact lt_irrefl _ hj

/-! ## DECODE -/

theorem exec_decodeSymbol_ok {sel : TableSel} {t : Table} {s : State} {sym : Nat} {r : Reader}
    (ht : s.block.table sel = some t) (h : s.reader.decodeSymbol t = .ok sym r) :
    exec (.decodeSymbol sel) s = .next { s with reader := r, block := { s.block with sym := BitVec.ofNat 9 sym } } := by
  show execDecodeSymbol sel s = _
  simp only [execDecodeSymbol, State.decodeInto, ht, h, State.withReader_ok, Res.bind_ok, Res.settle_ok]

theorem exec_decodeSymbol_raise {sel : TableSel} {t : Table} {s : State} {e : ErrKind} {r : Reader}
    (ht : s.block.table sel = some t) (h : s.reader.decodeSymbol t = .raise e r) :
    exec (.decodeSymbol sel) s = .next (Claims.failAt s r e) := by
  show execDecodeSymbol sel s = _
  simp only [execDecodeSymbol, State.decodeInto, ht, h, State.withReader_raise, Res.bind_raise, Res.settle_raise]
  rfl

/-- Settles O16: the bits before the last stay inside the trie, and the last ends at the code's own leaf. -/
theorem decodeFindsTheSymbol : Obligations.DecodeFindsTheSymbol := by
  intro sel lens t e rest s _ hbuild ht he ho hoff
  have hpf := build_prefixFree hbuild
  have hc := code_lt_pow hbuild he
  have hlen := codeBits_length e.code e.len
  obtain ⟨more, hmore⟩ := Reader.bitsOffered_append .lsb s.reader
  rw [hoff, List.append_assoc] at hmore
  obtain ⟨fuel, hwalk⟩ := Reader.decodeSymbol_walk (t := t) ⟨ho, by rw [hoff, List.length_append]; omega⟩ hmore
    fun j hj => innerNode_take_codeBits hpf he hc (hlen ▸ hj)
  have hvalue : msbValue (codeBits e.code e.len) = e.code := by
    have := msbValue_codeBits_take hc le_rfl
    rwa [List.take_of_length_le hlen.le, Nat.sub_self] at this
  rw [hlen, hvalue, Reader.decodeLoop_leaf (leafAt_of_mem hpf he)] at hwalk
  exact exec_decodeSymbol_ok ht hwalk

/-- Settles O17: the walk ends where the bits leave the trie, or where the input ends inside it. -/
theorem decodeLeavingEveryCode : Obligations.DecodeLeavingEveryCode := by
  intro sel t s ht
  refine ⟨fun k hr hi hempty => ?_, fun ha ho hp hi => ?_⟩
  · have hlen : ((s.reader.bitsAhead .lsb).take k).length = k := List.length_take_of_le hr.ahead
    obtain ⟨fuel, hwalk⟩ := Reader.decodeSymbol_walk (t := t) (hlen.symm ▸ hr) (List.take_append_drop k _).symm
      fun j hj => by rw [List.take_take, min_eq_left (hlen ▸ hj).le]; exact hi j (hlen ▸ hj)
    rw [Reader.decodeLoop_emptyBranch hempty, hlen] at hwalk
    exact exec_decodeSymbol_raise ht hwalk
  · have hr : s.reader.readable .lsb (s.reader.bitsAhead .lsb).length := ha.readable ho le_rfl
    obtain ⟨fuel, hwalk⟩ := Reader.decodeSymbol_walk (t := t) hr (List.append_nil _).symm fun j hj => hi j hj.le
    have hin : Claims.innerNode t (s.reader.bitsAhead .lsb) := by simpa using hi _ le_rfl
    obtain ⟨hshort, -⟩ := Reader.short_advance (n := 1) ⟨ha, ho, hp, Nat.lt_succ_self _⟩ le_rfl
    exact exec_decodeSymbol_raise ht (hwalk.trans (Reader.decodeLoop_short hin hshort fuel))

end Sys2Proof.Machine
end

section
/-! PROOFS. The two copies of the engine, run to their ends (42_deflate_block R159, R184), and what emits a byte or ends a block
without reading. -/

namespace Sys2Proof.Machine

/-! ## Steps and runs of the engine -/

/-- The engine's step where its phase makes a move with no instruction (43_mszip_frame R207). -/
theorem step_of_move {s : State} {o : Host.Outcome State Fault Refusal} (hal : s.engineAlone)
    (h : s.awake.fetchPhase = .move o) : step s = o := by
  rw [step_of_noTurn hal.1, State.engineStep, State.fetch_phase (s := s.awake) hal.2, h]

/-- The engine's step where its phase gives an instruction (43_mszip_frame R207). -/
theorem step_of_run {s u : State} {i : Instr} (hal : s.engineAlone) (h : s.awake.fetchPhase = .run i u) :
    step s = resume s.awake (exec i u) := by
  rw [step_of_noTurn hal.1, State.engineStep, State.fetch_phase (s := s.awake) hal.2, h]

/-- A run goes on from where its first part ends. -/
theorem run_append {M : Host.Core} {m : Nat} {s t : M.State} (h : M.run m s = .next t) (n : Nat) :
    M.run (m + n) s = M.run n t := by
  induction m generalizing s with
  | zero =>
    cases h
    rw [Nat.zero_add]
  | succ m ih =>
    rw [Nat.add_right_comm]
    simp only [Host.Core.run] at h ⊢
    cases hs : M.step s with
    | next u =>
      rw [hs] at h
      exact ih h
    | fault f => rw [hs] at h; cases h
    | refused r => rw [hs] at h; cases h

/-! ## The stored copy -/

theorem step_of_storedCopy {s : State} (hal : s.engineAlone) (hp : s.seq.phase = .storedCopy) :
    step s = s.awake.storedCopyStep.settle s.awake := by
  refine step_of_move hal ?_
  rw [State.fetchPhase, State.awake_seq, hp]

/-- A byte of a stored copy at the answered end of the input (42_deflate_block R159). -/
theorem step_storedCopy_end {s : State} (hal : s.engineAlone) (hp : s.seq.phase = .storedCopy) (hc : s.reader.ccount = 0)
    (hr : s.block.srem ≠ 0) (ha : s.reader.answered) (he : s.reader.pos = (s.reader.input.getD []).length) :
    step s = .next (s.awake.raise .unexpectedEndOfInput) := by
  have hx : s.awake.reader.readRawByte = .raise .unexpectedEndOfInput s.awake.reader := Reader.readRawByte_end ha hc he
  rw [step_of_storedCopy hal hp, State.storedCopyStep, State.awake_block, if_neg hr, hx]
  rfl

/-- Settles O25: the bytes offered are emitted one a step; where they end with the input, the next step finds no byte. -/
theorem storedCopyRuns : Obligations.StoredCopyRuns := by
  intro s hal hp hc
  refine ⟨fun hn => ?_, fun ha hin hlt => ?_⟩
  · have hsplit := (List.take_append_drop s.block.srem.toNat s.reader.bytesOffered).symm
    have hlen : (s.reader.bytesOffered.take s.block.srem.toNat).length = s.block.srem.toNat := List.length_take_of_le hn
    have hahead : s.reader.bytesAhead.take s.block.srem.toNat = s.reader.bytesOffered.take s.block.srem.toNat := by
      rw [Reader.bytesOffered_eq, List.length_take] at hn
      rw [Reader.bytesOffered_eq, List.take_take, min_eq_left (by omega)]
    obtain ⟨t, ht, -, htw, htr, -, htb, hts⟩ := run_storedCopy _ hal hp hc hsplit hlen.le
    rw [hlen] at ht htr htb
    rw [hahead]
    exact ⟨t, ht, htw, by rw [htw, emitAll_out], htr, by rw [htb]; simp, hts⟩
  · obtain ⟨t, ht, hta, htw, htr, -, htb, hts⟩ := run_storedCopy s.reader.bytesAhead (rest := []) hal hp hc
      (by rw [Reader.bytesOffered_answered ha, List.append_nil]) hlt.le
    have hend : t.reader = { s.reader with pos := (s.reader.input.getD []).length } := by
      rw [htr, Reader.bytesAhead, List.length_drop, Nat.add_sub_cancel' hin]
    have hr : t.block.srem ≠ 0 := by
      have := s.block.srem.isLt
      rw [htb]
      bv_omega
    have hstep : step t = .next (t.awake.raise .unexpectedEndOfInput) :=
      step_storedCopy_end hta (hts ▸ hp) (hend ▸ hc) hr (hend ▸ ha) (by rw [hend])
    refine ⟨_, (run_append ht 1).trans (core_run_succ hstep 0), htw, ?_, hend, ?_⟩
    · exact (congrArg Window.out htw).trans (emitAll_out _ _)
    · rw [State.raise_seq, State.awake_seq, hts]

/-! ## The match copy -/

theorem step_of_matchCopy {s : State} (hal : s.engineAlone) (hp : s.seq.phase = .matchCopy) :
    step s = s.awake.matchCopyStep.settle s.awake := by
  refine step_of_move hal ?_
  rw [State.fetchPhase, State.awake_seq, hp]

/-- A match copy with nothing left goes back to PAYLOAD (42_deflate_block R175). -/
theorem step_matchCopy_done {s : State} (hal : s.engineAlone) (hp : s.seq.phase = .matchCopy) (hr : s.block.mrem = 0) :
    step s = .next (s.awake.goto .payload) := by
  rw [step_of_matchCopy hal hp, State.matchCopyStep, State.awake_block, if_pos hr, Res.settle_ok]

/-- The state after one byte of a match copy (42_deflate_block R184). -/
def State.matchByte (b : Byte) (s : State) : State :=
  { s.awake with window := s.window.emit b, block := { s.block with mrem := s.block.mrem - 1 } }

/-- A byte of a match copy is the byte of OUT at distance mdist (42_deflate_block R184). -/
theorem step_matchCopy {s : State} (h : s.Inv) (hal : s.engineAlone) (hp : s.seq.phase = .matchCopy)
    (hr : s.block.mrem ≠ 0) :
    ∃ b, s.window.out[s.window.out.length - s.block.mdist.toNat]? = some b ∧ step s = .next (s.matchByte b) := by
  obtain ⟨-, -, h1, h2, -⟩ : s.block.phaseInv s.window.histValid.toNat .matchCopy := hp ▸ h.phase
  obtain ⟨b, hb, hx⟩ := State.matchCopyStep_eq (s := s.awake) h.window h1 h2 hr
  exact ⟨b, hb, by rw [step_of_matchCopy hal hp, hx]; rfl⟩

/-- The distance of a match copy lies inside OUT (42_deflate_block R183). -/
theorem State.Inv.mdist_range {s : State} (h : s.Inv) (hp : s.seq.phase = .matchCopy) :
    1 ≤ s.block.mdist.toNat ∧ s.block.mdist.toNat ≤ s.window.out.length := by
  obtain ⟨-, -, h1, h2, -⟩ : s.block.phaseInv s.window.histValid.toNat .matchCopy := hp ▸ h.phase
  obtain ⟨-, hmin, -⟩ := h.window
  exact ⟨h1, by omega⟩

/-- The `n` bytes a match copy of distance `d` emits after `out`: the last `d` of them, repeated (42_deflate_block R184). -/
def matchBytes (out : List Byte) (d n : Nat) : List Byte :=
  (List.range n).map fun j => out.getD (out.length - d + j % d) 0

theorem matchBytes_zero (out : List Byte) (d : Nat) : matchBytes out d 0 = [] := rfl

/-- The first byte of a match, and the others as a match after it with the same distance. -/
theorem matchBytes_succ {out : List Byte} {d : Nat} {b : Byte} (h1 : 1 ≤ d) (h2 : d ≤ out.length)
    (hb : out[out.length - d]? = some b) (n : Nat) :
    matchBytes out d (n + 1) = b :: matchBytes (out ++ [b]) d n := by
  rw [matchBytes, List.range_succ_eq_map, List.map_cons, List.map_map, Nat.zero_mod, Nat.add_zero, List.getD_eq_getElem?_getD,
    hb, Option.getD_some, matchBytes]
  congr 1
  refine List.map_congr_left fun j _ => ?_
  rw [Function.comp_apply, List.getD_eq_getElem?_getD, List.getD_eq_getElem?_getD, List.length_append,
    List.length_singleton]
  have hlt := Nat.mod_lt j h1
  rcases Nat.lt_or_ge (j % d + 1) d with hin | hwrap
  · have hmod : (j + 1) % d = j % d + 1 := by
      rw [Nat.add_mod, Nat.mod_eq_of_lt (show 1 < d by omega), Nat.mod_eq_of_lt hin]
    rw [Nat.succ_eq_add_one, hmod, List.getElem?_append_left (by omega)]
    congr 2
    omega
  · have hmod : (j + 1) % d = 0 := by
      rw [← Nat.mod_add_mod, show j % d + 1 = d by omega, Nat.mod_self]
    rw [Nat.succ_eq_add_one, hmod, Nat.add_zero, hb, show out.length + 1 - d + j % d = out.length by omega,
      List.getElem?_append_right le_rfl, Nat.sub_self]
    rfl

/-- A match copy runs to its end, by induction on the bytes left (42_deflate_block R184). -/
theorem run_matchCopy (n : Nat) {s : State} (h : s.Inv) (hal : s.engineAlone) (hp : s.seq.phase = .matchCopy)
    (hn : s.block.mrem.toNat = n) :
    ∃ t : State, Sys2Proof.core.run (n + 1) s = .next t ∧
      t.window = Claims.emitAll (matchBytes s.window.out s.block.mdist.toNat n) s.window ∧
      t.reader = s.reader ∧ t.block = { s.block with mrem := 0 } ∧ t.seq = { s.seq with phase := .payload } := by
  induction n generalizing s with
  | zero =>
    have hr : s.block.mrem = 0 := BitVec.eq_of_toNat_eq hn
    refine ⟨_, core_run_succ (step_matchCopy_done hal hp hr) 0, rfl, rfl, ?_, rfl⟩
    rw [← hr]; rfl
  | succ n ih =>
    have hr : s.block.mrem ≠ 0 := fun hz => by simp [hz] at hn
    obtain ⟨h1, h2⟩ := h.mdist_range hp
    obtain ⟨b, hb, hs⟩ := step_matchCopy h hal hp hr
    have hsub : (s.block.mrem - 1).toNat = n := by bv_omega
    obtain ⟨t, ht, htw, htr, htb, hts⟩ := ih (everyStepKeepsTheInvariant s _ h hs) hal hp hsub
    refine ⟨t, (core_run_succ hs _).trans ht, ?_, htr, htb, hts⟩
    rw [matchBytes_succ h1 h2 hb, htw]
    rfl

/-- Settles O37, by `run_matchCopy`. -/
theorem matchCopyRuns : Obligations.MatchCopyRuns := by
  intro s h hal hp
  obtain ⟨t, ht, htw, htr, htb, hts⟩ := run_matchCopy _ h hal hp rfl
  exact ⟨t, ht, htw, (congrArg Window.out htw).trans (emitAll_out _ _), htr, htb, hts⟩

/-! ## The ends of the copies -/

theorem exec_eob (s : State) : exec .eob s = .next s.endOfBlock := rfl

/-- Settles O26: with nothing left to copy neither copy comes to its read. -/
theorem copyEnds : Obligations.CopyEnds := by
  refine fun s hal => ⟨fun hp hr => ?_, step_matchCopy_done hal⟩
  rw [step_of_storedCopy hal hp, State.storedCopyStep, State.awake_block, if_pos hr, exec_eob, Res.settle_ok]

/-- Settles O27, by BFINAL. -/
theorem endOfBlock : Obligations.EndOfBlock := by
  intro s
  rw [exec_eob, State.endOfBlock]
  cases s.block.bfinal <;> rfl

/-! ## Emit -/

/-- hist_valid after an Emit, with no premise: one more, at most 32768 (20_memory R64). -/
theorem Window.toNat_emit_histValid (b : Byte) (w : Window) :
    (w.emit b).histValid.toNat = min (w.histValid.toNat + 1) histSize := by
  rcases Nat.lt_or_ge w.histValid.toNat histSize with hlt | hge
  · exact Window.emit_histValid b hlt.le
  · rw [Window.emit, if_neg (Nat.not_lt.2 hge), min_eq_right (by omega)]
    rfl

/-- Settles O32: the history by the laws of a read after a write, the counters by their widths. -/
theorem literalEmits : Obligations.LiteralEmits := fun b s =>
  ⟨s.emit b, rfl, rfl, rfl, rfl, rfl, rfl, BitVec.toNat_add _ _, BitVec.toNat_add _ _, memoryRead_write_same _ _ _,
    fun _ ha => memoryRead_write_other b ha, BitVec.toNat_add _ _, Window.toNat_emit_histValid b _⟩

/-- Settles O33: neither reserved symbol reads or emits. -/
theorem reservedSymbolsRaise : Obligations.ReservedSymbolsRaise := fun _ _ => ⟨rfl, rfl⟩

end Sys2Proof.Machine
end

section
/-! PROOFS. The tokens that read extra bits: runs of code lengths (42_deflate_block R164 to R168), the length and the distance of
a match (R180 to R183); and the tables built once the code lengths are filled (R169). -/

namespace Sys2Proof.Machine

/-! ## Code lengths -/

theorem filled_eq_fillLens (lens : Vector (BitVec 4) 320) (at0 r : Nat) (v : BitVec 4) :
    Claims.filled lens at0 r v = fillLens v r at0 lens := (fillLens_eq_ofFn v r at0 lens).symm

/-- Settles O29: one entry at li. -/
theorem codeLengthLiteral : Obligations.CodeLengthLiteral := by
  intro v s h
  show execClLit v s = _
  rw [execClLit, State.appendLens_ok (by omega), Res.settle_ok, filled_eq_fillLens,
    show s.block.li + 1 = BitVec.ofNat 9 (s.block.li.toNat + 1) by bv_omega]

/-- Extra bits are read from the reader alone: what follows sees the block as it was. -/
theorem State.readExtra_bind_congr {α : Type} {base e : Nat} {s : State} {k k' : Nat → State → Res State α}
    (h : ∀ v r, k v { s with reader := r } = k' v { s with reader := r }) :
    (s.readExtra base e).bind k = (s.readExtra base e).bind k' := by
  unfold State.readExtra
  cases s.reader.readBitsLsb e with
  | ok v r => exact h _ r
  | raise x r => rfl
  | wait => rfl
  | fault f => rfl

/-- A run token is its extra bits and RunFill of the value it repeats (42_deflate_block R165 to R168). -/
theorem exec_runRows {row : Instr × Nat × Nat} {s : State} (hrow : row ∈ Claims.runRows)
    (hli : row.1 = .clRep → s.block.li ≠ 0) (hin : s.block.li.toNat ≤ 320) :
    exec row.1 s =
      ((s.readExtra row.2.1 row.2.2).bind fun r s1 => s1.runFill (Claims.runValue row.1 s.block) r).settle s := by
  simp only [Claims.runRows, List.mem_cons, List.not_mem_nil, or_false] at hrow
  rcases hrow with rfl | rfl | rfl
  · have hprev : s.block.li.toNat - 1 < 320 := by omega
    show execClRep s = _
    rw [execClRep, if_neg (hli rfl)]
    refine congrArg (Res.settle · s) (State.readExtra_bind_congr fun r rd => ?_)
    simp [State.repeatPrevious, Claims.runValue, hprev]
  · rfl
  · rfl

theorem runRows_extra_le {row : Instr × Nat × Nat} (h : row ∈ Claims.runRows) : row.2.2 ≤ 16 := by
  revert row; decide

/-- Settles O30: CL_REP with li = 0 reads nothing; every other run is its extra bits and RunFill. -/
theorem codeLengthRuns : Obligations.CodeLengthRuns := by
  intro row hrow s
  have he := runRows_extra_le hrow
  refine ⟨fun h0 hz => ?_, fun hli hle hmax => ⟨fun hr hfit => ?_, fun hr hover => ?_, fun hs => ?_⟩⟩
  · rw [h0]
    show execClRep s = _
    rw [execClRep, if_pos hz]
    rfl
  · have hfit' : s.block.li.toNat + (row.2.1 + s.reader.field row.2.2) ≤ s.block.lensTotal := hfit
    rw [exec_runRows hrow hli (hle.trans hmax), State.readExtra_readable he hr, Res.bind_ok,
      State.runFill_ok (s := { s with reader := s.reader.advance .lsb row.2.2 }) hfit' (hfit'.trans hmax), filled_eq_fillLens]
    rfl
  · have hover' : s.block.lensTotal < s.block.li.toNat + (row.2.1 + s.reader.field row.2.2) := hover
    rw [exec_runRows hrow hli (hle.trans hmax), State.readExtra_readable he hr, Res.bind_ok,
      State.runFill_overflow (s := { s with reader := s.reader.advance .lsb row.2.2 }) hover']
    rfl
  · rw [exec_runRows hrow hli (hle.trans hmax), State.readExtra_short he hs]
    rfl

/-! ## The payload tables -/

/-- Both payload tables built from lengths that are not over-subscribed (42_deflate_block R169, R170). -/
theorem State.buildPayloadTables_ok {ll d : List (BitVec 4)} {x y : Table} (hx : build ll = some x) (hy : build d = some y)
    (s : State) :
    s.buildPayloadTables ll d = .ok () { s with
      block := { s.block with tLl := some x, tD := some y }, seq := { s.seq with phase := .payload } } := by
  rw [State.buildPayloadTables, State.buildInto, hx, Res.bind_ok, State.buildInto, hy]
  rfl

/-- Payload tables of which one is over-subscribed (41_huffman R133). -/
theorem State.buildPayloadTables_raises {ll d : List (BitVec 4)} (h : build ll = none ∨ build d = none) (s : State) :
    ∃ u, s.buildPayloadTables ll d = .raise .invalidHuffmanTable u ∧ u.reader = s.reader ∧ u.window = s.window ∧
      u.seq = s.seq := by
  have hm := s.buildPayloadTables_meets ll d
  cases hx : s.buildPayloadTables ll d with
  | ok _ u =>
    rw [hx] at hm
    obtain ⟨x, y, hll, hd, -⟩ := hm
    rcases h with h | h
    · rw [h] at hll; cases hll
    · rw [h] at hd; cases hd
  | raise e u =>
    rw [hx] at hm
    obtain ⟨rfl, hr, hw, hs, -⟩ := hm
    exact ⟨u, rfl, hr, hw, hs⟩
  | wait => rw [hx] at hm; exact hm.elim
  | fault f => rw [hx] at hm; exact hm.elim

/-- DYN_TABLES, once the announced entries are filled (42_deflate_block R169). -/
theorem step_of_lensFilled {s : State} (hal : s.engineAlone) (hp : s.seq.phase = .dynLens)
    (hli : s.block.lensTotal ≤ s.block.li.toNat) : step s = s.awake.dynTables.settle s.awake := by
  refine step_of_move hal ?_
  rw [State.fetchPhase, State.awake_seq, hp]
  exact if_neg (Nat.not_lt.2 hli)

/-- Settles O31: both builds answer, or one of them raises. -/
theorem dynamicTablesStep : Obligations.DynamicTablesStep := by
  intro s hal hp hli
  rw [step_of_lensFilled hal hp hli]
  refine ⟨fun hll hd => ?_, fun hover => ?_⟩
  · have hx : build s.awake.block.llArray = some _ := build_of_kraftSum_le hll
    have hy : build s.awake.block.dArray = some _ := build_of_kraftSum_le hd
    rw [State.dynTables, State.buildPayloadTables_ok hx hy]
    rfl
  · obtain ⟨u, hu, hr, hw, hs⟩ := State.buildPayloadTables_raises
      (hover.imp (build_eq_none_iff _).2 (build_eq_none_iff _).2) s.awake
    refine ⟨u.raise .invalidHuffmanTable, ?_, hr, hw, ?_⟩
    · exact congrArg (Res.settle · s.awake) hu
    · rw [State.raise_seq, hs, State.awake_seq]

/-! ## The two halves of a match -/

theorem State.matchLength_short {base e : Nat} {s : State} (he : e ≤ 16) (h : s.reader.short .lsb e) :
    s.matchLength base e = .raise .unexpectedEndOfInput { s with reader := s.reader.drained .lsb } := by
  rw [State.matchLength, State.readExtra_short he h, Res.bind_raise]

theorem State.matchDistance_short {base e : Nat} {s : State} (he : e ≤ 16) (h : s.reader.short .lsb e) :
    s.matchDistance base e = .raise .unexpectedEndOfInput { s with reader := s.reader.drained .lsb } := by
  rw [State.matchDistance, State.readExtra_short he h, Res.bind_raise]

/-- Settles O34: each row is the length half of a match, its range that of the table. -/
theorem lengthSymbols : Obligations.LengthSymbols := by
  intro row hrow s
  obtain ⟨he, hlo, hhi⟩ := lengthRows_range hrow
  have hf : lsbValue ((s.reader.bitsAhead .lsb).take row.2.2) < 2 ^ row.2.2 := Reader.field_lt _ _
  refine ⟨fun hr => ⟨by omega, by omega, ?_⟩, fun hs => ?_⟩
  · rw [exec_lengthRows hrow, State.matchLength_readable he hr]
    rfl
  · rw [exec_lengthRows hrow, State.matchLength_short he hs]
    rfl

/-- Settles O35: each row is the distance half of a match, its range that of the table. -/
theorem distanceSymbols : Obligations.DistanceSymbols := by
  intro row hrow s
  obtain ⟨he, hlo, hhi⟩ := distanceRows_range hrow
  have hf : lsbValue ((s.reader.bitsAhead .lsb).take row.2.2) < 2 ^ row.2.2 := Reader.field_lt _ _
  refine ⟨fun hr => ⟨by omega, by omega, ?_⟩, fun hs => ?_⟩
  · rw [exec_distanceRows hrow, State.matchDistance_readable he hr (by omega)]
    by_cases hd : row.2.1 + lsbValue ((s.reader.bitsAhead .lsb).take row.2.2) ≤ s.window.histValid.toNat
    · rw [if_pos hd, Reader.field, if_neg (Nat.not_lt.2 hd)]
      rfl
    · rw [if_neg hd, Reader.field, if_pos (Nat.not_le.1 hd)]
      rfl
  · rw [exec_distanceRows hrow, State.matchDistance_short he hs]
    rfl

end Sys2Proof.Machine
end

section
/-! PROOFS. The fixed tables (42_deflate_block R170) and the block header that selects how a block's tables are made (R150 to
R152). -/

namespace Sys2Proof.Machine

/-! ## The fixed codes -/

theorem lengthCount_replicate {len : Nat} (h : len ≠ 0) (n : Nat) (l : BitVec 4) :
    lengthCount (List.replicate n l) len = if l.toNat = len then n else 0 := by
  simp [lengthCount, h, List.countP_replicate]

/-- A table in which every symbol has a code. -/
theorem canonicalTable_eq_map {lens : List (BitVec 4)} {f : Nat → Entry}
    (h : ∀ s, s < lens.length → canonicalEntry lens s = some (f s)) :
    Claims.canonicalTable lens = (List.range lens.length).map f := by
  rw [Claims.canonicalTable, ← List.filterMap_eq_map]
  exact List.filterMap_congr fun s hs => h s (List.mem_range.1 hs)

theorem canonicalEntry_of_getD {lens : List (BitVec 4)} {s k : Nat} {l : BitVec 4} (h : lens.getD s 0 = l) (hl : l.toNat = k)
    (hk : k ≠ 0) :
    canonicalEntry lens s = some { code := firstCode lens k + lengthCount (lens.take s) k, len := k, sym := s } := by
  subst h hl
  have h0 : lens.getD s 0 ≠ 0 := fun hz => hk (by rw [hz]; rfl)
  rw [canonicalEntry, if_neg h0, canonicalCode_eq hk, nextCode]

/-- How many of the first `s` fixed lengths are `len` (30_encoding R91). -/
theorem lengthCount_take_fixedLl {len : Nat} (h : len ≠ 0) (s : Nat) :
    lengthCount (fixedLlLens.take s) len =
      (if 8 = len then min s 144 + min (s - 280) 8 else 0) + (if 9 = len then min (s - 144) 112 else 0) +
        (if 7 = len then min (s - 256) 24 else 0) := by
  simp only [fixedLlLens, List.take_append, lengthCount_append, List.take_replicate, lengthCount_replicate h,
    List.length_append, List.length_replicate, show (8 : BitVec 4).toNat = 8 from rfl, show (9 : BitVec 4).toNat = 9 from rfl,
    show (7 : BitVec 4).toNat = 7 from rfl]
  split_ifs <;> omega

theorem lengthCount_fixedLl {len : Nat} (h : len ≠ 0) :
    lengthCount fixedLlLens len = (if 8 = len then 152 else 0) + (if 9 = len then 112 else 0) + (if 7 = len then 24 else 0) := by
  have := lengthCount_take_fixedLl h 288
  rwa [List.take_of_length_le fixedLlLens_length.le] at this

theorem firstCode_fixedLl_low {len : Nat} (h : len ≤ 7) : firstCode fixedLlLens len = 0 := by
  induction len with
  | zero => rfl
  | succ len ih =>
    rcases Nat.eq_zero_or_pos len with rfl | hpos
    · rfl
    · have hcount : lengthCount fixedLlLens len = 0 := by
        rw [lengthCount_fixedLl (by omega), if_neg (by omega), if_neg (by omega), if_neg (by omega)]
      rw [firstCode, ih (by omega), hcount]

theorem firstCode_fixedLl_eight : firstCode fixedLlLens 8 = 0x30 := by
  rw [firstCode, firstCode_fixedLl_low le_rfl, lengthCount_fixedLl (by decide)]
  rfl

theorem firstCode_fixedLl_nine : firstCode fixedLlLens 9 = 0x190 := by
  rw [firstCode, firstCode_fixedLl_eight, lengthCount_fixedLl (by decide)]
  rfl

theorem fixedLlLens_getD {s : Nat} (h : s < 288) :
    fixedLlLens.getD s 0 = if s < 144 then 8 else if s < 256 then 9 else if s < 280 then 7 else 8 := by
  simp only [fixedLlLens, List.getD_eq_getElem?_getD, List.getElem?_append, List.getElem?_replicate, List.length_append,
    List.length_replicate]
  split_ifs <;> simp <;> omega

/-- The fixed literal/length codes are those R91 lists. -/
theorem canonicalTable_fixedLl : Claims.canonicalTable fixedLlLens = Claims.fixedLlTable := by
  refine (canonicalTable_eq_map fun s hs => ?_).trans (by rw [fixedLlLens_length]; rfl)
  rw [fixedLlLens_length] at hs
  have hl := fixedLlLens_getD hs
  split_ifs at hl ⊢ with h1 h2 h3
  · rw [canonicalEntry_of_getD (k := 8) hl rfl (by decide), firstCode_fixedLl_eight, lengthCount_take_fixedLl (by decide)]
    simp
    omega
  · rw [canonicalEntry_of_getD (k := 9) hl rfl (by decide), firstCode_fixedLl_nine, lengthCount_take_fixedLl (by decide)]
    simp
    omega
  · rw [canonicalEntry_of_getD (k := 7) hl rfl (by decide), firstCode_fixedLl_low le_rfl, lengthCount_take_fixedLl (by decide)]
    simp
    omega
  · rw [canonicalEntry_of_getD (k := 8) hl rfl (by decide), firstCode_fixedLl_eight, lengthCount_take_fixedLl (by decide)]
    simp
    omega

theorem build_fixedLl : build fixedLlLens = some Claims.fixedLlTable := by
  have hk : kraftSum fixedLlLens = 2 ^ 15 := by
    simp only [kraftSum, fixedLlLens, List.map_append, List.map_replicate, List.sum_append, List.sum_replicate]
    rfl
  rw [build_of_kraftSum_le hk.le, canonicalTable_fixedLl]

theorem build_fixedD : build fixedDLens = some Claims.fixedDTable := rfl

/-- Settles O22: the fixed lengths are not over-subscribed, and their canonical codes are the ones listed. -/
theorem fixedBlockTables : Obligations.FixedBlockTables := by
  intro f s
  show execBtypeFixed f s = _
  rw [execBtypeFixed, State.buildPayloadTables_ok build_fixedLl build_fixedD]
  rfl

/-- Settles O21: three headers read nothing more. -/
theorem blockTypeDispatch : Obligations.BlockTypeDispatch := fun _ _ => ⟨rfl, rfl, rfl⟩

/-! ## Fields next to each other -/

theorem Reader.readable.mono {o : BitOrder} {m n : Nat} {r : Reader} (h : r.readable o n) (hmn : m ≤ n) : r.readable o m :=
  ⟨h.1, hmn.trans h.2⟩

theorem lsbValue_append (a b : List Bool) : lsbValue (a ++ b) = lsbValue a + 2 ^ a.length * lsbValue b := by
  induction a with
  | nil => simp [lsbValue]
  | cons x a ih =>
    have hcons (l : List Bool) : lsbValue (x :: l) = x.toNat + 2 * lsbValue l := rfl
    rw [List.cons_append, hcons, hcons, ih, List.length_cons, Nat.pow_succ]
    ring

/-- The field after `m` bits were read. -/
theorem Reader.field_advance {m : Nat} {r : Reader} (h : r.readable .lsb m) (n : Nat) :
    (r.advance .lsb m).field n = lsbValue (((r.bitsAhead .lsb).drop m).take n) := by
  rw [Reader.field, Reader.bitsAhead_advance h]

/-- A field of `m + n` bits is its first `m` and the `n` after them. -/
theorem Reader.field_add {m : Nat} {r : Reader} (h : r.readable .lsb m) (n : Nat) :
    r.field (m + n) = r.field m + 2 ^ m * (r.advance .lsb m).field n := by
  rw [Reader.field_advance h, Reader.field, Reader.field, List.take_add, lsbValue_append, List.length_take_of_le h.ahead]

/-- A read of `m + n` bits on an input that ends inside it: in the first `m`, or after them. -/
theorem Reader.short_split {o : BitOrder} {m n : Nat} {r : Reader} (h : r.short o (m + n)) :
    r.short o m ∨ (r.readable o m ∧ (r.advance o m).short o n ∧ (r.advance o m).drained o = r.drained o) := by
  rcases Nat.lt_or_ge (r.bitsAhead o).length m with hlt | hge
  · exact .inl ⟨h.1, h.2.1, h.2.2.1, hlt⟩
  · exact .inr ⟨h.1.readable h.2.1 hge, Reader.short_advance h hge⟩

/-! ## An input that ends inside a token -/

/-- The operation finds the input ended: UnexpectedEndOfInput with every bit of it consumed, and neither the window nor the
sequencer changed (40_bitreader R120). -/
def State.RunsOut {α : Type} (s : State) (x : Res State α) : Prop :=
  ∃ u, x = .raise .unexpectedEndOfInput u ∧ u.reader = s.reader.drained .lsb ∧ u.window = s.window ∧ u.seq = s.seq

theorem State.RunsOut.bind {α β : Type} {s : State} {x : Res State α} (h : s.RunsOut x) (k : α → State → Res State β) :
    s.RunsOut (x.bind k) := by
  obtain ⟨u, rfl, hu⟩ := h
  exact ⟨u, rfl, hu⟩

/-- The same seen from a state before it, whose input ends at the same place. -/
theorem State.RunsOut.before {α : Type} {s u : State} {x : Res State α} (h : u.RunsOut x)
    (hr : u.reader.drained .lsb = s.reader.drained .lsb) (hw : u.window = s.window) (hs : u.seq = s.seq) : s.RunsOut x := by
  obtain ⟨t, hx, htr, htw, hts⟩ := h
  exact ⟨t, hx, htr.trans hr, htw.trans hw, hts.trans hs⟩

/-- A token that runs out is error entry (60_exceptions R222). -/
theorem State.RunsOut.settle {s : State} {x : Res State Unit} (h : s.RunsOut x) (s0 : State) :
    ∃ t, x.settle s0 = .next t ∧ t.reader = s.reader.drained .lsb ∧ t.window = s.window ∧
      t.seq = { s.seq with err := some .unexpectedEndOfInput, phase := .error } := by
  obtain ⟨u, rfl, hr, hw, hs⟩ := h
  exact ⟨_, rfl, hr, hw, by rw [State.raise_seq, hs]⟩

theorem State.readBitsLsb_runsOut {n : Nat} {s : State} (hn : n ≤ 16) (h : s.reader.short .lsb n) :
    s.RunsOut (s.withReader (s.reader.readBitsLsb n)) := by
  rw [Reader.readBitsLsb_short hn h]
  exact ⟨_, rfl, rfl, rfl, rfl⟩

/-- A field of `m` bits and what follows it, on an input that ends inside the `m + n` bits of both. -/
theorem State.RunsOut.afterBits {α : Type} {m n : Nat} {s : State} {k : Half → State → Res State α} (hm : m ≤ 16)
    (h : s.reader.short .lsb (m + n))
    (hk : ∀ v, (s.reader.advance .lsb m).short .lsb n →
      ({ s with reader := s.reader.advance .lsb m } : State).RunsOut (k v { s with reader := s.reader.advance .lsb m })) :
    s.RunsOut ((s.withReader (s.reader.readBitsLsb m)).bind k) := by
  rcases Reader.short_split h with h | ⟨hr, h, hd⟩
  · exact (State.readBitsLsb_runsOut hm h).bind _
  · rw [Reader.readBitsLsb_readable hm hr, State.withReader_ok, Res.bind_ok]
    exact (hk _ h).before hd rfl rfl

/-! ## The block header -/

/-- BFINAL and BTYPE put together are the three bits of the header, and BFINAL the first of them. -/
theorem headerBits {a b : Nat} (ha : a < 2) (hb : b < 4) :
    BitVec.ofNat 16 a ||| (BitVec.ofNat 16 b <<< 1) = BitVec.ofNat 16 (a + 2 * b) ∧
      (BitVec.ofNat 16 a != 0) = ((a + 2 * b) % 2 == 1) := by
  interval_cases a <;> interval_cases b <;> exact ⟨rfl, rfl⟩

/-- The state after the three bits of a block header (42_deflate_block R150). -/
def State.afterHeader (s : State) : State :=
  { s with reader := s.reader.advance .lsb 3, block := { s.block with bfinal := s.reader.field 3 % 2 == 1 } }

/-- The header's bits, where they can be read (42_deflate_block R150). -/
theorem State.readHeader_readable {s : State} (h : s.reader.readable .lsb 3) :
    s.readHeader = .ok (BitVec.ofNat 16 (s.reader.field 3)) s.afterHeader := by
  have h1 : s.reader.readable .lsb 1 := h.mono (by decide)
  have h2 : (s.reader.advance .lsb 1).readable .lsb 2 := Reader.readable_advance h
  obtain ⟨hbits, hfinal⟩ := headerBits (Reader.field_lt 1 s.reader) (Reader.field_lt 2 (s.reader.advance .lsb 1))
  rw [State.afterHeader, Reader.field_add h1 2, pow_one, State.readHeader, Reader.readBitsLsb_readable (by decide) h1,
    State.withReader_ok, Res.bind_ok]
  dsimp only
  rw [Reader.readBitsLsb_readable (by decide) h2, State.withReader_ok, Res.bind_ok, hbits, hfinal, Reader.advance_advance]

theorem State.readHeader_runsOut {s : State} (h : s.reader.short .lsb 3) : s.RunsOut s.readHeader :=
  .afterBits (m := 1) (n := 2) (by decide) h fun _ h =>
    (State.readBitsLsb_runsOut (s := { s with reader := _, block := _ }) (by decide) h).bind _

/-- The instruction of the header bits `h` (30_encoding R82). -/
def headerInstr (h : Nat) : Instr :=
  if h / 2 = 0 then .btypeStored (h % 2 == 1)
  else if h / 2 = 1 then .btypeFixed (h % 2 == 1)
  else if h / 2 = 2 then .btypeDynamic (h % 2 == 1)
  else .btypeReserved (h % 2 == 1)

theorem decode_blkHdr_eq {h : Nat} (hlt : h < 8) : decode .blkHdr h = .ok (headerInstr h) := by
  interval_cases h <;> rfl

/-- The dispatch on BTYPE (42_deflate_block R151). -/
theorem exec_headerInstr (h : Nat) (s : State) :
    exec (headerInstr h) s =
      if h / 2 = 0 then exec (.btypeStored (h % 2 == 1)) s
      else if h / 2 = 1 then exec (.btypeFixed (h % 2 == 1)) s
      else if h / 2 = 2 then exec (.btypeDynamic (h % 2 == 1)) s
      else exec (.btypeReserved (h % 2 == 1)) s := by
  simp only [headerInstr, apply_ite (fun i => exec i s)]

/-- No block type reads, so none waits. -/
theorem exec_headerInstr_port (h : Nat) (s : State) : ∃ t, exec (headerInstr h) s = .next t ∧ t.port = s.port := by
  rw [exec_headerInstr]
  split_ifs
  · exact ⟨_, rfl, rfl⟩
  · exact ⟨_, fixedBlockTables _ _, rfl⟩
  · exact ⟨_, rfl, rfl⟩
  · exact ⟨_, rfl, rfl⟩

/-- An instruction that ends with no wait ends its step. -/
theorem resume_of_awake {s0 t : State} (h : t.port.waiting = false) : resume s0 (.next t) = .next t := by
  simp only [resume, h, Bool.false_eq_true, if_false]

theorem step_of_header {s : State} (hal : s.engineAlone) (hp : s.seq.phase = .blkHdr) (h : s.reader.readable .lsb 3) :
    step s = exec (headerInstr (s.reader.field 3)) s.awake.afterHeader := by
  have hlt := Reader.field_lt 3 s.reader
  have hf : s.awake.fetchPhase = .run (headerInstr (s.reader.field 3)) s.awake.afterHeader := by
    simp only [State.fetchPhase, State.awake_seq, hp, State.fetchHeader, State.readHeader_readable (s := s.awake) h,
      State.awake_reader, BitVec.toNat_ofNat, Nat.mod_eq_of_lt (show s.reader.field 3 < 2 ^ 16 by omega),
      decode_blkHdr_eq hlt]
  obtain ⟨t, ht, hport⟩ := exec_headerInstr_port (s.reader.field 3) s.awake.afterHeader
  rw [step_of_run hal hf, ht, resume_of_awake (by rw [hport]; rfl)]

/-- Settles O23: the three bits are read in two fields, and their instruction runs at once. -/
theorem headerStep : Obligations.HeaderStep := by
  refine fun s hal hp => ⟨fun h => ?_, fun h => ?_⟩
  · exact (step_of_header hal hp h).trans (exec_headerInstr _ _)
  · obtain ⟨u, hu, hr, hw, hs⟩ := State.readHeader_runsOut (s := s.awake) h
    refine ⟨u.raise .unexpectedEndOfInput, step_of_move hal ?_, hr, hw, by rw [State.raise_seq, hs, State.awake_seq]⟩
    simp only [State.fetchPhase, State.awake_seq, hp, State.fetchHeader, hu]

end Sys2Proof.Machine
end

section
/-! PROOFS. The stored header and the dynamic header (42_deflate_block R155 to R158, R160 to R162): the fields they read, and an
input that ends inside them. -/

namespace Sys2Proof.Machine

/-! ## Raw fields -/

/-- A raw field whose two bytes are offered, and what is offered after it (42_deflate_block R156). -/
theorem Reader.readRawHalf_of_offered {r : Reader} {b0 b1 : Byte} {rest : List Byte} (hc : r.ccount = 0)
    (h : r.bytesOffered = b0 :: b1 :: rest) :
    r.readRawHalf = .ok (b1 ++ b0) { r with pos := r.pos + 2 } ∧ ({ r with pos := r.pos + 2 } : Reader).bytesOffered = rest := by
  obtain ⟨-, h0, h'⟩ := Reader.bytesOffered_cons h
  obtain ⟨hg, h1, hrest⟩ := Reader.bytesOffered_cons h'
  exact ⟨Reader.readRawHalf_some hg hc h0 h1, hrest⟩

/-- A raw field at the answered end of the input: none or one of its bytes is read (42_deflate_block R156). -/
theorem Reader.readRawHalf_short {r : Reader} (hc : r.ccount = 0) (ha : r.answered) (hp : r.pos ≤ (r.input.getD []).length)
    (hl : r.bytesAhead.length < 2) :
    r.readRawHalf = .raise .unexpectedEndOfInput { r with pos := r.pos + r.bytesAhead.length } := by
  have hlen : r.bytesAhead.length = (r.input.getD []).length - r.pos := List.length_drop
  rw [Reader.readRawHalf]
  cases hb : r.bytesOffered with
  | nil =>
    rw [Reader.bytesOffered_answered ha] at hb
    rw [hb, List.length_nil] at hlen ⊢
    rw [Reader.readRawByte_end ha hc (by omega), Res.bind_raise]
    rfl
  | cons b rest =>
    rw [Reader.readRawByte_offered hc hb, Res.bind_ok]
    rw [Reader.bytesOffered_answered ha] at hb
    obtain rfl : rest = [] := List.eq_nil_of_length_eq_zero (by rw [hb, List.length_cons] at hl; omega)
    rw [hb, List.length_singleton] at hlen ⊢
    rw [Reader.readRawByte_end (r := { r with pos := r.pos + 1 }) ha hc (by simp only; omega), Res.bind_raise]

/-- A raw field read, and a second one at the answered end of the input (42_deflate_block R156). -/
theorem Reader.readRawHalf_twice_short {r : Reader} {b0 b1 : Byte} {rest : List Byte} (hc : r.ccount = 0) (ha : r.answered)
    (hp : r.pos ≤ (r.input.getD []).length) (hb : r.bytesAhead = b0 :: b1 :: rest) (hl : rest.length < 2) :
    r.readRawHalf = .ok (b1 ++ b0) { r with pos := r.pos + 2 } ∧
      ({ r with pos := r.pos + 2 } : Reader).readRawHalf =
        .raise .unexpectedEndOfInput { r with pos := r.pos + r.bytesAhead.length } := by
  obtain ⟨h1, hrest⟩ := Reader.readRawHalf_of_offered hc ((Reader.bytesOffered_answered ha).trans hb)
  have hahead : ({ r with pos := r.pos + 2 } : Reader).bytesAhead = rest :=
    (Reader.bytesOffered_answered (r := { r with pos := r.pos + 2 }) ha).symm.trans hrest
  have hlen : r.bytesAhead.length = (r.input.getD []).length - r.pos := List.length_drop
  rw [hb, List.length_cons, List.length_cons] at hlen
  have h2 := Reader.readRawHalf_short (r := { r with pos := r.pos + 2 }) hc ha (by simp only; omega) (by rw [hahead]; exact hl)
  refine ⟨h1, h2.trans ?_⟩
  rw [hahead, hb, List.length_cons, List.length_cons, Nat.add_assoc r.pos, Nat.add_comm 2]

/-! ## The stored header -/

/-- R157's check with the complement written as the statement writes it. -/
theorem Sequencer.checkNlen_eq (len nlen : Half) (q : Sequencer) :
    q.checkNlen len nlen = { q with nlenMismatch := q.nlenMismatch || (q.strict && nlen != (~~~len &&& 0xFFFF)) } := by
  have hmask : ~~~len &&& 0xFFFF = ~~~len := BitVec.and_allOnes
  rw [Sequencer.checkNlen, nlenDiffers, hmask]
  cases q.strict && nlen != ~~~len <;> simp

/-- STORED_HDR whose two fields are read: its checks decide (42_deflate_block R154 to R158). -/
theorem exec_storedHdr_ok {s : State} {len nlen : Half} {r1 r2 : Reader} (h1 : s.reader.alignToByte.readRawHalf = .ok len r1)
    (h2 : r1.readRawHalf = .ok nlen r2) :
    exec .storedHdr s = ({ s with
      reader := r2, block := { s.block with slen := len, snlen := nlen } } : State).startStoredCopy.settle s := by
  show execStoredHdr s = _
  simp only [execStoredHdr, State.withReader_ok, Res.bind_ok, State.readSlen, h1, State.readSnlen, h2]

/-- STORED_HDR whose first field raises. -/
theorem exec_storedHdr_raise_len {s : State} {e : ErrKind} {r1 : Reader}
    (h1 : s.reader.alignToByte.readRawHalf = .raise e r1) : exec .storedHdr s = .next (Claims.failAt s r1 e) := by
  show execStoredHdr s = _
  simp only [execStoredHdr, State.withReader_ok, Res.bind_ok, State.readSlen, h1, State.withReader_raise, Res.bind_raise,
    Res.settle_raise]
  rfl

/-- STORED_HDR whose second field raises. -/
theorem exec_storedHdr_raise_nlen {s : State} {len : Half} {e : ErrKind} {r1 r2 : Reader}
    (h1 : s.reader.alignToByte.readRawHalf = .ok len r1) (h2 : r1.readRawHalf = .raise e r2) :
    exec .storedHdr s = .next (Claims.failAt { s with block := { s.block with slen := len } } r2 e) := by
  show execStoredHdr s = _
  simp only [execStoredHdr, State.withReader_ok, Res.bind_ok, State.readSlen, h1, State.readSnlen, h2, State.withReader_raise,
    Res.bind_raise, Res.settle_raise]
  rfl

/-- Settles O24: two fields read and their checks, or the input ends in the first or in the second. -/
theorem storedHeader : Obligations.StoredHeader := by
  intro s
  refine ⟨fun b0 b1 b2 b3 rest hb => ?_, fun ha hp hl => ?_⟩
  · obtain ⟨h1, hrest⟩ := Reader.readRawHalf_of_offered (r := s.reader.alignToByte) rfl hb
    obtain ⟨h2, -⟩ := Reader.readRawHalf_of_offered (r := { s.reader.alignToByte with pos := s.reader.pos + 2 }) rfl hrest
    have h4 : min 4 s.reader.bytesAhead.length = 4 := by
      have hlen := congrArg List.length hb
      simp only [Reader.bytesOffered_eq, List.length_take, List.length_cons] at hlen
      omega
    rw [exec_storedHdr_ok h1 h2, h4, State.startStoredCopy]
    simp only [Sequencer.checkNlen_eq]
    split_ifs <;> rfl
  · have hfirst (h2 : s.reader.bytesAhead.length < 2) : exec .storedHdr s = .next (Claims.failAt s { s.reader with
        ccount := 0, pos := s.reader.pos + s.reader.bytesAhead.length } .unexpectedEndOfInput) :=
      exec_storedHdr_raise_len (Reader.readRawHalf_short (r := s.reader.alignToByte) rfl ha hp h2)
    rw [min_eq_right hl.le]
    cases hb : s.reader.bytesAhead with
    | nil =>
      rw [hfirst (by rw [hb]; exact Nat.two_pos), hb]
    | cons b0 rest =>
      cases rest with
      | nil =>
        rw [hfirst (by rw [hb]; exact Nat.one_lt_two), hb]
      | cons b1 rest =>
        rw [hb, List.length_cons, List.length_cons] at hl
        obtain ⟨h1, h2⟩ := Reader.readRawHalf_twice_short (r := s.reader.alignToByte) rfl ha hp hb (by omega)
        have hb' : s.reader.alignToByte.bytesAhead = b0 :: b1 :: rest := hb
        rw [exec_storedHdr_raise_nlen h1 h2, hb']
        rfl

/-! ## The counts of the dynamic header -/

theorem State.readExtra_runsOut {base e : Nat} {s : State} (he : e ≤ 16) (h : s.reader.short .lsb e) :
    s.RunsOut (s.readExtra base e) := (State.readBitsLsb_runsOut he h).bind _

theorem Res.bind_assoc {σ α β γ : Type} (x : Res σ α) (k : α → σ → Res σ β) (l : β → σ → Res σ γ) :
    (x.bind k).bind l = x.bind fun a s => (k a s).bind l := by cases x <;> rfl

/-- Extra bits and what follows them, on an input that ends inside the `m + n` bits of both. -/
theorem State.RunsOut.afterExtra {α : Type} {base m n : Nat} {s : State} {k : Nat → State → Res State α} (hm : m ≤ 16)
    (h : s.reader.short .lsb (m + n))
    (hk : ∀ v, (s.reader.advance .lsb m).short .lsb n →
      ({ s with reader := s.reader.advance .lsb m } : State).RunsOut (k v { s with reader := s.reader.advance .lsb m })) :
    s.RunsOut ((s.readExtra base m).bind k) := by
  rw [State.readExtra, Res.bind_assoc]
  exact .afterBits hm h fun _ => hk _

theorem State.readCounts_runsOut {s : State} (h : s.reader.short .lsb 14) : s.RunsOut s.readCounts :=
  .afterExtra (m := 5) (n := 9) (by decide) h fun _ h =>
    .afterExtra (m := 5) (n := 4) (s := { s with reader := _, block := _ }) (by decide) h fun _ h =>
      (State.readExtra_runsOut (s := { s with reader := _, block := _ }) (by decide) h).bind _

/-! ## The code-length fields -/

/-- The lengths after the fields of `bits` were written at the symbols of `order`, in this order (42_deflate_block R161). -/
def writeClFields : List (Fin 19) → List Bool → Vector (BitVec 3) 19 → Vector (BitVec 3) 19
  | [], _, lens => lens
  | i :: rest, bits, lens =>
    writeClFields rest (bits.drop 3) (lens.set i.val (BitVec.ofNat 3 (lsbValue (bits.take 3))))

theorem State.readClLens_readable {order : List (Fin 19)} {s : State} (h : s.reader.readable .lsb (3 * order.length)) :
    State.readClLens order s = .ok () { s with
      reader := s.reader.advance .lsb (3 * order.length)
      block := { s.block with clLens := writeClFields order (s.reader.bitsAhead .lsb) s.block.clLens } } := by
  induction order generalizing s with
  | nil => rw [State.readClLens, List.length_nil, Nat.mul_zero, Reader.advance_zero]; rfl
  | cons i rest ih =>
    rw [List.length_cons, Nat.mul_succ, Nat.add_comm] at h ⊢
    have h3 : s.reader.readable .lsb 3 := h.mono (Nat.le_add_right _ _)
    have hwidth : (BitVec.ofNat 16 (s.reader.field 3)).setWidth 3 = BitVec.ofNat 3 (s.reader.field 3) :=
      BitVec.setWidth_ofNat_of_le (by decide) _
    rw [State.readClLens, Reader.readBitsLsb_readable (by decide) h3, State.withReader_ok, Res.bind_ok]
    dsimp only
    rw [ih (Reader.readable_advance h), Reader.advance_advance, Reader.bitsAhead_advance h3, hwidth]
    rfl

theorem State.readClLens_runsOut {order : List (Fin 19)} {s : State} (h : s.reader.short .lsb (3 * order.length)) :
    s.RunsOut (State.readClLens order s) := by
  induction order generalizing s with
  | nil => exact absurd h.2.2.2 (by simp)
  | cons i rest ih =>
    rw [List.length_cons, Nat.mul_succ, Nat.add_comm] at h
    exact .afterBits (by decide) h fun _ h => ih (s := { s with reader := _, block := _ }) h

/-- Each symbol of the order holds the field at its place in it, every other symbol what it held. -/
theorem writeClFields_get {order : List (Fin 19)} (hnodup : order.Nodup) (bits : List Bool) (lens : Vector (BitVec 3) 19)
    (i : Fin 19) :
    (writeClFields order bits lens)[i] =
      if i ∈ order then BitVec.ofNat 3 (lsbValue ((bits.drop (3 * order.idxOf i)).take 3)) else lens[i] := by
  induction order generalizing bits lens with
  | nil => rfl
  | cons k rest ih =>
    obtain ⟨hk, hrest⟩ := List.nodup_cons.1 hnodup
    rw [writeClFields, ih hrest]
    rcases eq_or_ne k i with rfl | hne
    · rw [if_neg hk, if_pos List.mem_cons_self, List.idxOf_cons_self]
      simp
    · rw [List.drop_drop, List.idxOf_cons_ne _ hne, Nat.mul_succ, Nat.add_comm]
      by_cases hi : i ∈ rest
      · rw [if_pos hi, if_pos (List.mem_cons_of_mem _ hi)]
      · rw [if_neg hi, if_neg fun h => (List.mem_cons.1 h).elim (fun h => hne h.symm) hi]
        exact Vector.getElem_set_ne _ _ (Fin.val_ne_of_ne hne)

/-- The fields at the first `n` symbols of ORDER and 0 at every other are what R161 leaves in cl_lens. -/
theorem writeClFields_clOrder (bits : List Bool) (n : Nat) :
    writeClFields (clOrder.take n) (bits.drop 14) (Vector.replicate 19 0) = Claims.clFields bits n := by
  have hnodup : clOrder.Nodup := by decide
  have hmem : ∀ i : Fin 19, i ∈ clOrder := by decide
  have horder : ∀ i : Fin 19, Claims.order.idxOf i.val = clOrder.idxOf i := by decide
  refine Vector.ext fun i hi => ?_
  have hget := writeClFields_get (hnodup.sublist (List.take_sublist n _)) (bits.drop 14) (Vector.replicate 19 0) ⟨i, hi⟩
  refine hget.trans ?_
  have hplace := List.mem_take_iff_idxOf_lt (n := n) (hmem ⟨i, hi⟩)
  simp only [Claims.clFields, Vector.getElem_ofFn, horder]
  by_cases hin : (⟨i, hi⟩ : Fin 19) ∈ clOrder.take n
  · rw [if_pos hin, if_pos (hplace.1 hin), (List.take_prefix n clOrder).idxOf_eq_of_mem hin, List.drop_drop]
  · rw [if_neg hin, if_neg (mt hplace.2 hin)]
    exact Vector.getElem_replicate _

/-! ## The dynamic header -/

/-- HCLEN with its bias, as the bits ahead give it (42_deflate_block R160). -/
def Reader.clCount (r : Reader) : Nat := 4 + lsbValue (((r.bitsAhead .lsb).drop 10).take 4)

theorem Reader.clCount_le (r : Reader) : r.clCount ≤ 19 := by
  have hlt := lsbValue_lt (((r.bitsAhead .lsb).drop 10).take 4)
  have hpow : 2 ^ (((r.bitsAhead .lsb).drop 10).take 4).length ≤ 2 ^ 4 :=
    Nat.pow_le_pow_right (by decide) (List.length_take_le _ _)
  rw [Reader.clCount]
  omega

theorem Reader.length_clOrder_take (r : Reader) : (clOrder.take r.clCount).length = r.clCount :=
  List.length_take_of_le r.clCount_le

/-- The state after the counts and the code-length fields of a dynamic header (42_deflate_block R160, R161). -/
def State.afterDynHeader (s : State) : State :=
  { s with
    reader := s.reader.advance .lsb (14 + 3 * s.reader.clCount)
    block := { s.block with
      hlit := BitVec.ofNat 9 (257 + lsbValue ((s.reader.bitsAhead .lsb).take 5))
      hdist := BitVec.ofNat 6 (1 + lsbValue (((s.reader.bitsAhead .lsb).drop 5).take 5))
      hclen := BitVec.ofNat 5 s.reader.clCount
      clLens := Claims.clFields (s.reader.bitsAhead .lsb) s.reader.clCount } }

/-- The counts and the code-length fields of a dynamic header (42_deflate_block R160, R161). -/
def State.readDynHeader (s : State) : Res State Unit := s.readCounts.bind fun _ s1 => s1.readClArray

theorem exec_dynHdr (s : State) : exec .dynHdr s = (s.readDynHeader.bind fun _ s1 => s1.startDynLens).settle s := by
  rw [State.readDynHeader, Res.bind_assoc]
  rfl

/-- The counts, by the bits ahead. -/
theorem State.readCounts_bits {s : State} (h : s.reader.readable .lsb 14) :
    s.readCounts = .ok () { s with
      reader := s.reader.advance .lsb 14
      block := { s.afterDynHeader.block with clLens := s.block.clLens } } := by
  have h5 : s.reader.readable .lsb 5 := h.mono (by decide)
  have h10 : s.reader.readable .lsb 10 := h.mono (by decide)
  rw [State.readCounts_readable h, Reader.field_advance h5, Reader.field_advance h10]
  rfl

/-- The array is read at as many places of ORDER as HCLEN counts. -/
theorem State.readClArray_eq {s : State} {n : Nat} (hn : n ≤ 19) (h : s.block.hclen = BitVec.ofNat 5 n) :
    s.readClArray = State.readClLens (clOrder.take n)
      { s with block := { s.block with clLens := Vector.replicate 19 0 } } := by
  rw [State.readClArray, h, BitVec.toNat_ofNat, Nat.mod_eq_of_lt (by omega)]

theorem State.readDynHeader_readable {s : State} (h : s.reader.readable .lsb (14 + 3 * s.reader.clCount)) :
    s.readDynHeader = .ok () s.afterDynHeader := by
  have h14 : s.reader.readable .lsb 14 := h.mono (Nat.le_add_right _ _)
  have hlen := s.reader.length_clOrder_take
  rw [State.readDynHeader, State.readCounts_bits h14, Res.bind_ok, State.readClArray_eq s.reader.clCount_le rfl,
    State.readClLens_readable (by rw [hlen]; exact Reader.readable_advance h), hlen]
  dsimp only
  rw [Reader.advance_advance, Reader.bitsAhead_advance h14, writeClFields_clOrder]
  rfl

theorem State.readDynHeader_runsOut {s : State} (h : s.reader.short .lsb (14 + 3 * s.reader.clCount)) :
    s.RunsOut s.readDynHeader := by
  rw [State.readDynHeader]
  rcases Reader.short_split h with h | ⟨h14, h, hd⟩
  · exact (State.readCounts_runsOut h).bind _
  · rw [State.readCounts_bits h14, Res.bind_ok, State.readClArray_eq s.reader.clCount_le rfl]
    refine (State.readClLens_runsOut ?_).before hd rfl rfl
    rw [s.reader.length_clOrder_take]
    exact h

theorem State.startDynLens_ok {s : State} {x : Table} (h : build s.block.clArray = some x) :
    s.startDynLens = .ok () { s with
      block := { s.block with tCl := some x, li := 0 }, seq := { s.seq with phase := .dynLens } } := by
  rw [State.startDynLens, State.buildInto, h]
  rfl

theorem State.startDynLens_raise {s : State} (h : build s.block.clArray = none) :
    s.startDynLens = .raise .invalidHuffmanTable { s with block := { s.block with tCl := none } } := by
  rw [State.startDynLens, State.buildInto, h]
  rfl

/-- Settles O28: the header is read whole and T_CL built or not, or the input ends inside it. -/
theorem dynamicHeader : Obligations.DynamicHeader := by
  intro s
  refine ⟨fun h hk => ?_, fun h hk => ?_, fun h => ?_⟩
  · have hbuild : build s.afterDynHeader.block.clArray = some _ := build_of_kraftSum_le hk
    rw [exec_dynHdr, State.readDynHeader_readable h, Res.bind_ok, State.startDynLens_ok hbuild]
    rfl
  · have hbuild : build s.afterDynHeader.block.clArray = none := (build_eq_none_iff _).2 hk
    rw [exec_dynHdr, State.readDynHeader_readable h, Res.bind_ok, State.startDynLens_raise hbuild]
    rfl
  · rw [exec_dynHdr]
    exact ((State.readDynHeader_runsOut h).bind _).settle s

end Sys2Proof.Machine
end

section
/-! PROOFS. The signature and the start of a frame (43_mszip_frame R200 to R202), and the step as the run of the instruction its
fetch decodes (R207). -/

namespace Sys2Proof.Machine

/-! ## Bytes the host has delivered -/

/-- The host has delivered the next `n` bytes, or all there are and the end of the input (20_memory R60, R62). -/
def Reader.delivered (n : Nat) (r : Reader) : Prop :=
  n ≤ r.bytesOffered.length ∨ (r.answered ∧ r.pos ≤ (r.input.getD []).length)

/-- FetchByte at the end of an input that is delivered: EXHAUSTED, and nothing changes (20_memory R60). -/
theorem Reader.fetchByte_exhausted {n : Nat} {r : Reader} (h : r.delivered (n + 1)) (hb : r.bytesAhead = []) :
    r.fetchByte = .ok none r := by
  obtain hn | ⟨⟨hi, hg⟩, hp⟩ := h
  · simp [Reader.bytesOffered_eq, hb] at hn
  · obtain ⟨bytes, hbytes⟩ := Option.isSome_iff_exists.mp hi
    have hend := List.drop_eq_nil_iff.mp hb
    rw [hbytes, Option.getD_some] at hg hp hend
    exact Reader.fetchByte_none hbytes (by omega) hend

/-- FetchByte of a delivered byte: one fewer is delivered after it (20_memory R60). -/
theorem Reader.fetchByte_delivered {n : Nat} {r : Reader} {b : Byte} {rest : List Byte} (h : r.delivered (n + 1))
    (hb : r.bytesAhead = b :: rest) :
    r.fetchByte = .ok (some b) { r with pos := r.pos + 1 } ∧ ({ r with pos := r.pos + 1 } : Reader).delivered n ∧
      ({ r with pos := r.pos + 1 } : Reader).bytesAhead = rest := by
  have hlen : r.bytesAhead.length = (r.input.getD []).length - r.pos := List.length_drop
  have hahead : ({ r with pos := r.pos + 1 } : Reader).bytesAhead = rest := by
    rw [Reader.bytesAhead_cons (by rw [hb, List.length_cons] at hlen; omega)] at hb
    exact (List.cons.inj hb).2
  obtain ⟨more, hoff⟩ : ∃ more, r.bytesOffered = b :: more := by
    obtain hn | ⟨ha, -⟩ := h
    · rw [Reader.bytesOffered_eq, hb] at hn ⊢
      cases hg : r.granted - r.pos with
      | zero => simp [hg] at hn
      | succ k => exact ⟨_, List.take_succ_cons⟩
    · exact ⟨rest, (Reader.bytesOffered_answered ha).trans hb⟩
  obtain ⟨-, -, hmore⟩ := Reader.bytesOffered_cons hoff
  refine ⟨Reader.fetchByte_offered hoff, ?_, hahead⟩
  obtain hn | ⟨ha, hp⟩ := h
  · rw [hoff, List.length_cons] at hn
    exact .inl (by rw [hmore]; omega)
  · rw [hb, List.length_cons] at hlen
    exact .inr ⟨ha, by simp only; omega⟩

/-! ## The signature -/

/-- The first two bytes as the signature's 16-bit value, none where there are fewer (43_mszip_frame R200). -/
def signatureValue : List Byte → Option Half
  | b0 :: b1 :: _ => some (littleEndian b0 b1)
  | _ => none

theorem littleEndian_eq_signature_iff (b0 b1 : Byte) : littleEndian b0 b1 = 0x4B43 ↔ b0 = 0x43 ∧ b1 = 0x4B := by
  rw [littleEndian]
  constructor
  · intro h
    have h0 := congrArg (BitVec.extractLsb' 0 8) h
    have h1 := congrArg (BitVec.extractLsb' 8 8) h
    rw [BitVec.extractLsb'_append_eq_right] at h0
    rw [BitVec.extractLsb'_append_eq_left] at h1
    exact ⟨h0, h1⟩
  · rintro ⟨rfl, rfl⟩
    rfl

/-- The value is the signature's exactly where the bytes are 43 4B (43_mszip_frame R200). -/
theorem signatureValue_eq_iff (bytes : List Byte) : signatureValue bytes = some 0x4B43 ↔ bytes.take 2 = [0x43, 0x4B] := by
  match bytes with
  | [] => simp [signatureValue]
  | [_] => simp [signatureValue]
  | b0 :: b1 :: _ =>
    simp only [signatureValue, Option.some_inj, littleEndian_eq_signature_iff, List.take_succ_cons, List.take_zero,
      List.cons.injEq, and_true]

/-- The reader after the signature's fetches: aligned, and up to two bytes on (43_mszip_frame R200). -/
def Reader.afterSignature (r : Reader) : Reader :=
  { r with ccount := 0, pos := r.pos + min 2 r.bytesAhead.length }

/-- The signature's reads of delivered bytes: the first, where there is one, then the second (43_mszip_frame R200). -/
theorem Reader.readSignature_delivered {r : Reader} (h : r.delivered 2) :
    r.readSignature = .ok (signatureValue r.bytesAhead) r.afterSignature := by
  have halign : r.alignToByte.delivered 2 := h
  rw [Reader.readSignature, Reader.afterSignature]
  cases h0 : r.bytesAhead with
  | nil =>
    rw [Reader.fetchByte_exhausted halign h0]
    rfl
  | cons b0 rest =>
    obtain ⟨hf0, h, h1⟩ := Reader.fetchByte_delivered halign h0
    rw [hf0, Res.bind_ok]
    dsimp only
    cases rest with
    | nil =>
      rw [Reader.fetchByte_exhausted h h1]
      rfl
    | cons b1 rest =>
      obtain ⟨hf1, -, -⟩ := Reader.fetchByte_delivered h h1
      rw [hf1, List.length_cons, List.length_cons, min_eq_left (by omega)]
      rfl

/-- A value of two bytes that decodes is run (43_mszip_frame R200). -/
theorem State.fetchSignature_run {s : State} {v : Half} {r : Reader} {i : Instr}
    (h : s.reader.readSignature = .ok (some v) r) (hi : decode .sig v.toNat = .ok i) :
    s.fetchSignature = .run i { s with reader := r } := by
  simp only [State.fetchSignature, h, State.withReader_ok, hi]

/-- Any other value, or none, goes to SIG_MISMATCH (43_mszip_frame R201). -/
theorem State.fetchSignature_mismatch {s : State} {v : Option Half} {r : Reader} (h : s.reader.readSignature = .ok v r)
    (hv : v ≠ some 0x4B43) : s.fetchSignature = .move (.next ({ s with reader := r } : State).sigMismatch) := by
  cases v with
  | none => simp only [State.fetchSignature, h, State.withReader_ok]
  | some v =>
    have hne : v.toNat ≠ 0x4B43 := fun he => hv (congrArg some (BitVec.eq_of_toNat_eq he))
    have hi : decode .sig v.toNat = .error .notSignature := if_neg hne
    simp only [State.fetchSignature, h, State.withReader_ok, hi]

/-! ## The step in SIG -/

/-- Settles O19: FRAME_START reads nothing, so its meaning is its whole effect. -/
theorem frameStart : Obligations.FrameStart := fun _ => rfl

theorem State.fetchPhase_sig {s : State} (hp : s.seq.phase = .sig) : s.fetchPhase = s.fetchSignature := by
  simp only [State.fetchPhase, hp]

/-- Settles O20: the bytes are fetched, then they are the signature or they are not. -/
theorem signatureStep : Obligations.SignatureStep := by
  intro s hal hp s1 h
  have hread : s.awake.reader.readSignature = .ok (signatureValue s.reader.bytesAhead) s.reader.afterSignature :=
    Reader.readSignature_delivered h
  have hphase : s.awake.fetchPhase = s.awake.fetchSignature := State.fetchPhase_sig hp
  by_cases hsig : s.reader.bytesAhead.take 2 = [0x43, 0x4B]
  · rw [(signatureValue_eq_iff _).2 hsig] at hread
    rw [if_pos hsig, step_of_run hal (hphase.trans (State.fetchSignature_run hread rfl)), frameStart]
    exact resume_of_awake rfl
  · have hne := mt (signatureValue_eq_iff _).1 hsig
    rw [if_neg hsig, step_of_move hal (hphase.trans (State.fetchSignature_mismatch hread hne)), State.sigMismatch]
    exact congrArg Host.Outcome.next (if_congr Iff.rfl rfl rfl)

/-! ## The step runs the decoded instruction -/

/-- The step where the fetch gives an instruction, a command's or the phase's (43_mszip_frame R207). -/
theorem step_of_fetch {s u : State} {i : Instr} (hs : s.port.turns = []) (h : s.awake.fetch = .run i u) :
    step s = resume s.awake (exec i u) := by
  rw [step_of_noTurn hs, State.engineStep, h]

theorem State.fetchHeader_run {s u : State} {h : Half} {i : Instr} (hr : s.readHeader = .ok h u)
    (hi : decode .blkHdr h.toNat = .ok i) : s.fetchHeader = .run i u := by
  simp only [State.fetchHeader, hr, hi]

theorem State.fetchSymbol_run {sel : TableSel} {s u : State} {i : Instr} (hd : s.decodeInto sel = .ok () u)
    (hi : decode (symbolFormat sel) u.block.sym.toNat = .ok i) : s.fetchSymbol sel = .run i u := by
  simp only [State.fetchSymbol, hd, hi]

/-- The three places a phase fetches a symbol, each with its table and format (42_deflate_block R163, R171, R181). -/
theorem State.fetchPhase_symbol {s : State} {sel : TableSel} {f : Format}
    (h : sel = .cl ∧ f = .clSymbol ∧ s.seq.phase = .dynLens ∧ s.block.li.toNat < s.block.hlit.toNat + s.block.hdist.toNat ∨
      sel = .ll ∧ f = .llSymbol ∧ s.seq.phase = .payload ∨ sel = .d ∧ f = .dSymbol ∧ s.seq.phase = .matchDist) :
    f = symbolFormat sel ∧ s.fetchPhase = s.fetchSymbol sel := by
  rw [State.fetchPhase]
  obtain ⟨rfl, rfl, hp, hli⟩ | ⟨rfl, rfl, hp⟩ | ⟨rfl, rfl, hp⟩ := h <;> rw [hp]
  · exact ⟨rfl, if_pos hli⟩
  · exact ⟨rfl, rfl⟩
  · exact ⟨rfl, rfl⟩

/-- Settles O46: the fetch of a command or of each phase that has a token gives the decoded instruction. -/
theorem stepRunsDecodedInstruction : Obligations.StepRunsDecodedInstruction := by
  refine fun s hs => ⟨fun w i hc hi => ?command, fun hc => ⟨fun v r i hp hr hi => ?signature,
    fun h u i hp hr hi => ?header, fun hp => ⟨rfl, ?stored⟩, fun hp => ⟨rfl, ?dynamic⟩,
    fun sel f u i hf hd hi => ?symbol⟩, fun s0 t => rfl⟩
  case command => exact step_of_fetch hs (State.fetch_command (s := s.awake) hc hi)
  case signature =>
    exact step_of_run ⟨hs, hc⟩ ((State.fetchPhase_sig (s := s.awake) hp).trans (State.fetchSignature_run hr hi))
  case header =>
    exact step_of_run ⟨hs, hc⟩ (by rw [State.fetchPhase, State.awake_seq, hp, State.fetchHeader_run hr hi])
  case stored => exact step_of_run ⟨hs, hc⟩ (by rw [State.fetchPhase, State.awake_seq, hp])
  case dynamic => exact step_of_run ⟨hs, hc⟩ (by rw [State.fetchPhase, State.awake_seq, hp])
  case symbol =>
    obtain ⟨rfl, hphase⟩ := State.fetchPhase_symbol (s := s.awake) hf
    exact step_of_run ⟨hs, hc⟩ (hphase.trans (State.fetchSymbol_run hd hi))

end Sys2Proof.Machine
end

section
/-! PROOFS. The host's moves (60_exceptions R234; logs 3, 4, 8, 17), and the rest of the engine outside a sequence: with BUSY = 0
only START and reset lead out (60_exceptions R226, R233). -/

namespace Sys2Proof.Machine

/-! ## The host's moves -/

/-- The host's binding as the statement writes it: INPUT at once for a reader that has none (log 17). -/
theorem Reader.takeBinding_eq (bytes : List Byte) (r : Reader) :
    r.takeBinding bytes = if r.input = none then { r with input := some bytes, granted := 0 } else r := by
  unfold Reader.takeBinding
  cases r.input <;> rfl

/-- A binding is taken where no running sequence has its INPUT (93 I10). -/
theorem State.bindInput_ok {s : State} (h : s.busy = false ∨ s.reader.input = none) (bytes : List Byte) :
    s.bindInput bytes = .next (s.setBinding bytes) := by
  refine if_neg ?_
  rcases h with h | h <;> simp [h]

theorem State.issueCommand_ok {s : State} (h : s.port.cmd = none) (w : Half) :
    s.issueCommand w = .next { s with port := { s.port with cmd := some w } } :=
  if_neg (by simp [h])

/-- Settles O45: each move, taken off the schedule, is one operation of the host or the engine's step. -/
theorem hostMoves : Obligations.HostMoves := by
  intro s rest s1
  refine ⟨fun n ht => step_of_turn ht, fun bytes ht h => ?bind, fun w ht h => ?command, fun ht => step_of_turn ht⟩
  case bind =>
    rw [← Reader.takeBinding_eq]
    exact (step_of_turn ht).trans (State.bindInput_ok (s := s.dropTurn rest) h bytes)
  case command => exact (step_of_turn ht).trans (State.issueCommand_ok (s := s.dropTurn rest) h w)

/-! ## Outcomes with a property, a fault not shut out -/

/-- The outcome has the property wherever it is a next state. -/
def Ensures (P : State → Prop) (o : Host.Outcome State Fault Refusal) : Prop := ∀ t, o = .next t → P t

theorem Ensures.of_next {P : State → Prop} {t : State} (h : P t) : Ensures P (.next t) := by
  rintro _ ⟨⟩
  exact h

theorem Ensures.of_fault (P : State → Prop) (f : Fault) : Ensures P (.fault f) := fun _ h => nomatch h

theorem Ensures.of_refused (P : State → Prop) (r : Refusal) : Ensures P (.refused r) := fun _ h => nomatch h

theorem resume_ensures {P : State → Prop} {s0 : State} {o : Host.Outcome State Fault Refusal} (h : Ensures P o)
    (hw : P s0.wait) : Ensures P (resume s0 o) := by
  cases o with
  | next t =>
    simp only [resume]
    split
    · exact .of_next hw
    · exact h
  | fault f => exact h
  | refused r => exact h

/-- The engine's step ends as what it fetched does, or waits (log 4). -/
theorem State.engineStep_ensures {P : State → Prop} {s : State} (h : Ensures P s.awake.fetch.outcome) (hw : P s.awake.wait) :
    Ensures P s.engineStep := by
  unfold State.engineStep
  cases hf : s.awake.fetch with
  | run i u => rw [hf] at h; exact resume_ensures h hw
  | move o => rw [hf] at h; exact h

/-! ## Outside a sequence -/

/-- `t` rests where `s` does: PHASE, ERRCODE, the window and the block decoder's registers are as they were. -/
structure State.Rests (s t : State) : Prop where
  phase : t.seq.phase = s.seq.phase
  err : t.seq.err = s.seq.err
  window : t.window = s.window
  block : t.block = s.block

/-- Only the reader, the port and the rest of the sequencer may differ. -/
theorem State.Rests.of_same {s t : State} (hs : t.seq = s.seq) (hw : t.window = s.window) (hb : t.block = s.block) :
    s.Rests t := ⟨by rw [hs], by rw [hs], hw, hb⟩

/-- In IDLE, DONE and ERROR the engine's own move is none (60_exceptions R226). -/
theorem State.fetchPhase_of_not_busy {s : State} (h : s.busy = false) : s.fetchPhase = .move (.next s) := by
  unfold State.busy at h
  unfold State.fetchPhase
  cases hp : s.seq.phase with
  | idle | done | error => rfl
  | _ => rw [hp] at h; cases h

/-- A reader command, complete or refused by name, is the reader's and the port's affair (60_exceptions R227). -/
theorem State.fetchCommand_rests (w : Half) (s : State) : Ensures s.Rests (s.fetchCommand w).outcome := by
  unfold State.fetchCommand
  split
  · rename_i i hi
    intro t ht
    obtain ⟨-, -, -, -, hw, hb, hs, -⟩ := readerCommandsFrame i s t (decode_readerCmd hi) ht
    exact .of_same hs hw hb
  · exact .of_next (.of_same rfl rfl rfl)

theorem State.engineStep_rests {s : State} (h : s.busy = false) : Ensures s.Rests s.engineStep := by
  refine State.engineStep_ensures ?_ (.of_same rfl rfl rfl)
  unfold State.fetch
  split
  · intro t ht
    obtain ⟨hp, he, hw, hb⟩ := s.awake.fetchCommand_rests _ t ht
    exact ⟨hp, he, hw, hb⟩
  · rw [State.fetchPhase_of_not_busy (s := s.awake) h]
    exact .of_next (.of_same rfl rfl rfl)

/-- The moves of the host that lead out: reset, and a write of CTRL with START or SRST set (70_reset_and_hazards R250 to R252). -/
def Turn.LeadsOut (t : Turn) : Prop :=
  t = .reset ∨ ∃ v : Word, t = .write 0 .word v ∧ (v.getLsbD 0 = true ∨ v.getLsbD 1 = true)

/-- A register write rests, but for START and SRST in CTRL (10_state R23, R24). -/
theorem State.writeReg_rests {s : State} {offset v : Word}
    (h : offset = 0 → v.getLsbD 0 = false ∧ v.getLsbD 1 = false) : s.Rests (s.writeReg offset v) := by
  unfold State.writeReg
  split
  · rename_i h0
    obtain ⟨hstart, hsrst⟩ := h h0
    simp only [State.writeCtrl, hstart, hsrst, Bool.false_and, Bool.false_eq_true, if_false]
    exact .of_same rfl rfl rfl
  · split
    · exact ⟨rfl, rfl, rfl, rfl⟩
    · exact .of_same rfl rfl rfl

/-- Every other move of host and engine rests. -/
theorem State.takeTurn_rests {s : State} (h : s.busy = false) {t : Turn} (ht : ¬ t.LeadsOut) :
    Ensures s.Rests (s.takeTurn t) := by
  cases t with
  | engine => exact State.engineStep_rests h
  | bind bytes =>
    rw [State.takeTurn, State.bindInput_ok (.inl h)]
    exact .of_next (.of_same rfl rfl rfl)
  | answer n => exact .of_next (.of_same rfl rfl rfl)
  | command w =>
    simp only [State.takeTurn, State.issueCommand]
    split
    · exact .of_refused _ _
    · exact .of_next (.of_same rfl rfl rfl)
  | write offset width v =>
    by_cases ha : width = .word ∧ offset.toNat % 4 = 0
    · obtain ⟨rfl, ha⟩ := ha
      rw [State.takeTurn, State.busWrite_word ha]
      refine .of_next (State.writeReg_rests fun h0 => ?_)
      simpa [Turn.LeadsOut, h0] using ht
    · obtain ⟨r, hr⟩ := State.busWrite_refused_iff (v := v) (s := s).2 ha
      rw [State.takeTurn, hr]
      exact .of_refused _ _
  | read offset width =>
    simp only [State.takeTurn, State.busRead]
    split_ifs
    · exact .of_refused _ _
    · exact .of_next (.of_same rfl rfl rfl)
    · exact .of_next (.of_same rfl rfl rfl)
  | reset => exact absurd (.inl rfl) ht

/-- Settles O47: no phase outside a sequence has a move, a command touches the reader alone, and of the host's moves only reset
and CTRL reach the core. -/
theorem engineRestsOutsideASequence : Obligations.EngineRestsOutsideASequence := by
  refine fun s hb => ⟨fun hal => step_of_move hal (State.fetchPhase_of_not_busy (s := s.awake) hb), fun t ht => ?_⟩
  cases hs : s.port.turns with
  | nil =>
    obtain ⟨hp, he, hw, hbl⟩ := State.engineStep_rests hb t (step_of_noTurn hs ▸ ht)
    exact .inl ⟨hp, he, hw, hbl⟩
  | cons turn rest =>
    by_cases hout : turn.LeadsOut
    · obtain rfl | ⟨v, rfl, hv⟩ := hout
      · exact .inr (.inl ⟨rest, rfl⟩)
      · exact .inr (.inr ⟨v, rest, rfl, hv⟩)
    · obtain ⟨hp, he, hw, hbl⟩ := State.takeTurn_rests (s := s.dropTurn rest) hb hout t (step_of_turn hs ▸ ht)
      exact .inl ⟨hp, he, hw, hbl⟩

end Sys2Proof.Machine
end

section
/-! PROOFS. The reader errors 8 to 10 do not arise while the engine decodes (60_exceptions R220): a token begins and ends with the
carry LSB-first, what it raises is an error of the stream, and only the stored header, which aligns, leads to the stored copy. -/

namespace Sys2Proof.Machine

/-! ## Sound states -/

/-- Error entry with an error of the stream is sound wherever the carry is LSB-first. -/
theorem State.raise_sound {s : State} {e : ErrKind} (h : s.reader.orderFits .lsb) (he : e.ofStream) :
    Claims.readerSound (s.raise e) := by
  obtain ⟨hmix, hraw, hcmd⟩ := he
  exact ⟨h, by simp, by simpa using hmix, by simpa using hraw, by simpa using hcmd⟩

/-- Any phase but STORED_COPY may follow a sound state. -/
theorem State.goto_sound {s : State} {p : Phase} (h : Claims.readerSound s) (hp : p ≠ .storedCopy) :
    Claims.readerSound (s.goto p) := by
  obtain ⟨ho, -, he⟩ := h
  exact ⟨ho, fun h => absurd h hp, he⟩

theorem State.endOfBlock_sound {s : State} (h : Claims.readerSound s) : Claims.readerSound s.endOfBlock := by
  unfold State.endOfBlock
  split
  · exact State.goto_sound (p := .sig) h (by simp)
  · exact State.goto_sound (p := .blkHdr) h (by simp)

/-- A sound state outside a stored copy: where the tokens of the other phases are read. -/
structure State.InToken (s : State) : Prop where
  sound : Claims.readerSound s
  phase : s.seq.phase ≠ .storedCopy

theorem State.InToken.order {s : State} (h : s.InToken) : s.reader.orderFits .lsb := h.sound.1

/-- A part of a token stays in it. -/
theorem State.InToken.keep {s t : State} (h : s.InToken) (ho : t.reader.orderFits .lsb) (hs : t.seq = s.seq) : t.InToken := by
  obtain ⟨⟨-, -, he⟩, hp⟩ := h
  have hp' : t.seq.phase ≠ .storedCopy := hs ▸ hp
  exact ⟨⟨ho, fun h => absurd h hp', hs ▸ he⟩, hp'⟩

theorem State.InToken.after {s t : State} (h : s.InToken) (ha : s.After t) : t.InToken := h.keep (ha.order h.order) ha.seq

theorem State.InToken.sigMismatch {s : State} (h : s.InToken) : Claims.readerSound s.sigMismatch := by
  unfold State.sigMismatch
  split
  · exact State.goto_sound h.sound (by simp)
  · exact State.raise_sound h.order (by simp [ErrKind.ofStream])

/-! ## Operations inside a token, a model fault not shut out -/

/-- The operation answers inside the token, and raises there an error of the stream. -/
def Res.StaysInToken {α : Type} (x : Res State α) : Prop :=
  x.Meets (fun _ t => t.InToken) (fun e t => t.InToken ∧ e.ofStream) True (fun _ => True)

/-- The rule of sequence. -/
theorem Res.StaysInToken.bind {α β : Type} {x : Res State α} {k : α → State → Res State β} (h : x.StaysInToken)
    (hk : ∀ (a : α) (u : State), u.InToken → (k a u).StaysInToken) : (x.bind k).StaysInToken :=
  Res.Meets.bind h hk

/-- What a token may raise inside it is an error of the stream. -/
theorem State.Raises.inToken {s t : State} {e : ErrKind} (hr : s.Raises e t) (h : s.InToken) : t.InToken ∧ e.ofStream :=
  ⟨h.after hr.1, hr.2 h.order⟩

theorem State.readExtra_inToken {base e : Nat} (he : e ≤ 16) {s : State} (h : s.InToken) :
    (s.readExtra base e).StaysInToken := by
  refine (State.readExtra_token he s).mono ?_ (fun _ _ hr => hr.inToken h) (fun _ => trivial) (fun _ _ => trivial)
  rintro v u ⟨-, -, -, ha, -⟩
  exact h.after ha

/-- A symbol decode against any table takes bits LSB-first and raises no error of the reader's own. -/
theorem Reader.decodeLoop_lsb (t : Table) (fuel c k : Nat) {r : Reader} (h : r.orderFits .lsb) :
    (r.decodeLoop t fuel c k).Meets (fun _ r' => r'.orderFits .lsb) (fun e r' => r'.orderFits .lsb ∧ e.ofStream) True
      (fun _ => True) := by
  induction fuel generalizing c k r with
  | zero => exact ⟨h, by simp [ErrKind.ofStream]⟩
  | succ fuel ih =>
    unfold Reader.decodeLoop
    split
    · exact h
    · split
      · refine Res.Meets.bind ((r.takeBit_meets .lsb).mono (fun _ _ hb => hb.2) ?_ (fun _ => trivial) (fun _ _ => trivial))
          fun _ _ hb => ih _ _ hb
        rintro e r' ⟨rfl, rfl | ⟨-, hmix⟩⟩
        · exact ⟨h, by simp [ErrKind.ofStream]⟩
        · exact absurd h hmix
      · exact ⟨h, by simp [ErrKind.ofStream]⟩

theorem State.decodeInto_inToken (sel : TableSel) {s : State} (h : s.InToken) : (s.decodeInto sel).StaysInToken := by
  unfold State.decodeInto
  split
  · trivial
  · refine Res.Meets.bind ((Reader.decodeLoop_lsb _ _ _ _ h.order).withReader.mono (fun _ _ h => h) ?_ id (fun _ h => h)) ?_
    · rintro e u ⟨⟨ho, he⟩, hu⟩
      exact ⟨h.keep ho (by rw [hu]), he⟩
    · rintro sym u ⟨ho, hu⟩
      exact h.keep ho (by rw [hu])

theorem State.buildInto_inToken (sel : TableSel) (lens : List (BitVec 4)) {s : State} (h : s.InToken) :
    (s.buildInto sel lens).StaysInToken := by
  unfold State.buildInto
  split
  · exact h.keep h.order rfl
  · exact ⟨h.keep h.order rfl, by simp [ErrKind.ofStream]⟩

theorem State.appendLens_inToken (v : BitVec 4) (r : Nat) {s : State} (h : s.InToken) : (s.appendLens v r).StaysInToken := by
  unfold State.appendLens
  split
  · trivial
  · exact h.keep h.order rfl

theorem State.runFill_inToken (v : BitVec 4) (r : Nat) {s : State} (h : s.InToken) : (s.runFill v r).StaysInToken := by
  unfold State.runFill
  split
  · exact ⟨h, by simp [ErrKind.ofStream]⟩
  · exact State.appendLens_inToken v r h

theorem State.repeatPrevious_inToken (r : Nat) {s : State} (h : s.InToken) : (s.repeatPrevious r).StaysInToken := by
  unfold State.repeatPrevious
  split
  · exact State.runFill_inToken _ r h
  · trivial

/-! ## Outcomes -/

/-- A settled operation ends sound if it answers so and raises an error of the stream with the carry LSB-first. -/
theorem Res.Meets.endsSound {okP : Unit → State → Prop} {raiseP : ErrKind → State → Prop} {waitP : Prop}
    {faultP : Fault → Prop} {s : State} {x : Res State Unit} (hx : x.Meets okP raiseP waitP faultP) (h : Claims.readerSound s)
    (hok : ∀ a t, okP a t → Claims.readerSound t) (hraise : ∀ e t, raiseP e t → t.reader.orderFits .lsb ∧ e.ofStream) :
    Ensures Claims.readerSound (x.settle s) := by
  cases x with
  | ok a t => exact .of_next (hok a t hx)
  | raise e t =>
    obtain ⟨ho, he⟩ := hraise e t hx
    exact .of_next (State.raise_sound ho he)
  | wait => exact .of_next h
  | fault f => exact .of_fault _ f

theorem Res.StaysInToken.endsSound {x : Res State Unit} (hx : x.StaysInToken) {s : State} (h : s.InToken) :
    Ensures Claims.readerSound (x.settle s) :=
  Res.Meets.endsSound hx h.sound (fun _ _ ht => ht.sound) fun _ _ hr => hr.imp_left State.InToken.order

theorem State.MeetsToken.endsSound {s : State} {x : Res State Unit} {okP : State → Prop} (hx : s.MeetsToken x okP)
    (h : s.InToken) (hok : ∀ t, okP t → Claims.readerSound t) : Ensures Claims.readerSound (x.settle s) :=
  Res.Meets.endsSound hx h.sound (fun _ => hok) fun _ _ hr => (hr.inToken h).imp_left State.InToken.order

/-! ## Instructions -/

/-- Both payload tables built, then PAYLOAD (42_deflate_block R169, R170). -/
theorem State.InToken.buildPayloadTables {s u : State} (h : s.InToken) (hr : u.reader = s.reader) (hs : u.seq = s.seq)
    (ll d : List (BitVec 4)) : Ensures Claims.readerSound ((u.buildPayloadTables ll d).settle s) := by
  have hu : u.InToken := h.keep (hr ▸ h.order) hs
  refine (u.buildPayloadTables_meets ll d).endsSound h.sound ?_ ?_
  · rintro _ t ⟨x, y, -, -, rfl⟩
    exact State.goto_sound (hu.keep hu.order rfl).sound (by simp)
  · rintro e t ⟨rfl, htr, -⟩
    exact ⟨htr ▸ hu.order, by simp [ErrKind.ofStream]⟩

theorem execBtypeFixed_endsSound (f : Bool) {s : State} (h : s.InToken) : Ensures Claims.readerSound (execBtypeFixed f s) := by
  unfold execBtypeFixed
  exact State.InToken.buildPayloadTables (u := s.latchHeader f 1) h rfl rfl fixedLlLens fixedDLens

/-- The stored header aligns, and reads whole bytes from there on (42_deflate_block R154 to R158). -/
theorem execStoredHdr_endsSound {s : State} (h : s.InToken) : Ensures Claims.readerSound (execStoredHdr s) := by
  refine s.storedHdr_meets.endsSound h ?_
  rintro t ⟨-, hc, -, -, -, -, hs⟩
  obtain ⟨⟨-, -, he⟩, -⟩ := h
  exact ⟨.inl hc, fun _ => hc, by rw [hs]; exact he⟩

theorem execDynHdr_endsSound {s : State} (h : s.InToken) : Ensures Claims.readerSound (execDynHdr s) := by
  refine s.dynHdr_meets.endsSound h ?_
  rintro t ⟨u, ha, -, rfl, -⟩
  exact State.goto_sound (h.after ha).sound (by simp)

theorem execClRep_endsSound {s : State} (h : s.InToken) : Ensures Claims.readerSound (execClRep s) := by
  refine Res.StaysInToken.endsSound ?_ h
  split
  · exact ⟨h, by simp [ErrKind.ofStream]⟩
  · exact (State.readExtra_inToken (by decide) h).bind fun r _ hu => State.repeatPrevious_inToken r hu

/-- A run of zeros (42_deflate_block R166, R167). -/
theorem State.zeroRun_endsSound {base e : Nat} (he : e ≤ 16) {s : State} (h : s.InToken) :
    Ensures Claims.readerSound (((s.readExtra base e).bind fun r u => u.runFill 0 r).settle s) :=
  ((State.readExtra_inToken he h).bind fun r _ hu => State.runFill_inToken 0 r hu).endsSound h

theorem exec_lengthRows_endsSound {row : Instr × Nat × Nat} (hrow : row ∈ Claims.lengthRows) {s : State} (h : s.InToken) :
    Ensures Claims.readerSound (exec row.1 s) := by
  obtain ⟨he, -, hb⟩ := lengthRows_range hrow
  rw [exec_lengthRows hrow]
  refine (State.matchLength_meets he (by omega)).endsSound h ?_
  rintro t ⟨u, ha, -, -, -, rfl⟩
  exact State.goto_sound (h.after ha).sound (by simp)

theorem exec_distanceRows_endsSound {row : Instr × Nat × Nat} (hrow : row ∈ Claims.distanceRows) {s : State} (h : s.InToken) :
    Ensures Claims.readerSound (exec row.1 s) := by
  obtain ⟨he, h1, hb⟩ := distanceRows_range hrow
  rw [exec_distanceRows hrow]
  refine (State.matchDistance_meets he h1 (by omega)).endsSound h ?_
  rintro t ⟨u, ha, -, -, -, rfl⟩
  exact State.goto_sound (h.after ha).sound (by simp)

/-- Every instruction but a reader command ends sound. -/
theorem exec_endsSound {i : Instr} (hi : ¬ isReaderCommand i) {s : State} (h : s.InToken) :
    Ensures Claims.readerSound (exec i s) := by
  by_cases hl : i ∈ Claims.lengthRows.map Prod.fst
  · obtain ⟨row, hr, rfl⟩ := List.mem_map.1 hl
    exact exec_lengthRows_endsSound hr h
  by_cases hd : i ∈ Claims.distanceRows.map Prod.fst
  · obtain ⟨row, hr, rfl⟩ := List.mem_map.1 hd
    exact exec_distanceRows_endsSound hr h
  cases i with
  | sig => exact .of_next (State.goto_sound (p := .blkHdr) h.sound (by simp))
  | btypeStored => exact .of_next (State.goto_sound (p := .storedHdr) h.sound (by simp))
  | btypeDynamic => exact .of_next (State.goto_sound (p := .dynHdr) h.sound (by simp))
  | btypeReserved | llReserved | dReserved => exact .of_next (State.raise_sound h.order (by simp [ErrKind.ofStream]))
  | lit b => exact .of_next h.sound
  | eob => exact .of_next (State.endOfBlock_sound h.sound)
  | btypeFixed f => exact execBtypeFixed_endsSound f h
  | storedHdr => exact execStoredHdr_endsSound h
  | dynHdr => exact execDynHdr_endsSound h
  | clLit v => exact (State.appendLens_inToken v 1 h).endsSound h
  | clRep => exact execClRep_endsSound h
  | clZ3 => exact State.zeroRun_endsSound (by decide) h
  | clZ11 => exact State.zeroRun_endsSound (by decide) h
  | buildTable sel lens => exact (State.buildInto_inToken sel lens h).endsSound h
  | decodeSymbol sel => exact (State.decodeInto_inToken sel h).endsSound h
  | _ => simp [Claims.lengthRows, Claims.distanceRows, isReaderCommand] at hl hd hi

/-! ## The engine's step -/

/-- No format but the command word's has a reader command (30_encoding R95). -/
theorem not_isReaderCommand_of_decode {f : Format} {v : Nat} {i : Instr} (hf : f ≠ .readerCmd) (hi : decode f v = .ok i) :
    ¬ isReaderCommand i := by
  obtain ⟨-, he⟩ := decode_encodesTo hi
  rintro (rfl | rfl | ⟨n, rfl⟩ | ⟨n, rfl⟩ | rfl | rfl) <;> cases he <;> exact hf rfl

theorem State.strangeSymbol_endsSound (sel : TableSel) {s : State} (h : s.InToken) :
    Ensures Claims.readerSound (s.strangeSymbol sel) := by
  cases sel with
  | cl => exact .of_fault _ _
  | ll | d => exact .of_next (State.raise_sound h.order (by simp [ErrKind.ofStream]))

/-- The signature aligns first, so its two bytes leave no carry (43_mszip_frame R200). -/
theorem State.fetchSignature_endsSound {s : State} (h : s.InToken) : Ensures Claims.readerSound s.fetchSignature.outcome := by
  have hm := s.reader.readSignature_meets
  unfold State.fetchSignature
  cases hx : s.reader.readSignature with
  | ok v r =>
    rw [hx] at hm
    have hu : ({ s with reader := r } : State).InToken := h.keep (.inl hm.2.1) rfl
    cases v with
    | none => exact .of_next hu.sigMismatch
    | some v =>
      simp only [State.withReader_ok]
      split
      · rename_i i hi
        exact exec_endsSound (not_isReaderCommand_of_decode (by simp) hi) hu
      · exact .of_next hu.sigMismatch
  | raise e r => rw [hx] at hm; exact hm.elim
  | wait => exact .of_next h.sound
  | fault f => exact .of_fault _ f

theorem State.fetchHeader_endsSound {s : State} (h : s.InToken) : Ensures Claims.readerSound s.fetchHeader.outcome := by
  have hm := s.readHeader_meets
  unfold State.fetchHeader
  cases hx : s.readHeader with
  | ok v u =>
    rw [hx] at hm
    have hu := h.after hm.1
    dsimp only
    split
    · rename_i i hi
      exact exec_endsSound (not_isReaderCommand_of_decode (by simp) hi) hu
    · exact .of_next (State.raise_sound hu.order (by simp [ErrKind.ofStream]))
  | raise e u =>
    rw [hx] at hm
    obtain ⟨hu, he⟩ := State.Raises.inToken hm h
    exact .of_next (State.raise_sound hu.order he)
  | wait => exact .of_next h.sound
  | fault f => exact .of_fault _ f

theorem State.fetchSymbol_endsSound (sel : TableSel) {s : State} (h : s.InToken) :
    Ensures Claims.readerSound (s.fetchSymbol sel).outcome := by
  have hm := State.decodeInto_inToken sel h
  unfold State.fetchSymbol
  cases hx : s.decodeInto sel with
  | ok v u =>
    rw [hx] at hm
    dsimp only
    split
    · rename_i i hi
      exact exec_endsSound (not_isReaderCommand_of_decode (by cases sel <;> simp [symbolFormat]) hi) hm
    · exact State.strangeSymbol_endsSound sel hm
  | raise e u =>
    rw [hx] at hm
    obtain ⟨hu, he⟩ := hm
    exact .of_next (State.raise_sound hu.order he)
  | wait => exact .of_next h.sound
  | fault f => exact .of_fault _ f

/-- A stored copy reads raw bytes with no carry, or ends its block (42_deflate_block R159). -/
theorem State.storedCopyStep_endsSound {s : State} (h : Claims.readerSound s) (hp : s.seq.phase = .storedCopy) :
    Ensures Claims.readerSound (s.storedCopyStep.settle s) := by
  have ⟨_, hcopy, herr⟩ := h
  have hc : s.reader.ccount = 0 := hcopy hp
  by_cases hr : s.block.srem = 0
  · rw [State.storedCopyStep, if_pos hr]
    exact .of_next (State.endOfBlock_sound h)
  · refine (State.storedCopyStep_meets hr).endsSound h ?_ ?_
    · rintro _ t ⟨b, r, -, hcr, rfl⟩
      exact ⟨.inl hcr, fun _ => hcr, herr⟩
    · rintro e t ⟨rfl, he⟩
      exact ⟨.inl hc, he hc⟩

theorem State.matchCopyStep_endsSound {s : State} (h : Claims.readerSound s) :
    Ensures Claims.readerSound (s.matchCopyStep.settle s) := by
  unfold State.matchCopyStep
  split
  · exact .of_next (State.goto_sound h (by simp))
  · split
    · exact .of_fault _ _
    · exact .of_next h

/-- Phase by phase (43_mszip_frame R207). -/
theorem State.fetchPhase_endsSound {s : State} (h : Claims.readerSound s) :
    Ensures Claims.readerSound s.fetchPhase.outcome := by
  unfold State.fetchPhase
  cases hp : s.seq.phase with
  | idle | done | error => exact .of_next h
  | storedCopy => exact State.storedCopyStep_endsSound h hp
  | matchCopy => exact State.matchCopyStep_endsSound h
  | sig => exact State.fetchSignature_endsSound ⟨h, by simp [hp]⟩
  | blkHdr => exact State.fetchHeader_endsSound ⟨h, by simp [hp]⟩
  | storedHdr => exact execStoredHdr_endsSound ⟨h, by simp [hp]⟩
  | dynHdr => exact execDynHdr_endsSound ⟨h, by simp [hp]⟩
  | payload => exact State.fetchSymbol_endsSound .ll ⟨h, by simp [hp]⟩
  | matchDist => exact State.fetchSymbol_endsSound .d ⟨h, by simp [hp]⟩
  | dynLens =>
    have ht : s.InToken := ⟨h, by simp [hp]⟩
    dsimp only
    split
    · exact State.fetchSymbol_endsSound .cl ht
    · exact ht.buildPayloadTables rfl rfl _ _

/-- Settles O56: with no command pending the engine runs its phase, and no phase's token raises an error of the reader's own. -/
theorem decodeRaisesNoReaderError : Obligations.DecodeRaisesNoReaderError := by
  rintro s t ⟨hs, hc⟩ h ht
  rw [step_of_noTurn hs] at ht
  refine State.engineStep_ensures ?_ h t ht
  rw [State.fetch_phase (s := s.awake) hc]
  exact State.fetchPhase_endsSound (s := s.awake) h

end Sys2Proof.Machine
end

section
/-! PROOFS. Progress under the invariant (70_reset_and_hazards R255, R257): no step is a model fault; each step of a phase is paid
for by the bits it takes from the stream, in bytes of output and in steps left to run. -/

namespace Sys2Proof.Machine

/-- Settles O53: the step lemma of the invariant shuts a model fault out. -/
theorem noModelFault : Obligations.NoModelFault := fun _ f h => (step_leadsInv h).noFault f

/-! ## What a phase owes and what it can still do -/

theorem owed_le_of_ne_matchCopy {s : State} (h : s.seq.phase ≠ .matchCopy) : Claims.owed s ≤ 129 := by
  unfold Claims.owed
  cases hp : s.seq.phase with
  | matchCopy => exact absurd hp h
  | _ => simp

theorem State.phaseWork_le_of_ne_matchCopy {s : State} (h : s.seq.phase ≠ .matchCopy) : s.phaseWork ≤ 2 := by
  unfold State.phaseWork
  cases hp : s.seq.phase with
  | matchCopy => exact absurd hp h
  | _ => simp

theorem State.phaseWork_pos {s : State} (h : s.busy = true) : 0 < s.phaseWork := by
  unfold State.busy at h
  unfold State.phaseWork
  cases hp : s.seq.phase with
  | idle | done | error => rw [hp] at h; cases h
  | _ => simp

/-- In DONE and ERROR nothing is owed and nothing is left to do (60_exceptions R226). -/
theorem owed_and_phaseWork_of_stopped {s : State} (h : s.seq.phase = .done ∨ s.seq.phase = .error) :
    Claims.owed s = 0 ∧ s.phaseWork = 0 := by
  unfold Claims.owed State.phaseWork
  rcases h with h | h <;> rw [h] <;> exact ⟨rfl, rfl⟩

/-- A later reader is any reader no bits further on. -/
theorem Reader.Later.beyond {r r' : Reader} (h : r.Later r') : Reader.Beyond 0 r r' := by
  have ⟨_, _, _, hbits, _⟩ := h
  exact ⟨h, hbits⟩

theorem Reader.Beyond.later {n : Nat} {a b c : Reader} (h : Reader.Beyond n a b) (h' : b.Later c) : Reader.Beyond n a c :=
  h.trans h'.beyond

/-! ## Moves paid for with bits -/

/-- `t` is `s` after `n` bits were taken from the stream and nothing was emitted. -/
structure State.Took (n : Nat) (s t : State) : Prop where
  bits : Reader.Beyond n s.reader t.reader
  out : t.window.out = s.window.out
  port : t.port = s.port

/-- `t` is `s` after a move for which `n` bits pay: at most 129 bytes of output for each, what a match owes included, and less
work left in the phase where there is none. -/
structure State.Spends (n : Nat) (s t : State) : Prop where
  bits : Reader.Beyond n s.reader t.reader
  output : t.window.out.length + Claims.owed t ≤ s.window.out.length + Claims.owed s + 129 * n
  work : t.phaseWork < s.phaseWork + 1024 * n
  port : t.port = s.port
  notIdle : t.seq.phase ≠ .idle

/-- `t` is where a move of the engine leads from `s`, paid for by the bits it takes. -/
def State.Pays (s t : State) : Prop := ∃ n, s.Spends n t

theorem State.After.took {s t : State} (h : s.After t) : s.Took 0 t := ⟨h.later.beyond, by rw [h.window], h.port⟩

theorem State.Took.after {n : Nat} {s u t : State} (h : s.Took n u) (ha : u.After t) : s.Took n t :=
  ⟨h.bits.later ha.later, by rw [ha.window, h.out], ha.port.trans h.port⟩

theorem State.Took.pays {n : Nat} {s t : State} (h : s.Took n t) (ho : Claims.owed t ≤ Claims.owed s + 129 * n)
    (hw : t.phaseWork < s.phaseWork + 1024 * n) (hi : t.seq.phase ≠ .idle) : s.Pays t :=
  ⟨n, h.bits, by rw [h.out]; omega, hw, h.port, hi⟩

/-- One bit pays for the entry into any phase but a match copy. -/
theorem State.Took.enters {n : Nat} {s t : State} {p : Phase} (h : s.Took n t) (hn : 1 ≤ n) (hp : t.seq.phase = p)
    (hi : p ≠ .idle) (hc : p ≠ .matchCopy) : s.Pays t := by
  have ho := owed_le_of_ne_matchCopy (hp ▸ hc)
  have hw := State.phaseWork_le_of_ne_matchCopy (hp ▸ hc)
  exact h.pays (by omega) (by omega) (hp ▸ hi)

/-- A running sequence may stop at any time. -/
theorem State.Took.stops {n : Nat} {s t : State} (h : s.Took n t) (hb : s.busy = true)
    (hp : t.seq.phase = .done ∨ t.seq.phase = .error) : s.Pays t := by
  obtain ⟨ho, hw⟩ := owed_and_phaseWork_of_stopped hp
  have hs := State.phaseWork_pos hb
  refine h.pays (by omega) (by omega) ?_
  rcases hp with hp | hp <;> simp [hp]

theorem State.Took.raise {n : Nat} {s u : State} (h : s.Took n u) (hb : s.busy = true) (e : ErrKind) : s.Pays (u.raise e) :=
  State.Took.stops ⟨h.bits, h.out, h.port⟩ hb (.inr rfl)

theorem State.Took.sigMismatch {n : Nat} {s u : State} (h : s.Took n u) (hb : s.busy = true) : s.Pays u.sigMismatch := by
  unfold State.sigMismatch
  split
  · exact State.Took.stops ⟨h.bits, h.out, h.port⟩ hb (.inl rfl)
  · exact h.raise hb _

theorem State.endOfBlock_took (s : State) : s.Took 0 s.endOfBlock := by
  unfold State.endOfBlock
  split <;> exact ⟨(Reader.Later.refl _).beyond, rfl, rfl⟩

theorem State.endOfBlock_phase (s : State) : s.endOfBlock.seq.phase = .sig ∨ s.endOfBlock.seq.phase = .blkHdr := by
  unfold State.endOfBlock
  split
  · exact .inl rfl
  · exact .inr rfl

/-! ## Outcomes -/

/-- The outcome is a wait or a state the move pays for; a model fault is not shut out here. -/
def State.Proceeds (s : State) (o : Host.Outcome State Fault Refusal) : Prop :=
  Ensures (fun t => t.port.waiting = true ∨ s.Pays t) o

theorem State.Pays.proceeds {s t : State} (h : s.Pays t) : s.Proceeds (.next t) := .of_next (.inr h)

theorem State.proceeds_wait (s u : State) : s.Proceeds (.next u.wait) := .of_next (.inl rfl)

/-- A settled operation proceeds where its answers and its raises are paid for. -/
theorem Res.Meets.proceeds {s u : State} {x : Res State Unit} {okP : Unit → State → Prop} {raiseP : ErrKind → State → Prop}
    {waitP : Prop} {faultP : Fault → Prop} (hx : x.Meets okP raiseP waitP faultP) (hok : ∀ a t, okP a t → s.Pays t)
    (hraise : ∀ e t, raiseP e t → s.Pays (t.raise e)) : s.Proceeds (x.settle u) := by
  cases x with
  | ok a t => exact (hok a t hx).proceeds
  | raise e t => exact (hraise e t hx).proceeds
  | wait => exact s.proceeds_wait u
  | fault f => exact .of_fault _ f

theorem State.MeetsToken.proceeds {n : Nat} {s u : State} {x : Res State Unit} {okP : State → Prop} (hx : u.MeetsToken x okP)
    (h : s.Took n u) (hb : s.busy = true) (hok : ∀ t, okP t → s.Pays t) : s.Proceeds (x.settle u) :=
  Res.Meets.proceeds hx (fun _ => hok) fun e _ hr => (h.after hr.1).raise hb e

/-- Both payload tables built, then PAYLOAD: paid for by a header's bits or by the end of DYN_LENS (42_deflate_block R169, R170). -/
theorem State.Took.buildPayloadTables {n : Nat} {s u : State} (h : s.Took n u) (hb : s.busy = true)
    (hw : 1 < s.phaseWork + 1024 * n) (ll d : List (BitVec 4)) (s0 : State) :
    s.Proceeds ((u.buildPayloadTables ll d).settle s0) := by
  refine (u.buildPayloadTables_meets ll d).proceeds ?_ ?_
  · rintro _ t ⟨x, y, -, -, rfl⟩
    exact State.Took.pays ⟨h.bits, h.out, h.port⟩ (Nat.zero_le _) hw (by simp)
  · rintro e t ⟨-, hr, hwin, -, hp⟩
    exact State.Took.raise ⟨hr ▸ h.bits, hwin ▸ h.out, hp ▸ h.port⟩ hb e

/-! ## Frames and blocks -/

theorem State.fetchSignature_proceeds {s : State} (hb : s.busy = true) : s.Proceeds s.fetchSignature.outcome := by
  have hm := s.reader.readSignature_meets
  unfold State.fetchSignature
  cases hx : s.reader.readSignature with
  | ok v r =>
    rw [hx] at hm
    obtain ⟨hl, -, h16⟩ := hm
    have hu : s.Took 0 { s with reader := r } := ⟨hl.beyond, rfl, rfl⟩
    cases v with
    | none => exact (hu.sigMismatch hb).proceeds
    | some v =>
      simp only [State.withReader_ok]
      split
      · rename_i i hi
        cases decode_sig hi
        exact State.Pays.proceeds (State.Took.enters (n := 16) ⟨h16 rfl, rfl, rfl⟩ (by decide) rfl (by simp) (by simp))
      · exact (hu.sigMismatch hb).proceeds
  | raise e r => rw [hx] at hm; exact hm.elim
  | wait => exact s.proceeds_wait s
  | fault f => exact .of_fault _ f

/-- A fixed block's tables (42_deflate_block R170). -/
theorem execBtypeFixed_proceeds {n : Nat} {s u : State} (h : s.Took n u) (hn : 1 ≤ n) (hb : s.busy = true) (f : Bool) :
    s.Proceeds (execBtypeFixed f u) := by
  unfold execBtypeFixed
  exact State.Took.buildPayloadTables (u := u.latchHeader f 1) ⟨h.bits, h.out, h.port⟩ hb (by omega) _ _ u

/-- The block types, after a header has been read (42_deflate_block R151). -/
theorem exec_blkHdr_proceeds {n v : Nat} {i : Instr} {s u : State} (h : s.Took n u) (hn : 1 ≤ n) (hb : s.busy = true)
    (hi : decode .blkHdr v = .ok i) : s.Proceeds (exec i u) := by
  obtain ⟨f, rfl | rfl | rfl | rfl⟩ := decode_blkHdr hi
  · exact State.Pays.proceeds (State.Took.enters ⟨h.bits, h.out, h.port⟩ hn rfl (by simp) (by simp))
  · exact execBtypeFixed_proceeds h hn hb f
  · exact State.Pays.proceeds (State.Took.enters ⟨h.bits, h.out, h.port⟩ hn rfl (by simp) (by simp))
  · exact State.Pays.proceeds (State.Took.raise (u := u.latchHeader f 3) ⟨h.bits, h.out, h.port⟩ hb _)

theorem State.fetchHeader_proceeds {s : State} (hb : s.busy = true) : s.Proceeds s.fetchHeader.outcome := by
  have hm := s.readHeader_meets
  unfold State.fetchHeader
  cases hx : s.readHeader with
  | ok v u =>
    rw [hx] at hm
    obtain ⟨ha, h3, -⟩ := hm
    have hu : s.Took 3 u := ⟨h3, by rw [ha.window], ha.port⟩
    dsimp only
    split
    · rename_i i hi
      exact exec_blkHdr_proceeds hu (by decide) hb hi
    · exact (hu.raise hb _).proceeds
  | raise e u => rw [hx] at hm; exact (hm.1.took.raise hb e).proceeds
  | wait => exact s.proceeds_wait s
  | fault f => exact .of_fault _ f

theorem execStoredHdr_proceeds {s : State} (hb : s.busy = true) : s.Proceeds (execStoredHdr s) := by
  refine s.storedHdr_meets.proceeds (State.After.refl s).took hb ?_
  rintro t ⟨h32, -, hw, hp, -, -, hs⟩
  exact State.Took.enters ⟨h32, by rw [hw], hp⟩ (by decide) (by rw [hs]) (by simp) (by simp)

/-- A byte of a stored copy costs eight bits; its end costs the phase (42_deflate_block R159). -/
theorem State.storedCopyStep_proceeds {s : State} (hp : s.seq.phase = .storedCopy) (hb : s.busy = true) :
    s.Proceeds (s.storedCopyStep.settle s) := by
  have hw : s.phaseWork = 2 := by rw [State.phaseWork, hp]
  by_cases hr : s.block.srem = 0
  · rw [State.storedCopyStep, if_pos hr]
    refine State.Pays.proceeds (s.endOfBlock_took.pays ?_ ?_ ?_)
    all_goals rcases s.endOfBlock_phase with h | h <;> simp [Claims.owed, State.phaseWork, h, hp]
  · refine (State.storedCopyStep_meets hr).proceeds ?_ ?_
    · rintro _ t ⟨b, r, h8, -, rfl⟩
      refine ⟨8, h8, ?_, ?_, rfl, by simp [hp]⟩
      · simp [Claims.owed, hp]
      · simp [State.phaseWork, hp]
    · rintro e t ⟨rfl, -⟩
      exact (State.After.refl t).took.raise hb e

/-! ## The dynamic header and the symbols -/

theorem execDynHdr_proceeds {s : State} (hb : s.busy = true) : s.Proceeds (execDynHdr s) := by
  refine s.dynHdr_meets.proceeds (State.After.refl s).took hb ?_
  rintro t ⟨u, ha, h14, rfl, -⟩
  exact State.Took.enters (n := 14) ⟨h14, by simp [ha.window], ha.port⟩ (by decide) rfl (by simp) (by simp)

/-- `u` is `s` after a symbol was decoded: at least a bit taken, nothing written but the symbol (41_huffman R136). -/
structure State.Decoded (s u : State) : Prop where
  took : s.Took 1 u
  seq : u.seq = s.seq
  block : u.block = { s.block with sym := u.block.sym }

/-- A symbol decoded, then its token (42_deflate_block R163, R171, R181). -/
theorem State.fetchSymbol_proceeds {n : Nat} {sel : TableSel} {s : State} (hb : s.busy = true) (hn : n ≤ 512)
    (ht : tablePresent n (s.block.table sel))
    (hrun : ∀ (i : Instr) (u : State) (v : Nat), s.Decoded u → decode (symbolFormat sel) v = .ok i → s.Proceeds (exec i u)) :
    s.Proceeds (s.fetchSymbol sel).outcome := by
  have hm := State.decodeInto_meets hn ht
  unfold State.fetchSymbol
  cases hx : s.decodeInto sel with
  | ok _ u =>
    rw [hx] at hm
    obtain ⟨h1, -, -, hu⟩ := hm
    have hd : s.Decoded u := ⟨⟨h1, by rw [hu], by rw [hu]⟩, by rw [hu], by rw [hu]⟩
    dsimp only
    split
    · rename_i i hi
      exact hrun i u _ hd hi
    · cases sel with
      | cl => exact .of_fault _ _
      | ll | d => exact (hd.took.raise hb _).proceeds
  | raise e u =>
    rw [hx] at hm
    obtain ⟨hl, -, -, hu⟩ := hm
    exact (State.Took.raise (n := 0) ⟨hl.beyond, by rw [hu], by rw [hu]⟩ hb e).proceeds
  | wait => exact s.proceeds_wait s
  | fault f => exact .of_fault _ f

/-- The code-length tokens stay in DYN_LENS (42_deflate_block R163 to R168). -/
theorem exec_clSymbol_proceeds {v : Nat} {i : Instr} {s u : State} (hl : s.block.lensInv) (hp : s.seq.phase = .dynLens)
    (hli : s.block.li.toNat < s.block.lensTotal) (hb : s.busy = true) (hu : s.Decoded u) (hi : decode .clSymbol v = .ok i) :
    s.Proceeds (exec i u) := by
  have htotal : u.block.lensTotal = s.block.lensTotal := by rw [hu.block]; rfl
  have hu_li : u.block.li = s.block.li := by rw [hu.block]
  have h320 := hl.total_le
  have appended : ∀ t, u.Appended t → s.Pays t := by
    rintro t ⟨ha, -⟩
    exact (hu.took.after ha).enters (p := .dynLens) le_rfl (by rw [ha.seq, hu.seq, hp]) (by simp) (by simp)
  have h320' : u.block.lensTotal ≤ 320 := htotal ▸ h320
  have hli' : u.block.li.toNat < u.block.lensTotal := by rw [htotal, hu_li]; exact hli
  rcases decode_clSymbol hi with ⟨l, rfl⟩ | rfl | rfl | rfl
  · exact (State.appendLens_meets hli' h320').proceeds hu.took hb appended
  · exact (State.clRep_meets (by omega) h320').proceeds hu.took hb appended
  · exact (State.zeroRun_meets (by decide) h320').proceeds hu.took hb appended
  · exact (State.zeroRun_meets (by decide) h320').proceeds hu.took hb appended

/-- The literal/length tokens: the bits of the symbol pay for a byte, or for half of the longest match (42_deflate_block R171 to
R180). -/
theorem exec_llSymbol_proceeds {v : Nat} {i : Instr} {s u : State} (hp : s.seq.phase = .payload) (hb : s.busy = true)
    (hu : s.Decoded u) (hi : decode .llSymbol v = .ok i) : s.Proceeds (exec i u) := by
  obtain ⟨h, hs, -⟩ := hu
  rcases decode_llSymbol hi with ⟨b, rfl⟩ | rfl | ⟨row, hrow, rfl⟩ | ⟨odd, rfl⟩
  · refine State.Pays.proceeds ⟨1, h.bits, ?_, ?_, h.port, by simp [hs, hp]⟩
    · simp [Claims.owed, hs, hp, h.out]
    · simp [State.phaseWork, hs, hp]
  · have ht : s.Took 1 u.endOfBlock := by
      obtain ⟨hbits, hout, hport⟩ := u.endOfBlock_took
      exact ⟨h.bits.later hbits.1, hout.trans h.out, hport.trans h.port⟩
    rcases u.endOfBlock_phase with hend | hend
    · exact (ht.enters le_rfl hend (by simp) (by simp)).proceeds
    · exact (ht.enters le_rfl hend (by simp) (by simp)).proceeds
  · obtain ⟨he, -, hhi⟩ := lengthRows_range hrow
    rw [exec_lengthRows hrow]
    refine (State.matchLength_meets he (by omega)).proceeds h hb ?_
    rintro t ⟨w, ha, -, -, -, rfl⟩
    have hw := h.after ha
    exact State.Took.enters ⟨hw.bits, hw.out, hw.port⟩ le_rfl rfl (by simp) (by simp)
  · exact (h.raise hb _).proceeds

/-- The distance tokens: the bits of the second symbol pay for the other half of the match (42_deflate_block R181 to R185). -/
theorem exec_dSymbol_proceeds {v : Nat} {i : Instr} {s u : State} (hl : s.block.lengthInv) (hp : s.seq.phase = .matchDist)
    (hb : s.busy = true) (hu : s.Decoded u) (hi : decode .dSymbol v = .ok i) : s.Proceeds (exec i u) := by
  have h := hu.took
  rcases decode_dSymbol hi with ⟨row, hrow, rfl⟩ | ⟨odd, rfl⟩
  · obtain ⟨he, hlo, hhi⟩ := distanceRows_range hrow
    rw [exec_distanceRows hrow]
    refine (State.matchDistance_meets he hlo (by omega)).proceeds h hb ?_
    rintro t ⟨w, ha, hbl, -, -, rfl⟩
    have hw := h.after ha
    have hmrem : w.block.mrem.toNat ≤ 258 := by
      rw [hbl, hu.block]
      exact hl.2
    have howed : Claims.owed (w.goto .matchCopy) = w.block.mrem.toNat ∧ Claims.owed s = 129 := by simp [Claims.owed, hp]
    have hwork : (w.goto .matchCopy).phaseWork = w.block.mrem.toNat + 2 := by simp [State.phaseWork]
    exact State.Took.pays (n := 1) ⟨hw.bits, hw.out, hw.port⟩ (by omega) (by omega) (by simp)
  · exact (h.raise hb _).proceeds

/-- A byte of a match copy is owed already, and leaves one less to copy (42_deflate_block R184). -/
theorem State.matchCopyStep_proceeds {s : State} (hp : s.seq.phase = .matchCopy) :
    s.Proceeds (s.matchCopyStep.settle s) := by
  unfold State.matchCopyStep
  split
  · refine State.Pays.proceeds (State.Took.pays (n := 0) ⟨(Reader.Later.refl _).beyond, rfl, rfl⟩ ?_ ?_ (by simp))
    · simp [Claims.owed]
    · simp [State.phaseWork, hp]
  · rename_i hr
    split
    · exact .of_fault _ _
    · have hpos : 1 ≤ s.block.mrem.toNat := one_le_toNat_of_ne_zero hr
      have hsub : (s.block.mrem - 1).toNat = s.block.mrem.toNat - 1 := by
        have := s.block.mrem.isLt
        rw [BitVec.toNat_sub]
        simp
        omega
      refine State.Pays.proceeds ⟨0, (Reader.Later.refl _).beyond, ?_, ?_, rfl, by simp [hp]⟩
      · simp only [Claims.owed, State.emit_window, State.emit_seq, hp, hsub, Window.emit_out, List.length_append,
          List.length_singleton]
        omega
      · simp only [State.phaseWork, State.emit_seq, hp, hsub]
        omega

/-! ## The engine's step -/

/-- Phase by phase (43_mszip_frame R207). -/
theorem State.fetchPhase_proceeds {s : State} (h : s.Inv) (hb : s.busy = true) : s.Proceeds s.fetchPhase.outcome := by
  have hph := h.phase
  unfold State.fetchPhase
  cases hp : s.seq.phase with
  | idle | done | error => rw [State.busy, hp] at hb; cases hb
  | sig => exact State.fetchSignature_proceeds hb
  | blkHdr => exact State.fetchHeader_proceeds hb
  | storedHdr => exact execStoredHdr_proceeds hb
  | storedCopy => exact State.storedCopyStep_proceeds hp hb
  | dynHdr => exact execDynHdr_proceeds hb
  | dynLens =>
    rw [hp] at hph
    dsimp only
    split
    · rename_i hli
      exact State.fetchSymbol_proceeds (sel := .cl) hb (by decide) hph.1 fun _ _ _ hu hi =>
        exec_clSymbol_proceeds hph hp hli hb hu hi
    · exact (State.After.refl s).took.buildPayloadTables hb (by simp [State.phaseWork, hp]) _ _ s
  | payload =>
    rw [hp] at hph
    exact State.fetchSymbol_proceeds (sel := .ll) hb (by decide) hph.1 fun _ _ _ hu hi => exec_llSymbol_proceeds hp hb hu hi
  | matchDist =>
    rw [hp] at hph
    exact State.fetchSymbol_proceeds (sel := .d) hb (by decide) hph.1.2 fun _ _ _ hu hi =>
      exec_dSymbol_proceeds hph.2 hp hb hu hi
  | matchCopy => exact State.matchCopyStep_proceeds hp

/-- A step of a running sequence with no command pending is paid for, or waits on a FetchByte that is not answered. -/
theorem State.engineStep_pays {s t : State} (h : s.Inv) (hb : s.busy = true) (hc : s.port.cmd = none)
    (ht : s.engineStep = .next t) : s.awake.Pays t ∨ (t = s.awake.wait ∧ ¬ s.reader.Ready) := by
  refine (s.engineStep_movesOn t ht).imp_left fun ho => ?_
  have hp : s.awake.Proceeds s.engineStep := by
    refine State.engineStep_ensures ?_ (.inl rfl)
    rw [State.fetch_phase (s := s.awake) hc]
    exact State.fetchPhase_proceeds (s := s.awake) h hb
  exact (hp t ht).resolve_left (by simp [ho.waiting])

/-! ## Progress -/

/-- With every FetchByte answered a step leads on, not to IDLE, and lowers the measure (70_reset_and_hazards R257). -/
theorem step_progress {s : State} (h : s.Inv) (hb : s.busy = true) (hal : s.engineAlone) (ha : s.reader.answered) :
    ∃ t, step s = .next t ∧ s.awake.Pays t ∧ t.reader.answered ∧ t.work < s.work := by
  have hready : s.reader.Ready := ⟨ha, h.inside⟩
  cases ht : step s with
  | fault f => exact absurd ht (noModelFault s f h)
  | refused r => exact absurd (step_of_noTurn hal.1 ▸ ht) (s.engineStep_ne_refused r)
  | next t =>
    have hpays := (State.engineStep_pays h hb hal.2 (step_of_noTurn hal.1 ▸ ht)).resolve_right fun ⟨_, hwait⟩ => hwait hready
    have ⟨n, hbits, _, hwork, _, _⟩ := hpays
    have hleft : t.reader.bitsLeft + n ≤ s.reader.bitsLeft := hbits.bitsLeft hready
    have hphase : s.awake.phaseWork = s.phaseWork := rfl
    refine ⟨t, rfl, hpays, (hready.later hbits.1).1, ?_⟩
    simp only [State.work]
    omega

theorem State.Pays.engineAlone {s t : State} (h : s.awake.Pays t) (hal : s.engineAlone) : t.engineAlone := by
  obtain ⟨n, -, -, -, hport, -⟩ := h
  unfold State.engineAlone
  rw [hport]
  exact hal

/-- Settles O59: a step of an answered sequence is paid for, by bits or by the phase's own work. -/
theorem engineStepMakesProgress : Obligations.EngineStepMakesProgress := by
  intro s h hb hal ha
  obtain ⟨t, ht, hpays, hans, hwork⟩ := step_progress h hb hal ha
  refine ⟨t, ht, everyStepKeepsTheInvariant s t h ht, hpays.engineAlone hal, hans, ?_, hwork⟩
  obtain ⟨n, -, -, -, hport, -⟩ := hpays
  rw [hport]
  rfl

theorem stopped_of_not_busy {s : State} (hb : s.busy = false) (hi : s.seq.phase ≠ .idle) :
    s.seq.phase = .done ∨ s.seq.phase = .error := by
  unfold State.busy at hb
  cases hp : s.seq.phase with
  | idle => exact absurd hp hi
  | done => exact .inl rfl
  | error => exact .inr rfl
  | _ => rw [hp] at hb; cases hb

/-- Settles O60, by induction on the measure. -/
theorem everyAnsweredRunEnds : Obligations.EveryAnsweredRunEnds := by
  intro s
  induction hw : s.work using Nat.strong_induction_on generalizing s with
  | _ w ih =>
    intro h hb hal ha
    obtain ⟨t, ht, hpays, hans, hlt⟩ := step_progress h hb hal ha
    have hinv := everyStepKeepsTheInvariant s t h ht
    cases hbt : t.busy with
    | true =>
      obtain ⟨n, u, hn, hrun, hu⟩ := ih t.work (hw ▸ hlt) t rfl hinv hbt (hpays.engineAlone hal) hans
      exact ⟨n + 1, u, by omega, (core_run_succ ht n).trans hrun, hu⟩
    | false =>
      obtain ⟨n, -, -, -, -, hidle⟩ := hpays
      exact ⟨1, t, by omega, core_run_succ ht 0, hinv, stopped_of_not_busy hbt hidle⟩

end Sys2Proof.Machine
end

section
/-! PROOFS. Reset and START (70_reset_and_hazards R250 to R252). -/

namespace Sys2Proof.Machine

/-- Hardware reset and a write of CTRL with SRST set, with or without START (70_reset_and_hazards R251). -/
theorem step_of_reset {s : State} {rest : List Turn}
    (h : s.port.turns = .reset :: rest ∨ ∃ v : Word, v.getLsbD 1 = true ∧ s.port.turns = .write 0 .word v :: rest) :
    step s = .next (s.dropTurn rest).resetCore := by
  obtain h | ⟨v, hv, h⟩ := h
  · exact step_of_turn h
  · rw [step_of_turn h, State.takeTurn, State.busWrite_word (by decide)]
    simp only [State.writeReg, State.writeCtrl, hv, if_true]

/-- Settles O39. -/
theorem resetAndSoftReset : Obligations.ResetAndSoftReset :=
  fun _ _ => ⟨fun h => step_of_reset (.inl h), fun v hv h => step_of_reset (.inr ⟨v, hv, h⟩)⟩

theorem State.readReg_reset (offset : Word) : State.reset.readReg offset = 0 := by
  unfold State.readReg
  split_ifs <;> rfl

/-- A reset, whatever runs, sets the core's registers to their reset values (70_reset_and_hazards R250). -/
theorem step_reset_values {u : State} {rest : List Turn}
    (h : u.port.turns = .reset :: rest ∨ ∃ v : Word, v.getLsbD 1 = true ∧ u.port.turns = .write 0 .word v :: rest) :
    ∃ t, step u = .next t ∧ t.seq = State.reset.seq ∧ t.port.bound = none ∧
      t.reader = { State.reset.reader with granted := t.reader.granted } ∧
      t.window = { State.reset.window with hist := t.window.hist, out := t.window.out } ∧
      t.block = { State.reset.block with sym := t.block.sym } :=
  ⟨_, step_of_reset h, rfl, rfl, rfl, rfl, rfl⟩

/-- Settles O38: the 35 values are those written out in `State.reset`, and every reset leads to them. -/
theorem resetValues : Obligations.ResetValues := by
  unfold Obligations.ResetValues
  iterate 35 refine ⟨rfl, ?_⟩
  exact ⟨State.readReg_reset, fun _ _ => step_reset_values⟩

/-- Settles O40: SRST is not set, so CTRL starts a sequence or is ignored. -/
theorem startBeginsASequence : Obligations.StartBeginsASequence := by
  intro s v rest hv ht
  refine ⟨0, ?_⟩
  rw [step_of_turn ht, State.takeTurn, State.busWrite_word (by decide)]
  have hbusy : (s.dropTurn rest).busy = s.busy := rfl
  simp only [State.writeReg, State.writeCtrl, hv, hbusy, Bool.false_eq_true, if_false, if_true, Bool.and_eq_true,
    Bool.not_eq_true']
  split_ifs <;> rfl

/-- Settles O50. -/
theorem resetIsSafe : Obligations.ResetIsSafe :=
  ⟨State.reset.resetCore_inv, ⟨.inl rfl, fun _ => rfl, by decide, by decide, by decide⟩, trivial, Nat.le_refl 0⟩

end Sys2Proof.Machine
end

section
/-! PROOFS. Every step, of the host or the engine, keeps the bound of the output by the input (70_reset_and_hazards R257). -/

namespace Sys2Proof.Machine

/-! ## Where a step can lead -/

/-- A host's move resets, starts a sequence, or rests and leaves the carry and the position (60_exceptions R234). -/
theorem State.hostTurn_cases {s t : State} {turn : Turn} (hne : turn ≠ .engine) (ht : s.takeTurn turn = .next t) :
    t = s.resetCore ∨ t = s.start ∨
      (s.Rests t ∧ t.reader.pos = s.reader.pos ∧ t.reader.ccount = s.reader.ccount) := by
  cases turn with
  | engine => exact absurd rfl hne
  | reset => cases ht; exact .inl rfl
  | answer n => cases ht; exact .inr (.inr ⟨.of_same rfl rfl rfl, rfl, rfl⟩)
  | bind bytes =>
    simp only [State.takeTurn, State.bindInput] at ht
    split at ht <;> cases ht
    exact .inr (.inr ⟨.of_same rfl rfl rfl, by simp, by simp⟩)
  | command w =>
    simp only [State.takeTurn, State.issueCommand] at ht
    split at ht <;> cases ht
    exact .inr (.inr ⟨.of_same rfl rfl rfl, rfl, rfl⟩)
  | read offset width =>
    simp only [State.takeTurn, State.busRead] at ht
    split_ifs at ht <;> cases ht
    · exact .inr (.inr ⟨.of_same rfl rfl rfl, rfl, rfl⟩)
    · exact .inr (.inr ⟨.of_same rfl rfl rfl, rfl, rfl⟩)
  | write offset width v =>
    simp only [State.takeTurn, State.busWrite] at ht
    split at ht <;> cases ht
    unfold State.writeReg State.writeCtrl
    split_ifs
    · exact .inl rfl
    · exact .inr (.inl rfl)
    · exact .inr (.inr ⟨.of_same rfl rfl rfl, rfl, rfl⟩)
    · exact .inr (.inr ⟨⟨rfl, rfl, rfl, rfl⟩, rfl, rfl⟩)
    · exact .inr (.inr ⟨.of_same rfl rfl rfl, rfl, rfl⟩)

/-- One step: the engine's, or the host's, which resets, starts a sequence, or rests and leaves the carry and the position. -/
theorem step_cases {s t : State} (ht : step s = .next t) :
    ∃ turns, (s.dropTurn turns).engineStep = .next t ∨ t = (s.dropTurn turns).resetCore ∨ t = (s.dropTurn turns).start ∨
      ((s.dropTurn turns).Rests t ∧ t.reader.pos = s.reader.pos ∧ t.reader.ccount = s.reader.ccount) := by
  cases hturns : s.port.turns with
  | nil => exact ⟨s.port.turns, .inl (step_of_noTurn hturns ▸ ht)⟩
  | cons turn rest =>
    rw [step_of_turn hturns] at ht
    by_cases hne : turn = .engine
    · subst hne
      exact ⟨rest, .inl ht⟩
    · exact ⟨rest, .inr (State.hostTurn_cases hne ht)⟩

/-- An engine's step is its phase's own in a running sequence, or rests: a reader command's, and any outside a sequence. -/
theorem State.engineStep_cases {s t : State} (ht : s.engineStep = .next t) :
    (s.busy = true ∧ s.port.cmd = none) ∨ s.Rests t := by
  cases hc : s.port.cmd with
  | some w =>
    refine .inr (State.engineStep_ensures ?_ (.of_same rfl rfl rfl) t ht)
    have hf : s.awake.fetch = s.awake.fetchCommand w := by simp only [State.fetch, State.awake_port, hc]
    rw [hf]
    intro u hu
    obtain ⟨hp, he, hw, hb⟩ := s.awake.fetchCommand_rests w u hu
    exact ⟨hp, he, hw, hb⟩
  | none =>
    cases hb : s.busy with
    | true => exact .inl ⟨rfl, rfl⟩
    | false => exact .inr (State.engineStep_rests hb t ht)

/-! ## The bound of the output by the input -/

/-- A state that rests where `s` does is bounded if the stream has not moved back. -/
theorem State.Rests.outputBounded {s t : State} (h : s.Rests t) (hs : Claims.outputBounded s)
    (hl : 8 * s.reader.pos + t.reader.ccount.toNat ≤ 8 * t.reader.pos + s.reader.ccount.toNat) : Claims.outputBounded t := by
  have howed : Claims.owed t = Claims.owed s := by simp only [Claims.owed, h.phase, h.block]
  simp only [Claims.outputBounded, h.window, howed] at hs ⊢
  omega

theorem State.Pays.outputBounded {s t : State} (h : s.Pays t) (hs : Claims.outputBounded s) : Claims.outputBounded t := by
  obtain ⟨n, ⟨-, hbits⟩, hout, -⟩ := h
  simp only [Claims.outputBounded] at hs ⊢
  omega

theorem State.engineStep_outputBounded {s t : State} (h : s.Inv) (hs : Claims.outputBounded s) (ht : s.engineStep = .next t) :
    Claims.outputBounded t := by
  rcases State.engineStep_cases ht with ⟨hb, hc⟩ | hr
  · rcases State.engineStep_pays h hb hc ht with hp | ⟨rfl, -⟩
    · exact hp.outputBounded hs
    · exact hs
  · obtain ⟨-, -, -, hl, -⟩ := (s.engineStep_goesForward t ht).later
    exact hr.outputBounded hs hl

/-- Settles O58: the bits a step takes pay for what it emits and owes; reset and START empty OUT. -/
theorem outputIsBoundedByInput : Obligations.OutputIsBoundedByInput := by
  intro s t h hs ht
  obtain ⟨turns, ht | rfl | rfl | ⟨hr, hp, hc⟩⟩ := step_cases ht
  · exact State.engineStep_outputBounded (s := s.dropTurn turns) h hs ht
  · exact Nat.le_refl 0
  · exact Nat.le_refl 0
  · exact hr.outputBounded hs (by simp [hp, hc])

end Sys2Proof.Machine
end

section
/-! PROOFS. Every step keeps the lifetime of the tables (70_reset_and_hazards R261), with no other premise. -/

namespace Sys2Proof.Machine

/-! ## Tables and the phases they live in -/

/-- All three table registers are absent (10_state R40). -/
def State.NoTables (s : State) : Prop := s.block.tCl = none ∧ s.block.tLl = none ∧ s.block.tD = none

theorem State.NoTables.inBlock {s : State} (h : s.NoTables) : Claims.tablesInBlock s := by
  obtain ⟨hcl, hll, hd⟩ := h
  unfold Claims.tablesInBlock
  cases s.seq.phase with
  | sig | blkHdr | storedHdr | storedCopy | dynHdr => exact ⟨hcl, hll, hd⟩
  | dynLens => exact ⟨hll, hd⟩
  | _ => trivial

theorem State.endOfBlock_noTables (s : State) : s.endOfBlock.NoTables := by
  unfold State.endOfBlock
  split <;> exact ⟨rfl, rfl, rfl⟩

theorem State.sigMismatch_inBlock (s : State) : Claims.tablesInBlock s.sigMismatch := by
  unfold State.sigMismatch
  split <;> trivial

/-- `t` has the phase and the tables of `s`. -/
structure State.SameTables (s t : State) : Prop where
  phase : t.seq.phase = s.seq.phase
  tCl : t.block.tCl = s.block.tCl
  tLl : t.block.tLl = s.block.tLl
  tD : t.block.tD = s.block.tD

theorem State.SameTables.trans {a b c : State} (h : a.SameTables b) (h' : b.SameTables c) : a.SameTables c :=
  ⟨h'.phase.trans h.phase, h'.tCl.trans h.tCl, h'.tLl.trans h.tLl, h'.tD.trans h.tD⟩

theorem State.SameTables.inBlock {s t : State} (h : s.SameTables t) (hs : Claims.tablesInBlock s) : Claims.tablesInBlock t := by
  simpa only [Claims.tablesInBlock, h.phase, h.tCl, h.tLl, h.tD] using hs

theorem State.Rests.sameTables {s t : State} (h : s.Rests t) : s.SameTables t :=
  ⟨h.phase, by rw [h.block], by rw [h.block], by rw [h.block]⟩

/-! ## Operations that write no table -/

/-- The operation answers with the tables and the phase as they were; a raise, which enters ERROR, may do anything. -/
def State.KeepsTables {α : Type} (s : State) (x : Res State α) : Prop :=
  x.Meets (fun _ t => s.SameTables t) (fun _ _ => True) True (fun _ => True)

/-- The rule of sequence. -/
theorem State.KeepsTables.bind {α β : Type} {s : State} {x : Res State α} {k : α → State → Res State β} (h : s.KeepsTables x)
    (hk : ∀ (a : α) (u : State), u.KeepsTables (k a u)) : s.KeepsTables (x.bind k) :=
  Res.Meets.bind h fun a u hu => (hk a u).mono (fun _ _ => hu.trans) (fun _ _ => id) id fun _ => id

theorem State.withReader_keepsTables {α : Type} (s : State) (x : Res Reader α) : s.KeepsTables (s.withReader x) := by
  cases x with
  | ok a r => exact ⟨rfl, rfl, rfl, rfl⟩
  | _ => trivial

theorem State.readExtra_keepsTables (base e : Nat) (s : State) : s.KeepsTables (s.readExtra base e) :=
  (s.withReader_keepsTables _).bind fun _ _ => ⟨rfl, rfl, rfl, rfl⟩

theorem State.decodeInto_keepsTables (sel : TableSel) (s : State) : s.KeepsTables (s.decodeInto sel) := by
  unfold State.decodeInto
  split
  · trivial
  · exact (s.withReader_keepsTables _).bind fun _ _ => ⟨rfl, rfl, rfl, rfl⟩

theorem State.appendLens_keepsTables (v : BitVec 4) (r : Nat) (s : State) : s.KeepsTables (s.appendLens v r) := by
  unfold State.appendLens
  split
  · trivial
  · exact ⟨rfl, rfl, rfl, rfl⟩

theorem State.runFill_keepsTables (v : BitVec 4) (r : Nat) (s : State) : s.KeepsTables (s.runFill v r) := by
  unfold State.runFill
  split
  · trivial
  · exact s.appendLens_keepsTables v r

theorem State.repeatPrevious_keepsTables (r : Nat) (s : State) : s.KeepsTables (s.repeatPrevious r) := by
  unfold State.repeatPrevious
  split
  · exact s.runFill_keepsTables _ r
  · trivial

/-! ## Outcomes -/

/-- A settled operation ends with the tables in their block if its answers do: ERROR has no claim on them. -/
theorem Res.Meets.endsInBlock {s : State} {x : Res State Unit} {okP : Unit → State → Prop} {raiseP : ErrKind → State → Prop}
    {waitP : Prop} {faultP : Fault → Prop} (hx : x.Meets okP raiseP waitP faultP) (hs : Claims.tablesInBlock s)
    (hok : ∀ a t, okP a t → Claims.tablesInBlock t) : Ensures Claims.tablesInBlock (x.settle s) := by
  cases x with
  | ok a t => exact .of_next (hok a t hx)
  | raise e t => exact .of_next trivial
  | wait => exact .of_next hs
  | fault f => exact .of_fault _ f

theorem State.KeepsTables.endsInBlock {s : State} {x : Res State Unit} (hx : s.KeepsTables x) (hs : Claims.tablesInBlock s) :
    Ensures Claims.tablesInBlock (x.settle s) :=
  Res.Meets.endsInBlock hx hs fun _ _ ht => ht.inBlock hs

/-- Both payload tables built, then PAYLOAD, where they may live (42_deflate_block R169, R170). -/
theorem State.buildPayloadTables_endsInBlock {s : State} (hs : Claims.tablesInBlock s) (ll d : List (BitVec 4)) (u : State) :
    Ensures Claims.tablesInBlock ((u.buildPayloadTables ll d).settle s) := by
  refine (u.buildPayloadTables_meets ll d).endsInBlock hs ?_
  rintro _ t ⟨x, y, -, -, rfl⟩
  trivial

/-! ## The engine's step, a model fault not shut out -/

theorem State.fetchSignature_endsInBlock {s : State} (h : s.NoTables) :
    Ensures Claims.tablesInBlock s.fetchSignature.outcome := by
  unfold State.fetchSignature
  cases s.reader.readSignature with
  | ok v r =>
    cases v with
    | none => exact .of_next (State.sigMismatch_inBlock _)
    | some v =>
      simp only [State.withReader_ok]
      split
      · rename_i i hi
        cases decode_sig hi
        exact .of_next (State.NoTables.inBlock h)
      · exact .of_next (State.sigMismatch_inBlock _)
  | raise e r => exact .of_next trivial
  | wait => exact .of_next h.inBlock
  | fault f => exact .of_fault _ f

theorem execBtypeFixed_endsInBlock {s : State} (h : s.NoTables) (f : Bool) :
    Ensures Claims.tablesInBlock (execBtypeFixed f s) := by
  unfold execBtypeFixed
  exact State.buildPayloadTables_endsInBlock h.inBlock fixedLlLens fixedDLens (s.latchHeader f 1)

theorem State.fetchHeader_endsInBlock {s : State} (h : s.NoTables) :
    Ensures Claims.tablesInBlock s.fetchHeader.outcome := by
  have hm := s.readHeader_meets
  unfold State.fetchHeader
  cases hx : s.readHeader with
  | ok v u =>
    rw [hx] at hm
    obtain ⟨-, -, hbl⟩ := hm
    have hu : u.NoTables := by
      unfold State.NoTables
      rw [hbl]
      exact h
    dsimp only
    split
    · rename_i i hi
      obtain ⟨f, rfl | rfl | rfl | rfl⟩ := decode_blkHdr hi
      · exact .of_next (State.NoTables.inBlock hu)
      · exact execBtypeFixed_endsInBlock hu f
      · exact .of_next (State.NoTables.inBlock hu)
      · exact .of_next trivial
    · exact .of_next trivial
  | raise e u => exact .of_next trivial
  | wait => exact .of_next h.inBlock
  | fault f => exact .of_fault _ f

theorem execStoredHdr_endsInBlock {s : State} (h : s.NoTables) : Ensures Claims.tablesInBlock (execStoredHdr s) := by
  refine s.storedHdr_meets.endsInBlock h.inBlock ?_
  rintro _ t ⟨-, -, -, -, hbl, -⟩
  refine State.NoTables.inBlock ?_
  unfold State.NoTables
  rw [hbl]
  exact h

theorem State.storedCopyStep_endsInBlock {s : State} (h : s.NoTables) :
    Ensures Claims.tablesInBlock (s.storedCopyStep.settle s) := by
  by_cases hr : s.block.srem = 0
  · rw [State.storedCopyStep, if_pos hr]
    exact .of_next s.endOfBlock_noTables.inBlock
  · refine (State.storedCopyStep_meets hr).endsInBlock h.inBlock ?_
    rintro _ t ⟨b, r, -, -, rfl⟩
    exact State.NoTables.inBlock h

theorem execDynHdr_endsInBlock {s : State} (h : s.NoTables) : Ensures Claims.tablesInBlock (execDynHdr s) := by
  refine s.dynHdr_meets.endsInBlock h.inBlock ?_
  obtain ⟨-, hs_ll, hs_d⟩ := h
  rintro _ t ⟨u, -, -, rfl, -, -, -, -, -, -, hll, hd, -⟩
  exact ⟨hll.trans hs_ll, hd.trans hs_d⟩

/-- A symbol decoded, then its token (42_deflate_block R163, R171, R181). -/
theorem State.fetchSymbol_endsInBlock {sel : TableSel} {s : State} (hs : Claims.tablesInBlock s)
    (hrun : ∀ (i : Instr) (u : State) (v : Nat), s.SameTables u → decode (symbolFormat sel) v = .ok i →
      Ensures Claims.tablesInBlock (exec i u)) : Ensures Claims.tablesInBlock (s.fetchSymbol sel).outcome := by
  have hm := s.decodeInto_keepsTables sel
  unfold State.fetchSymbol
  cases hx : s.decodeInto sel with
  | ok _ u =>
    rw [hx] at hm
    dsimp only
    split
    · rename_i i hi
      exact hrun i u _ hm hi
    · cases sel with
      | cl => exact .of_fault _ _
      | ll | d => exact .of_next trivial
  | raise e u => exact .of_next trivial
  | wait => exact .of_next hs
  | fault f => exact .of_fault _ f

/-- The code-length tokens write no table (42_deflate_block R163 to R168). -/
theorem exec_clSymbol_endsInBlock {v : Nat} {i : Instr} {s : State} (hs : Claims.tablesInBlock s)
    (hi : decode .clSymbol v = .ok i) : Ensures Claims.tablesInBlock (exec i s) := by
  rcases decode_clSymbol hi with ⟨l, rfl⟩ | rfl | rfl | rfl
  · exact (s.appendLens_keepsTables l 1).endsInBlock hs
  · refine State.KeepsTables.endsInBlock ?_ hs
    split
    · trivial
    · exact (s.readExtra_keepsTables 3 2).bind fun r u => u.repeatPrevious_keepsTables r
  · exact ((s.readExtra_keepsTables 3 3).bind fun r u => u.runFill_keepsTables 0 r).endsInBlock hs
  · exact ((s.readExtra_keepsTables 11 7).bind fun r u => u.runFill_keepsTables 0 r).endsInBlock hs

/-- The literal/length tokens stay in the block, or END_OF_BLOCK drops its tables (42_deflate_block R153, R171 to R180). -/
theorem exec_llSymbol_endsInBlock {v : Nat} {i : Instr} {s : State} (hs : Claims.tablesInBlock s)
    (hi : decode .llSymbol v = .ok i) : Ensures Claims.tablesInBlock (exec i s) := by
  rcases decode_llSymbol hi with ⟨b, rfl⟩ | rfl | ⟨row, hrow, rfl⟩ | ⟨odd, rfl⟩
  · exact .of_next (State.SameTables.inBlock ⟨rfl, rfl, rfl, rfl⟩ hs)
  · exact .of_next s.endOfBlock_noTables.inBlock
  · obtain ⟨he, -, hhi⟩ := lengthRows_range hrow
    rw [exec_lengthRows hrow]
    refine (State.matchLength_meets he (by omega)).endsInBlock hs ?_
    rintro _ t ⟨u, -, -, -, -, rfl⟩
    trivial
  · exact .of_next trivial

/-- The distance tokens stay in the block (42_deflate_block R181 to R185). -/
theorem exec_dSymbol_endsInBlock {v : Nat} {i : Instr} {s : State} (hs : Claims.tablesInBlock s)
    (hi : decode .dSymbol v = .ok i) : Ensures Claims.tablesInBlock (exec i s) := by
  rcases decode_dSymbol hi with ⟨row, hrow, rfl⟩ | ⟨odd, rfl⟩
  · obtain ⟨he, hlo, hhi⟩ := distanceRows_range hrow
    rw [exec_distanceRows hrow]
    refine (State.matchDistance_meets he hlo (by omega)).endsInBlock hs ?_
    rintro _ t ⟨u, -, -, -, -, rfl⟩
    trivial
  · exact .of_next trivial

theorem State.matchCopyStep_endsInBlock {s : State} (hs : Claims.tablesInBlock s) :
    Ensures Claims.tablesInBlock (s.matchCopyStep.settle s) := by
  unfold State.matchCopyStep
  split
  · exact .of_next trivial
  · split
    · exact .of_fault _ _
    · exact .of_next (State.SameTables.inBlock ⟨rfl, rfl, rfl, rfl⟩ hs)

/-- Phase by phase (43_mszip_frame R207). -/
theorem State.fetchPhase_endsInBlock {s : State} (hs : Claims.tablesInBlock s) :
    Ensures Claims.tablesInBlock s.fetchPhase.outcome := by
  have hph := hs
  unfold Claims.tablesInBlock at hph
  unfold State.fetchPhase
  cases hp : s.seq.phase <;> rw [hp] at hph
  case idle | done | error => exact .of_next hs
  case sig => exact State.fetchSignature_endsInBlock hph
  case blkHdr => exact State.fetchHeader_endsInBlock hph
  case storedHdr => exact execStoredHdr_endsInBlock hph
  case storedCopy => exact State.storedCopyStep_endsInBlock hph
  case dynHdr => exact execDynHdr_endsInBlock hph
  case dynLens =>
    dsimp only
    split
    · exact State.fetchSymbol_endsInBlock hs fun _ _ _ hu hi => exec_clSymbol_endsInBlock (hu.inBlock hs) hi
    · exact State.buildPayloadTables_endsInBlock hs _ _ s
  case payload => exact State.fetchSymbol_endsInBlock hs fun _ _ _ hu hi => exec_llSymbol_endsInBlock (hu.inBlock hs) hi
  case matchDist => exact State.fetchSymbol_endsInBlock hs fun _ _ _ hu hi => exec_dSymbol_endsInBlock (hu.inBlock hs) hi
  case matchCopy => exact State.matchCopyStep_endsInBlock hs

theorem State.engineStep_endsInBlock {s t : State} (hs : Claims.tablesInBlock s) (ht : s.engineStep = .next t) :
    Claims.tablesInBlock t := by
  rcases State.engineStep_cases ht with ⟨-, hc⟩ | hr
  · refine State.engineStep_ensures ?_ hs t ht
    rw [State.fetch_phase (s := s.awake) hc]
    exact State.fetchPhase_endsInBlock (s := s.awake) hs
  · exact hr.sameTables.inBlock hs

/-- Settles O57: a table is built on entering DYN_LENS or PAYLOAD alone, and END_OF_BLOCK, START and reset drop them all. -/
theorem tablesLiveInTheirBlock : Obligations.TablesLiveInTheirBlock := by
  intro s t hs ht
  obtain ⟨turns, ht | rfl | rfl | ⟨hr, -⟩⟩ := step_cases ht
  · exact State.engineStep_endsInBlock (s := s.dropTurn turns) hs ht
  · trivial
  · exact ⟨rfl, rfl, rfl⟩
  · exact hr.sameTables.inBlock hs

end Sys2Proof.Machine
end
